-- ==== Sys2Proof/Config.lean ====
section
/-! DEFINITION. The parameters of the ECMAU (00_scope.md R8 to R10, 92_eei_decisions.md "Parameters a model takes
as arguments") and the one free value the spec leaves open. W is the argument of the types: it stands in
`State.width`. -/

namespace Sys2Proof

/-- Which bus word of a register lies at the lowest bus address (20_memory.md R62). -/
inductive WordOrder where
  /-- "The less significant bus word is at the lower bus address" (R62). -/
  | littleEndian
  /-- The more significant bus word is at the lower bus address. -/
  | bigEndian
  deriving DecidableEq, Repr

/-- BUS_BINDING: how a W-bit register maps onto the platform bus (20_memory.md R62, R63, R66; log 4). -/
structure BusBinding where
  /-- The bytes of bus address space that each register takes: register i lies at byte offset `registerBytes·i`. -/
  registerBytes : Nat
  /-- The bytes of one bus word. -/
  busWordBytes : Nat
  /-- The order of the bus words of a register. -/
  order : WordOrder
  deriving DecidableEq, Repr

/-- IRQ_ROUTING: where IRQ goes on the platform (60_exceptions.md R211; log 12). -/
structure IrqRouting where
  /-- The input of the host's interrupt controller that IRQ drives. -/
  line : Nat
  /-- Its priority there. -/
  priority : Nat
  deriving DecidableEq, Repr

/-- The parameters beside W that differ from one ECMAU to the next and that the model takes as arguments: they stand
in `Ecmau.cfg` and no step changes them. -/
structure Config where
  /-- N_TAB, the number of point entries each subgroup table can hold (R9; log 2). -/
  nTab : Nat
  /-- UNIT_BASE, the byte address of register index 0 on the platform bus (R66; log 3). -/
  unitBase : Nat
  /-- BUS_BINDING (R62, R66; log 4). -/
  bus : BusBinding
  /-- IRQ_ROUTING (60_exceptions.md R211; log 12). -/
  irqRouting : IrqRouting
  deriving DecidableEq, Repr

/-- W at the reference configuration (R8; log 1). -/
def Config.referenceW : Nat := 64

/-- The reference binding: 8 bytes a register, little-endian (R62, R63). A bus word of one byte: under little-endian
order every width of bus word gives the same bytes. DESIGN CHOICE, safe (log 4). -/
def BusBinding.reference : BusBinding := { registerBytes := 8, busWordBytes := 1, order := .littleEndian }

/-- The reference configuration: N_TAB = 256 (R9) and the reference binding. The base address 0 and the interrupt
input 0 are the model's choice. DESIGN CHOICE, unsafe: the spec gives UNIT_BASE and IRQ_ROUTING no reference value
(logs 3, 12). -/
def Config.reference : Config :=
  { nTab := 256, unitBase := 0, bus := BusBinding.reference, irqRouting := { line := 0, priority := 0 } }

/-- The value of an entry of a subgroup table that the spec calls unspecified (R41, R155, R156): a FREE VALUE,
one for each width, each table (false: A, true: B), each invalidation epoch of that table and each index.
DESIGN CHOICE, safe: nothing can be proved about it (log 9). -/
opaque Config.freeEntry (W : Nat) (table : Bool) (epoch index : Nat) : BitVec W × BitVec W

end Sys2Proof
end

