-- ==== Sys2Proof/Word.lean ====
section
/-! DEFINITION. The word type: the W-bit pattern of a register (00_scope.md R8, R12). -/

namespace Sys2Proof

/-- The W-bit pattern a register holds (R12). Bit 0 is the least significant bit. -/
abbrev Word (W : Nat) := BitVec W

/-- One byte of the platform bus (20_memory.md R62, R63). -/
abbrev Byte := BitVec 8

/-- A register index of the window, 0x00 to 0x3F (10_state.md R20). -/
abbrev RegIndex := Fin 64

end Sys2Proof
end

