-- ==== Sys2Proof/Syntax.lean ====
section
/-! DEFINITION. The commands of the ECMAU (30_encoding.md R82, spec/opcode_table.json), the fields of a command
word (R80), the registers of the window by name (10_state.md R20) and the two tables (00_scope.md R10). -/

namespace Sys2Proof

/-- The commands: one constructor per row of the opcode table (R82). No command word holds an operand (R81). -/
inductive Instr where
  | nop
  | mod
  | madd
  | mmul
  | minv
  | padd
  | tbuildA
  | tbuildB
  | tlookupA
  | tlookupB
  deriving DecidableEq, Repr

/-- The two subgroup tables (R10, R83). -/
inductive TableSel where
  | A
  | B
  deriving DecidableEq, Repr

/-- The fields of a W-bit command word (R80): OP [7:0], T [8], RSV [31:9], HI [W-1:32]. -/
structure CommandFields (W : Nat) where
  op  : BitVec 8
  t   : BitVec 1
  rsv : BitVec 23
  hi  : BitVec (W - 32)
  deriving DecidableEq, Repr

/-- Why a command word is illegal: the three conditions of R85. The unit reports ILLEGAL for each; the name is the
decoder's own (log 19). -/
inductive Illegal where
  /-- Condition 1: `v[W-1:9] != 0` (R84). -/
  | reservedBits
  /-- Condition 2: OP is not one of the eight defined codes (R86). -/
  | unassignedOp
  /-- Condition 3: T = 1 and OP is not a table command (R83). -/
  | tableBit
  deriving DecidableEq, Repr

/-- The mapped registers of the window, by the names of 10_state.md R20. -/
inductive Reg where
  | id | width | tabdepth | ctrl | status | cmd
  | n | x | y | r
  | p | a | b
  | px | py | qx | qy | rx | ry | k
  | orderA | gxA | gyA
  | orderB | gxB | gyB
  deriving DecidableEq, Repr

/-- The access types of 10_state.md R20 and R21. -/
inductive AccessType where
  /-- Read-only: a write stores nothing and sets WERR. -/
  | ro
  /-- Read and write. -/
  | rw
  /-- Write-only: a read returns 0. -/
  | wo
  /-- Read-only with write-1-to-clear bits (STATUS). -/
  | w1c
  deriving DecidableEq, Repr

end Sys2Proof
end

