-- ==== Sys2Proof/WellFormed.lean ====
section
/-! DEFINITION. What makes a command word's fields well formed (30_encoding.md R83, R84, R85), and the constraints
on the parameters (00_scope.md R8, R9). -/

namespace Sys2Proof

variable {W : Nat}

/-- The operation codes that name a table in T (R83): TBUILD and TLOOKUP. -/
def tableOps : List (BitVec 8) := [0x20, 0x21]

/-- The operation codes that need T = 0 (R82): NOP, MOD, MADD, MMUL, MINV and PADD. -/
def plainOps : List (BitVec 8) := [0x00, 0x01, 0x02, 0x03, 0x04, 0x10]

/-- No reserved bit is set (R84). -/
def CommandFields.reservedClear (f : CommandFields W) : Bool :=
  f.rsv == 0 && f.hi == 0

/-- OP is a defined code (R85, condition 2). -/
def CommandFields.opDefined (f : CommandFields W) : Bool :=
  plainOps.contains f.op || tableOps.contains f.op

/-- T is set only where OP names a table (R85, condition 3). -/
def CommandFields.tableBitAllowed (f : CommandFields W) : Bool :=
  f.t == 0 || tableOps.contains f.op

/-- The fields are those of a legal command word (R85). -/
def CommandFields.wellFormed (f : CommandFields W) : Bool :=
  f.reservedClear && f.opDefined && f.tableBitAllowed

/-- The fields of each command's W-bit word (R80, R82, R83). -/
def Instr.fields (W : Nat) : Instr → CommandFields W
  | .nop      => { op := 0x00, t := 0, rsv := 0, hi := 0 }
  | .mod      => { op := 0x01, t := 0, rsv := 0, hi := 0 }
  | .madd     => { op := 0x02, t := 0, rsv := 0, hi := 0 }
  | .mmul     => { op := 0x03, t := 0, rsv := 0, hi := 0 }
  | .minv     => { op := 0x04, t := 0, rsv := 0, hi := 0 }
  | .padd     => { op := 0x10, t := 0, rsv := 0, hi := 0 }
  | .tbuildA  => { op := 0x20, t := 0, rsv := 0, hi := 0 }
  | .tbuildB  => { op := 0x20, t := 1, rsv := 0, hi := 0 }
  | .tlookupA => { op := 0x21, t := 0, rsv := 0, hi := 0 }
  | .tlookupB => { op := 0x21, t := 1, rsv := 0, hi := 0 }

/-- A command is well formed when the fields of its word are. Every command of the syntax is, since none has an
operand (R81). -/
def Instr.wellFormed (W : Nat) (i : Instr) : Bool := (i.fields W).wellFormed

/-- The constraint on W (R8): the 32-bit command word and the ID register fit. -/
def widthAllowed (W : Nat) : Bool := decide (32 ≤ W)

/-- The constraint on N_TAB (R9). -/
def Config.nTabAllowed (W : Nat) (c : Config) : Bool := decide (1 ≤ c.nTab) && decide (c.nTab ≤ 2 ^ (W - 1) - 1)

/-- The constraints on BUS_BINDING: a register fits its bytes (R63: "this needs `W <= 64`" of 8 bytes), and they are
whole bus words (log 4). -/
def BusBinding.allowed (W : Nat) (b : BusBinding) : Bool :=
  decide (W ≤ 8 * b.registerBytes) && decide (1 ≤ b.busWordBytes) && b.registerBytes % b.busWordBytes == 0

/-- UNIT_BASE is "aligned for the binding" (92_eei_decisions.md, the table of parameters). -/
def Config.baseAligned (c : Config) : Bool := c.unitBase % c.bus.registerBytes == 0

/-- The parameters meet the spec's constraints, at width W. -/
def Config.wellFormed (W : Nat) (c : Config) : Bool :=
  widthAllowed W && c.nTabAllowed W && c.bus.allowed W && c.baseAligned

end Sys2Proof
end

