-- ==== Sys2Proof/Decode.lean ====
section
/-! DEFINITION. Decoding a command word (30_encoding.md R85) and, after it, the encoder (R82). -/

namespace Sys2Proof

variable {W : Nat}

/-- The fields of a command word (R80). -/
def commandFields (v : Word W) : CommandFields W :=
  { op := v.extractLsb' 0 8, t := v.extractLsb' 8 1, rsv := v.extractLsb' 9 23, hi := v.extractLsb' 32 (W - 32) }

/-- The command that OP and T name (R82, R83), for a word with no reserved bit set. -/
def decodeOp (op : Nat) (t : Bool) : Except Illegal Instr :=
  match op with
  | 0x20 => .ok (if t then .tbuildB else .tbuildA)
  | 0x21 => .ok (if t then .tlookupB else .tlookupA)
  | 0x00 => if t then .error .tableBit else .ok .nop
  | 0x01 => if t then .error .tableBit else .ok .mod
  | 0x02 => if t then .error .tableBit else .ok .madd
  | 0x03 => if t then .error .tableBit else .ok .mmul
  | 0x04 => if t then .error .tableBit else .ok .minv
  | 0x10 => if t then .error .tableBit else .ok .padd
  | _ => .error .unassignedOp

/-- `decode(v)` of R85: total on every W-bit word. A word it rejects is issued all the same and completes with
ILLEGAL (43_control.md R182). -/
def decode (v : Word W) : Except Illegal Instr :=
  if 2 ^ 9 ≤ v.toNat then .error .reservedBits
  else decodeOp (v.extractLsb' 0 8).toNat (v.getLsbD 8)

/-- The table a TBUILD command builds, none for every other command (R83): what issue must know (43_control.md R181). -/
def buildTarget : Instr → Option TableSel
  | .nop => none
  | .mod => none
  | .madd => none
  | .mmul => none
  | .minv => none
  | .padd => none
  | .tbuildA => some .A
  | .tbuildB => some .B
  | .tlookupA => none
  | .tlookupB => none

/-- The command word with the given fields (R80). -/
def assembleFields (f : CommandFields W) : Word W := (f.hi ++ f.rsv ++ f.t ++ f.op).setWidth W

/-- The W-bit command word of a command (R82): "Every command word value is zero-extended to W bits." -/
def encode (W : Nat) (i : Instr) : Word W := assembleFields (i.fields W)

/-- The instruction this decoder reads from a word numbered as spec/opcode_table.json numbers it. A command word is
one register value (R80), so a number that does not fit the reference width (R8) is none. -/
def decodeTableWord (nbits w : Nat) : Option Instr :=
  let v := w % 2 ^ nbits
  if 2 ^ Config.referenceW ≤ v then none
  else
    match decode (BitVec.ofNat Config.referenceW v) with
    | .ok i => some i
    | .error _ => none

end Sys2Proof
end

