-- ==== Sys2Proof/Machine/State.lean ====
section
/-! DEFINITION. The state of the ECMAU (10_state.md), its reasons to stop, and the state after reset
(70_reset_and_hazards.md R230). -/

namespace Sys2Proof.Machine

/-- The result codes of 60_exceptions.md R200. The reserved codes 0xA to 0xF are "never produced", so the type has
none of them (log 13). -/
inductive ResultCode where
  | ok
  | identity
  | noInverse
  | range
  | divergence
  | tableOverflow
  | tableInvalid
  | badModulus
  | nonCanon
  | illegal
  deriving DecidableEq, Repr

/-- The W-bit data registers (10_state.md R38, R39, R40). -/
structure DataRegs (W : Nat) where
  /-- N, the modulus of the scalar commands. -/
  n : Word W
  /-- X, the first scalar operand. -/
  x : Word W
  /-- Y, the second scalar operand. -/
  y : Word W
  /-- R (RO), the scalar result. -/
  r : Word W
  /-- P, the curve modulus p. -/
  p : Word W
  /-- A, the curve coefficient a. -/
  a : Word W
  /-- B, the curve coefficient b, read by no command. -/
  b : Word W
  /-- PX, x of the first point operand and of the generator. -/
  px : Word W
  /-- PY, y of the first point operand and of the generator. -/
  py : Word W
  /-- QX, x of the second point operand. -/
  qx : Word W
  /-- QY, y of the second point operand. -/
  qy : Word W
  /-- RX (RO), x of the point result. -/
  rx : Word W
  /-- RY (RO), y of the point result. -/
  ry : Word W
  /-- K, the lookup index. -/
  k : Word W
  deriving DecidableEq, Repr

/-- One subgroup table t with its registers (10_state.md R41). -/
structure Table (W : Nat) where
  /-- VALID_t. -/
  valid : Bool
  /-- ORDER_t (RO). -/
  order : Word W
  /-- GX_t (RO). -/
  gx : Word W
  /-- GY_t (RO). -/
  gy : Word W
  /-- TAB_t[1], TAB_t[2], … as far as the last build wrote them. Every entry above is unspecified (R155). -/
  entries : List (Word W × Word W)
  /-- The model's own counter (log 9): how often the entries became unspecified. -/
  epoch : Nat
  deriving DecidableEq, Repr

/-- A point: a pair of integers (00_scope.md R15). -/
structure Point where
  x : Int
  y : Int
  deriving DecidableEq, Repr

/-- The working values of MINV (40_modular.md R103): two remainders and two Bezout coefficients. -/
structure MinvWork where
  r0 : Int
  r1 : Int
  t0 : Int
  t1 : Int
  deriving DecidableEq, Repr

/-- The working values of TBUILD (42_table.md R152): the running point, the counter `order`, and the entries
TAB_t[1], … computed so far, which reach TAB_t at completion (43_control.md R183; log 15). -/
structure BuildWork where
  cur : Point
  order : Int
  entries : List Point
  deriving DecidableEq, Repr

/-- The working values of the command in flight (10_state.md R43). -/
inductive Work where
  /-- None are held yet: no command is in flight, its work has not begun, or it has none. -/
  | idle
  | minv (w : MinvWork)
  | build (w : BuildWork)
  deriving DecidableEq, Repr

/-- What comes to the unit from outside: the host's accesses (20_memory.md R60, R63) and a hardware reset
(70_reset_and_hazards.md R230). -/
inductive Event (W : Nat) where
  /-- `RegRead(i)` (R60). -/
  | regRead (i : RegIndex)
  /-- `RegWrite(i, v)` (R60). -/
  | regWrite (i : RegIndex) (v : Word W)
  /-- A platform bus read of `len` bytes at byte address `addr` (R63). -/
  | busRead (addr len : Nat)
  /-- A platform bus write of these bytes, the one at the lowest address first (R62, R63). -/
  | busWrite (addr : Nat) (bytes : List Byte)
  /-- A hardware reset (log 11). -/
  | hardReset
  deriving DecidableEq, Repr

/-- What a read returned to the host. -/
inductive Answer (W : Nat) where
  /-- The value of a `RegRead`. -/
  | word (v : Word W)
  /-- The bytes of a bus read, the one at the lowest address first (R62). -/
  | bytes (bs : List Byte)
  deriving DecidableEq, Repr

/-- Who acts next (43_control.md R186): the host, the unit on its hidden working values (10_state.md R43), or the
unit with its completion step. -/
inductive Turn where
  | host
  | work
  | complete
  deriving DecidableEq, Repr

/-- Why a step stops with a fault. -/
inductive Fault where
  /-- A bus access inside the window that is not one whole register at its own offset (20_memory.md R63). Raised by
  `Machine/Bus.lean`. Safe: the model stops, where the unit would see no access and go on. -/
  | busError
  deriving DecidableEq, Repr

/-- Why a step is refused. -/
inductive Refusal where
  /-- An instruction with no meaning yet. Raised by a rejected arm of `exec` alone, and no arm is rejected. Safe. -/
  | notModelled (mnemonic : String)
  /-- A bus access outside the window, which "never reaches the ECMAU" (20_memory.md R61). Raised by
  `Machine/Bus.lean`. Safe: the platform decides what it does. -/
  | outsideWindow
  deriving DecidableEq, Repr

/-- The ECMAU of width W (10_state.md R20, R41, R43), its other parameters, and the model's own fields `events`,
`answers` and `turns`. There is no program counter (R45) and no arithmetic flag (R46). -/
structure Ecmau (W : Nat) where
  /-- The parameters beside W (00_scope.md R9, 20_memory.md R66, 60_exceptions.md R211). No step changes them. -/
  cfg : Config
  /-- CTRL.IE (R26). -/
  ie : Bool
  /-- STATUS.BUSY (R30). -/
  busy : Bool
  /-- STATUS.DONE (R31). -/
  done : Bool
  /-- STATUS.ERR (R32). -/
  err : Bool
  /-- STATUS.WERR (R33). -/
  werr : Bool
  /-- STATUS.CODE (R34). -/
  code : ResultCode
  /-- The data registers (R38, R39, R40). -/
  regs : DataRegs W
  /-- Table A (R41). -/
  tabA : Table W
  /-- Table B (R41). -/
  tabB : Table W
  /-- INFLIGHT: "the command word issued and not yet completed, or none" (R43; log 8). -/
  inflight : Option (Word W)
  /-- The working values of the command in flight (R43). -/
  work : Work
  /-- The model's own (log 10): the host's accesses and the hardware resets still to come, in program order. -/
  events : List (Event W)
  /-- The model's own (log 10): what the host's reads returned, newest first. -/
  answers : List (Answer W)
  /-- The model's own (log 6): who acts next. Used up, the unit goes first. -/
  turns : List Turn
  deriving DecidableEq, Repr

/-- The state of the machine: the parameter W (00_scope.md R8) and the ECMAU of that width. No step changes W. -/
structure State where
  /-- W, the width in bits of every data register (R8). -/
  width : Nat
  /-- The ECMAU. -/
  unit : Ecmau width
  deriving DecidableEq, Repr

/-- An ECMAU as a state of the machine. -/
abbrev Ecmau.pack {W : Nat} (u : Ecmau W) : State := { width := W, unit := u }

/-- A table after reset (R230): not valid, its registers 0, every entry unspecified. -/
def Table.reset (W : Nat) : Table W := { valid := false, order := 0, gx := 0, gy := 0, entries := [], epoch := 0 }

/-- The data registers after reset: all 0 (R230). -/
def DataRegs.reset (W : Nat) : DataRegs W :=
  { n := 0, x := 0, y := 0, r := 0, p := 0, a := 0, b := 0, px := 0, py := 0, qx := 0, qy := 0, rx := 0, ry := 0, k := 0 }

/-- The ECMAU of width W and parameters c right after a hardware reset (70_reset_and_hazards.md R230). The model's own
fields start empty. DESIGN CHOICE (logs 6, 9, 10). -/
def Ecmau.reset (W : Nat) (c : Config) : Ecmau W :=
  { cfg := c, ie := false, busy := false, done := false, err := false, werr := false, code := .ok,
    regs := DataRegs.reset W, tabA := Table.reset W, tabB := Table.reset W, inflight := none, work := .idle,
    events := [], answers := [], turns := [] }

/-- The machine right after a hardware reset (R230), at the reference configuration (logs 1, 2, 3, 4, 12). -/
def State.reset : State := (Ecmau.reset Config.referenceW Config.reference).pack

end Sys2Proof.Machine
end

