-- ==== Sys2Proof/Machine/Flags.lean ====
section
/-! DEFINITION. Result codes as numbers, the STATUS and CTRL words, and the interrupt line. The ECMAU has no
arithmetic flags (10_state.md R46). -/

namespace Sys2Proof.Machine

variable {W : Nat}

/-- The 4-bit value of a result code (60_exceptions.md R200). -/
def ResultCode.toBits : ResultCode → BitVec 4
  | .ok => 0x0
  | .identity => 0x1
  | .noInverse => 0x2
  | .range => 0x3
  | .divergence => 0x4
  | .tableOverflow => 0x5
  | .tableInvalid => 0x6
  | .badModulus => 0x7
  | .nonCanon => 0x8
  | .illegal => 0x9

/-- "Codes 2 and above are error codes" (R200). -/
def ResultCode.isError (c : ResultCode) : Bool := decide (2 ≤ c.toBits.toNat)

/-- ERR after a completion with code `c` (10_state.md R32, 43_control.md R183): sticky. -/
def errAfter (err : Bool) (c : ResultCode) : Bool := err || c.isError

/-- The value a read of STATUS returns (10_state.md R29): VALID_B 13, VALID_A 12, CODE 11:8, WERR 3, ERR 2, DONE 1,
BUSY 0, every other bit 0. -/
def Ecmau.statusWord (s : Ecmau W) : Word W :=
  (BitVec.ofBool s.tabB.valid ++ BitVec.ofBool s.tabA.valid ++ s.code.toBits ++ (0 : BitVec 4) ++
    BitVec.ofBool s.werr ++ BitVec.ofBool s.err ++ BitVec.ofBool s.done ++ BitVec.ofBool s.busy).setWidth W

/-- The value a read of CTRL returns (10_state.md R26): IE in bit 0, SRST and the reserved bits 0. -/
def Ecmau.ctrlWord (s : Ecmau W) : Word W := (BitVec.ofBool s.ie).setWidth W

/-- The interrupt output, a level (60_exceptions.md R210): `IRQ = CTRL.IE ∧ STATUS.DONE`. -/
def Ecmau.irq (s : Ecmau W) : Bool := s.ie && s.done

/-- The interrupt request that input `line` of the host's interrupt controller sees from the ECMAU: its priority
while IRQ is asserted, at the input the platform routes it to (60_exceptions.md R211; log 12). -/
def Ecmau.requestAt (s : Ecmau W) (line : Nat) : Option Nat :=
  if s.irq && line == s.cfg.irqRouting.line then some s.cfg.irqRouting.priority else none

end Sys2Proof.Machine
end

