-- ==== Sys2Proof/Machine/Operands.lean ====
section
/-! DEFINITION. Reading a register as an integer, writing an integer to a register, and the operands of the commands
(00_scope.md R12, R15; 30_encoding.md R81). -/

namespace Sys2Proof.Machine

variable {W : Nat}

/-- `uval(v)`: the pattern as an unsigned integer in `[0, 2^W)` (R12). -/
def uval (v : Word W) : Int := (v.toNat : Int)

/-- `sval(v)`: the pattern as two's complement in `[-2^(W-1), 2^(W-1))` (R12). -/
def sval (v : Word W) : Int := if v.getLsbD (W - 1) then uval v - 2 ^ W else uval v

/-- `bits_W(z)`: the W-bit pattern of z, namely `z mod 2^W` (R12). -/
def bitsW (z : Int) : Word W := BitVec.ofNat W (z % 2 ^ W).toNat

/-- The pair of register patterns of a point. -/
def Point.toEntry (c : Point) : Word W × Word W := (bitsW c.x, bitsW c.y)

/-- The point that a pair of W-bit values is read as: both unsigned (R47). -/
def entryPoint (e : Word W × Word W) : Point := { x := uval e.1, y := uval e.2 }

/-- A point is canonical for modulus p: `0 <= x < p` and `0 <= y < p` (R15). -/
def canonical (p : Int) (c : Point) : Bool :=
  decide (0 ≤ c.x) && decide (c.x < p) && decide (0 ≤ c.y) && decide (c.y < p)

/-- `n = sval(reg[N])`, the modulus of the scalar commands (40_modular.md R100). -/
def Ecmau.opN (s : Ecmau W) : Int := sval s.regs.n

/-- `sval(reg[X])` (R38). -/
def Ecmau.opX (s : Ecmau W) : Int := sval s.regs.x

/-- `sval(reg[Y])` (R38). -/
def Ecmau.opY (s : Ecmau W) : Int := sval s.regs.y

/-- `p = sval(reg[P])` (R39). -/
def Ecmau.opP (s : Ecmau W) : Int := sval s.regs.p

/-- `a = sval(reg[A])`, which need not be canonical (R39). -/
def Ecmau.opA (s : Ecmau W) : Int := sval s.regs.a

/-- The first point operand of PADD and the generator of TBUILD: (PX, PY) (R40). -/
def Ecmau.opPoint1 (s : Ecmau W) : Point := { x := sval s.regs.px, y := sval s.regs.py }

/-- The second point operand of PADD: (QX, QY) (R40). -/
def Ecmau.opPoint2 (s : Ecmau W) : Point := { x := sval s.regs.qx, y := sval s.regs.qy }

/-- `k = sval(reg[K])`, the lookup index (R40). -/
def Ecmau.opK (s : Ecmau W) : Int := sval s.regs.k

/-- Table t of the state (R41). -/
def Ecmau.table (s : Ecmau W) : TableSel → Table W
  | .A => s.tabA
  | .B => s.tabB

/-- The state with table t replaced. -/
def Ecmau.setTable (s : Ecmau W) (t : TableSel) (tab : Table W) : Ecmau W :=
  match t with
  | .A => { s with tabA := tab }
  | .B => { s with tabB := tab }

/-- `TAB_t[k]`, 1-based (R14, R41). An entry the build did not write is unspecified: a free value (log 9). -/
def tableEntry (t : TableSel) (tab : Table W) (k : Nat) : Word W × Word W :=
  match k with
  | 0 => Config.freeEntry W (t == .B) tab.epoch 0
  | j + 1 => tab.entries.getD j (Config.freeEntry W (t == .B) tab.epoch (j + 1))

end Sys2Proof.Machine
end

