-- ==== Sys2Proof/Machine/Ops.lean ====
section
/-! DEFINITION. The shared operations: `invalidate`, `complete` and `raise` (00_scope.md R14), issue (43_control.md
R181), reset (70_reset_and_hazards.md R230, R231), and `RegRead` and `RegWrite` on the register map (10_state.md R20,
20_memory.md R60).

The ECMAU takes no exception: an error completes its command with an error code (60_exceptions.md R203). So the one
operation that reports an error is `Ecmau.raise`, and what stands in the place of a return from exception is the host's
acknowledgement `Ecmau.ackStatus` (R204). -/

namespace Sys2Proof.Machine

variable {W : Nat}

/-! ### Tables -/

/-- A table as `invalidate(t)` leaves it (R14): VALID_t, ORDER_t, GX_t, GY_t are 0 and every entry is unspecified. -/
def Table.invalidate (t : Table W) : Table W :=
  { valid := false, order := 0, gx := 0, gy := 0, entries := [], epoch := t.epoch + 1 }

/-- `invalidate(t)` (R14). -/
def Ecmau.invalidate (s : Ecmau W) (t : TableSel) : Ecmau W := s.setTable t (s.table t).invalidate

/-! ### Completion and issue -/

/-- `complete(code)`: the completion effects of 43_control.md R183, steps 2 to 4. A command's register and table
writes come before it, in the same step. -/
def Ecmau.complete (s : Ecmau W) (c : ResultCode) : Ecmau W :=
  { s with code := c, err := errAfter s.err c, busy := false, done := true, inflight := none, work := .idle }

/-- `raise CODE`: "`complete(CODE)` for an error code. No destination register is written" (R14). -/
def Ecmau.raise (s : Ecmau W) (c : ResultCode) : Ecmau W := s.complete c

/-- What issue does to the tables: TBUILD.t invalidates table t, "before any check" (42_table.md R151). -/
def Ecmau.issueInvalidate (s : Ecmau W) (v : Word W) : Ecmau W :=
  match decode v with
  | .error _ => s
  | .ok i =>
    match buildTarget i with
    | none => s
    | some t => s.invalidate t

/-- Issue of the command word `v` (43_control.md R181). -/
def Ecmau.issue (s : Ecmau W) (v : Word W) : Ecmau W :=
  { s.issueInvalidate v with inflight := some v, busy := true, done := false, work := .idle }

/-! ### Reset -/

/-- The state of R230, keeping the parameters and what belongs to the host: its accesses, what it has read, and whose
turn it is. The table entries become unspecified anew. A command in flight is abandoned: nothing of it is written
(R231). -/
def Ecmau.toReset (s : Ecmau W) : Ecmau W :=
  { Ecmau.reset W s.cfg with
    tabA := s.tabA.invalidate, tabB := s.tabB.invalidate,
    events := s.events, answers := s.answers, turns := s.turns }

/-- A hardware reset (R230; log 11). -/
def Ecmau.hardReset (s : Ecmau W) : Ecmau W := s.toReset

/-- A soft reset: "exactly the state of rule R230 … whether or not a command is in flight" (R231). -/
def Ecmau.softReset (s : Ecmau W) : Ecmau W := s.toReset

/-! ### Register writes -/

/-- A host write that stores nothing: it sets WERR (10_state.md R33). -/
def Ecmau.dropWrite (s : Ecmau W) : Ecmau W := { s with werr := true }

/-- A write to CTRL (R26): with bit 1 set the soft reset, "whatever the other bits hold" (R28), otherwise
`CTRL.IE <- value[0]` (R27). -/
def Ecmau.writeCtrl (s : Ecmau W) (v : Word W) : Ecmau W :=
  if v.getLsbD 1 then s.softReset else { s with ie := v.getLsbD 0 }

/-- A write to STATUS: a 1 in bit 1, 2, 3 clears DONE, ERR, WERR (R36). It never sets WERR. This is the host's
acknowledgement of an error (60_exceptions.md R204). -/
def Ecmau.ackStatus (s : Ecmau W) (v : Word W) : Ecmau W :=
  { s with
    done := s.done && !v.getLsbD 1, err := s.err && !v.getLsbD 2, werr := s.werr && !v.getLsbD 3 }

/-- A write to CMD: issue while BUSY = 0, dropped while BUSY = 1 (R37, R44). -/
def Ecmau.writeCmd (s : Ecmau W) (v : Word W) : Ecmau W := if s.busy then s.dropWrite else s.issue v

/-- A write to an RW data register that leaves the data registers as `regs`: stored while BUSY = 0, dropped while
BUSY = 1 (R21, R44). -/
def Ecmau.storeData (s : Ecmau W) (regs : DataRegs W) : Ecmau W :=
  if s.busy then s.dropWrite else { s with regs := regs }

/-- A write to P, A or B: stored as any data register, and then both tables are invalidated in the same instant,
"even when the value written equals the value held" (R42). -/
def Ecmau.storeCurve (s : Ecmau W) (regs : DataRegs W) : Ecmau W :=
  if s.busy then s.dropWrite else (({ s with regs := regs } : Ecmau W).invalidate .A).invalidate .B

/-! ### The register map -/

/-- The index of each mapped register (10_state.md R20). -/
def regIndex : Reg → RegIndex
  | .id => 0x00 | .width => 0x01 | .tabdepth => 0x02 | .ctrl => 0x03 | .status => 0x04 | .cmd => 0x05
  | .n => 0x08 | .x => 0x09 | .y => 0x0A | .r => 0x0B
  | .p => 0x10 | .a => 0x11 | .b => 0x12
  | .px => 0x14 | .py => 0x15 | .qx => 0x16 | .qy => 0x17 | .rx => 0x18 | .ry => 0x19 | .k => 0x1A
  | .orderA => 0x20 | .gxA => 0x21 | .gyA => 0x22
  | .orderB => 0x24 | .gxB => 0x25 | .gyB => 0x26

/-- Every mapped register, in the order of the table of R20. -/
def mappedRegs : List Reg :=
  [.id, .width, .tabdepth, .ctrl, .status, .cmd, .n, .x, .y, .r, .p, .a, .b, .px, .py, .qx, .qy, .rx, .ry, .k,
   .orderA, .gxA, .gyA, .orderB, .gxB, .gyB]

/-- The register at an index, none where the index is unmapped (R20, R22). -/
def regAt (i : RegIndex) : Option Reg := mappedRegs.find? fun reg => regIndex reg == i

/-- The access type of each mapped register (R20). -/
def regAccess : Reg → AccessType
  | .id => .ro | .width => .ro | .tabdepth => .ro | .ctrl => .rw | .status => .w1c | .cmd => .wo
  | .n => .rw | .x => .rw | .y => .rw | .r => .ro
  | .p => .rw | .a => .rw | .b => .rw
  | .px => .rw | .py => .rw | .qx => .rw | .qy => .rw | .rx => .ro | .ry => .ro | .k => .rw
  | .orderA => .ro | .gxA => .ro | .gyA => .ro
  | .orderB => .ro | .gxB => .ro | .gyB => .ro

/-- The value a read of a mapped register returns (R20 to R29, R35, R37 to R41). -/
def Ecmau.readReg (s : Ecmau W) : Reg → Word W
  | .id => 0x45430100
  | .width => bitsW W
  | .tabdepth => bitsW s.cfg.nTab
  | .ctrl => s.ctrlWord
  | .status => s.statusWord
  | .cmd => 0
  | .n => s.regs.n
  | .x => s.regs.x
  | .y => s.regs.y
  | .r => s.regs.r
  | .p => s.regs.p
  | .a => s.regs.a
  | .b => s.regs.b
  | .px => s.regs.px
  | .py => s.regs.py
  | .qx => s.regs.qx
  | .qy => s.regs.qy
  | .rx => s.regs.rx
  | .ry => s.regs.ry
  | .k => s.regs.k
  | .orderA => s.tabA.order
  | .gxA => s.tabA.gx
  | .gyA => s.tabA.gy
  | .orderB => s.tabB.order
  | .gxB => s.tabB.gx
  | .gyB => s.tabB.gy

/-- The write effect of a mapped register (R21, R33, R36, R37, R42, R44). -/
def Ecmau.writeReg (s : Ecmau W) (reg : Reg) (v : Word W) : Ecmau W :=
  match reg with
  | .id => s.dropWrite
  | .width => s.dropWrite
  | .tabdepth => s.dropWrite
  | .ctrl => s.writeCtrl v
  | .status => s.ackStatus v
  | .cmd => s.writeCmd v
  | .n => s.storeData { s.regs with n := v }
  | .x => s.storeData { s.regs with x := v }
  | .y => s.storeData { s.regs with y := v }
  | .r => s.dropWrite
  | .p => s.storeCurve { s.regs with p := v }
  | .a => s.storeCurve { s.regs with a := v }
  | .b => s.storeCurve { s.regs with b := v }
  | .px => s.storeData { s.regs with px := v }
  | .py => s.storeData { s.regs with py := v }
  | .qx => s.storeData { s.regs with qx := v }
  | .qy => s.storeData { s.regs with qy := v }
  | .rx => s.dropWrite
  | .ry => s.dropWrite
  | .k => s.storeData { s.regs with k := v }
  | .orderA => s.dropWrite
  | .gxA => s.dropWrite
  | .gyA => s.dropWrite
  | .orderB => s.dropWrite
  | .gxB => s.dropWrite
  | .gyB => s.dropWrite

/-- `RegRead(i)` (20_memory.md R60): a read of an unmapped index returns 0 (R22). It changes nothing (R65). -/
def Ecmau.regRead (s : Ecmau W) (i : RegIndex) : Word W :=
  match regAt i with
  | none => 0
  | some reg => s.readReg reg

/-- `RegWrite(i, v)` (R60): a write to an unmapped index stores nothing and sets WERR (R22). -/
def Ecmau.regWrite (s : Ecmau W) (i : RegIndex) (v : Word W) : Ecmau W :=
  match regAt i with
  | none => s.dropWrite
  | some reg => s.writeReg reg v

end Sys2Proof.Machine
end

