-- ==== Sys2Proof/Machine/Modular.lean ====
section
/-! DEFINITION. The modular arithmetic unit: `cmod`, `modinv` and the commands MOD, MADD, MMUL and MINV
(40_modular.md). All arithmetic is on integers, exact (00_scope.md R13). -/

namespace Sys2Proof.Machine

variable {W : Nat}

/-- `cmod(n, x)`, the residue of x in `[0, n)`, for `n > 0`: "Equivalently it is `x - n·floor(x / n)`" (R101). -/
def cmod (n x : Int) : Int := x - n * x.fdiv n

/-- The working values before the first pass of the loop of R103. -/
def startMinv (n x : Int) : MinvWork := { r0 := n, r1 := cmod n x, t0 := 0, t1 := 1 }

/-- One division step of the loop of R103. -/
def minvPass (w : MinvWork) : MinvWork :=
  let q := w.r0.fdiv w.r1
  { r0 := w.r1, r1 := w.r0 - q * w.r1, t0 := w.t1, t1 := w.t0 - q * w.t1 }

/-- The loop of R103 from the working values `w`, at most `fuel` tests: the coefficient when the remainder is 1,
none (NO_INVERSE) when it is 0. -/
def minvLoop (n : Int) (fuel : Nat) (w : MinvWork) : Option Int :=
  match fuel with
  | 0 => none
  | f + 1 =>
    if w.r1 = 1 then some (cmod n w.t1)
    else if w.r1 = 0 then none
    else minvLoop n f (minvPass w)

/-- The loop of R103 run to its end. "r1 strictly decreases and stays at 0 or above" (R104), so `r1 + 1` tests are
enough (log 14). -/
def finishMinv (n : Int) (w : MinvWork) : Option Int := minvLoop n (w.r1.toNat + 1) w

/-- `modinv(n, x)` for `n > 0`: a value in `[0, n)`, or none where it fails with NO_INVERSE (R103). -/
def modinv (n x : Int) : Option Int := finishMinv n (startMinv n x)

/-- The working values of MINV that the state holds, or those its loop starts from (10_state.md R43). -/
def Ecmau.minvWork (s : Ecmau W) : MinvWork :=
  match s.work with
  | .idle => startMinv s.opN s.opX
  | .minv w => w
  | .build _ => startMinv s.opN s.opX

/-- What the scalar commands share: BAD_MODULUS "before any other work" where `n <= 0` (R100), NO_INVERSE where the
value `f n` fails, otherwise `reg[R] <- bits_W(y)` and OK. -/
def Ecmau.scalar (s : Ecmau W) (f : Int → Option Int) : Ecmau W :=
  if s.opN ≤ 0 then s.raise .badModulus
  else
    match f s.opN with
    | none => s.raise .noInverse
    | some y => ({ s with regs := { s.regs with r := bitsW y } } : Ecmau W).complete .ok

/-- MOD: `R <- X mod N` (R105). -/
def execMod (s : State) : Host.Outcome State Fault Refusal :=
  .next (s.unit.scalar fun n => some (cmod n s.unit.opX)).pack

/-- MADD: `R <- (X + Y) mod N`, the sum exact (R106). -/
def execMadd (s : State) : Host.Outcome State Fault Refusal :=
  .next (s.unit.scalar fun n => some (cmod n (s.unit.opX + s.unit.opY))).pack

/-- MMUL: `R <- (X · Y) mod N`, the product exact (R107). -/
def execMmul (s : State) : Host.Outcome State Fault Refusal :=
  .next (s.unit.scalar fun n => some (cmod n (s.unit.opX * s.unit.opY))).pack

/-- MINV: `R <- X⁻¹ mod N` (R108), finishing the loop from the working values the unit holds (10_state.md R43). -/
def execMinv (s : State) : Host.Outcome State Fault Refusal :=
  .next (s.unit.scalar fun n => finishMinv n s.unit.minvWork).pack

end Sys2Proof.Machine
end

