-- ==== Sys2Proof/Machine/Point.lean ====
section
/-! DEFINITION. Point addition and doubling: `padd_core` and the command PADD (41_point.md). -/

namespace Sys2Proof.Machine

variable {W : Nat}

/-- The outcome of `padd_core` (R130): "a variant result (`Sum(Point) | Identity`) rather than a sentinel coordinate
pair" (00_scope.md R15), or the failure NO_INVERSE. -/
inductive PaddResult where
  | sum (c : Point)
  | identity
  | noInverse
  deriving DecidableEq, Repr

/-- The third point of the line of slope `num / den` through `c1` and `c2` (R130, its last five lines). -/
def slopePoint (p num den : Int) (c1 c2 : Point) : PaddResult :=
  match modinv p den with
  | none => .noInverse
  | some inv =>
    let s := cmod p (num * inv)
    let xr := cmod p (s * s - c1.x - c2.x)
    .sum { x := xr, y := cmod p (s * (c1.x - xr) - c1.y) }

/-- `padd_core(p, a, (px, py), (qx, qy))`, for `p > 0` and canonical points (R130). The identity test is on the
coordinates only (R132). -/
def paddCore (p a : Int) (c1 c2 : Point) : PaddResult :=
  if c1.x = c2.x then
    if c1.y = c2.y then slopePoint p (cmod p (3 * c1.x * c1.x + a)) (cmod p (2 * c1.y)) c1 c2
    else .identity
  else slopePoint p (cmod p (c2.y - c1.y)) (cmod p (c2.x - c1.x)) c1 c2

/-- The completion of PADD for each outcome of `padd_core` (R131): on IDENTITY and on an error RX and RY are not
written. -/
def Ecmau.completePadd (s : Ecmau W) : PaddResult → Ecmau W
  | .sum c => ({ s with regs := { s.regs with rx := bitsW c.x, ry := bitsW c.y } } : Ecmau W).complete .ok
  | .identity => s.complete .identity
  | .noInverse => s.raise .noInverse

/-- The completion of PADD (R131): BAD_MODULUS, then NONCANON, then the group law. -/
def Ecmau.padd (s : Ecmau W) : Ecmau W :=
  if s.opP ≤ 0 then s.raise .badModulus
  else if !(canonical s.opP s.opPoint1 && canonical s.opP s.opPoint2) then s.raise .nonCanon
  else s.completePadd (paddCore s.opP s.opA s.opPoint1 s.opPoint2)

/-- PADD: `(RX, RY) <- P + Q` on the curve (P, A) (R131). -/
def execPadd (s : State) : Host.Outcome State Fault Refusal := .next s.unit.padd.pack

end Sys2Proof.Machine
end

