-- ==== Sys2Proof/Machine/Table.lean ====
section
/-! DEFINITION. The subgroup tables: the build loop and the commands TBUILD.t and TLOOKUP.t (42_table.md). -/

namespace Sys2Proof.Machine

variable {W : Nat}

/-- How a build ends: closed at the order with the entries 1·G, 2·G, …, or failed with an error code (R152). -/
inductive BuildEnd where
  | closed (order : Int) (entries : List Point)
  | failed (c : ResultCode)
  deriving DecidableEq, Repr

/-- What one pass of the build loop does (R152). -/
inductive BuildPass where
  | more (w : BuildWork)
  | ended (e : BuildEnd)
  deriving DecidableEq, Repr

/-- The working values before the first pass: `TAB_t[1] <- G`, `order <- 1`, `cur <- G` (R152, R153). -/
def startBuild (g : Point) : BuildWork := { cur := g, order := 1, entries := [g] }

/-- One pass of the build loop (R152), with the iteration cap and the storage bound of R154. -/
def buildPass (nTab : Nat) (p a : Int) (g : Point) (w : BuildWork) : BuildPass :=
  let order := w.order + 1
  if order > 2 * p + 1 then .ended (.failed .divergence)
  else
    match paddCore p a w.cur g with
    | .noInverse => .ended (.failed .noInverse)
    | .identity => .ended (.closed order w.entries)
    | .sum c =>
      if order > nTab then .ended (.failed .tableOverflow)
      else .more { cur := c, order := order, entries := w.entries ++ [c] }

/-- The build loop from the working values `w`, at most `fuel` passes (R152). -/
def buildLoop (nTab : Nat) (p a : Int) (g : Point) (fuel : Nat) (w : BuildWork) : BuildEnd :=
  match fuel with
  | 0 => .failed .tableOverflow
  | f + 1 =>
    match buildPass nTab p a g w with
    | .more w' => buildLoop nTab p a g f w'
    | .ended e => e

/-- The build loop run to its end. A pass that goes on raises `order`, and never above N_TAB, so
`N_TAB + 1 - order` passes and one more are enough (R154; log 14). -/
def finishBuild (nTab : Nat) (p a : Int) (g : Point) (w : BuildWork) : BuildEnd :=
  buildLoop nTab p a g ((nTab + 1 - w.order).toNat + 1) w

/-- `build(t, p, a, G)` of R152, as the value it ends with. -/
def build (nTab : Nat) (p a : Int) (g : Point) : BuildEnd := finishBuild nTab p a g (startBuild g)

/-- The working values of TBUILD that the state holds, or those its loop starts from (10_state.md R43). -/
def Ecmau.buildWork (s : Ecmau W) : BuildWork :=
  match s.work with
  | .idle => startBuild s.opPoint1
  | .minv _ => startBuild s.opPoint1
  | .build w => w

/-- The completion of TBUILD.t for each end of the build: on success table t, its registers and VALID_t (R152,
R155); on failure table t stays as issue left it (R156). -/
def Ecmau.completeBuild (s : Ecmau W) (t : TableSel) : BuildEnd → Ecmau W
  | .closed order entries =>
    (s.setTable t
      { valid := true, order := bitsW order, gx := bitsW s.opPoint1.x, gy := bitsW s.opPoint1.y,
        entries := entries.map Point.toEntry, epoch := (s.table t).epoch }).complete .ok
  | .failed c => s.raise c

/-- The completion of TBUILD.t (R150): BAD_MODULUS, then NONCANON, then the build. Its `invalidate(t)` is done at
issue (R151), by `Ecmau.issue`. -/
def Ecmau.tbuild (s : Ecmau W) (t : TableSel) : Ecmau W :=
  if s.opP ≤ 0 then s.raise .badModulus
  else if !canonical s.opP s.opPoint1 then s.raise .nonCanon
  else s.completeBuild t (finishBuild s.cfg.nTab s.opP s.opA s.opPoint1 s.buildWork)

/-- The completion of TLOOKUP.t (R160): TABLE_INVALID, then RANGE, then `(RX, RY) <- TAB_t[k]`. -/
def Ecmau.tlookup (s : Ecmau W) (t : TableSel) : Ecmau W :=
  if (s.table t).valid = false then s.raise .tableInvalid
  else if ¬(1 ≤ s.opK ∧ s.opK ≤ uval (s.table t).order - 1) then s.raise .range
  else
    let e := tableEntry t (s.table t) s.opK.toNat
    ({ s with regs := { s.regs with rx := e.1, ry := e.2 } } : Ecmau W).complete .ok

/-- TBUILD.A (R150). -/
def execTbuildA (s : State) : Host.Outcome State Fault Refusal := .next (s.unit.tbuild .A).pack

/-- TBUILD.B (R150). -/
def execTbuildB (s : State) : Host.Outcome State Fault Refusal := .next (s.unit.tbuild .B).pack

/-- TLOOKUP.A (R160). -/
def execTlookupA (s : State) : Host.Outcome State Fault Refusal := .next (s.unit.tlookup .A).pack

/-- TLOOKUP.B (R160). -/
def execTlookupB (s : State) : Host.Outcome State Fault Refusal := .next (s.unit.tlookup .B).pack

end Sys2Proof.Machine
end

