-- ==== Sys2Proof/Machine/Control.lean ====
section
/-! DEFINITION. NOP, the completion of an illegal command word, and the unit's turns on its hidden working values
(43_control.md, 10_state.md R43). -/

namespace Sys2Proof.Machine

variable {W : Nat}

/-- NOP: `complete(OK)` (43_control.md R184). -/
def execNop (s : State) : Host.Outcome State Fault Refusal := .next (s.unit.complete .ok).pack

/-- The completion of an illegal command word: "the only effect is `complete(ILLEGAL)`" (R182). -/
def Ecmau.completeIllegal (s : Ecmau W) : Ecmau W := s.raise .illegal

/-- One turn of MINV on its working values (10_state.md R43, 40_modular.md R103): the first holds the values the
loop starts from, each later one does one division step, until the remainder is 0 or 1. -/
def Ecmau.workMinv (s : Ecmau W) : Ecmau W :=
  if s.opN ≤ 0 then s
  else
    match s.work with
    | .idle => { s with work := .minv (startMinv s.opN s.opX) }
    | .build _ => { s with work := .minv (startMinv s.opN s.opX) }
    | .minv w => if w.r1 ≤ 1 then s else { s with work := .minv (minvPass w) }

/-- One turn of TBUILD on its working values (10_state.md R43, 42_table.md R152): the first holds the values the
loop starts from, each later one does one pass, until a pass ends the build. -/
def Ecmau.workBuild (s : Ecmau W) : Ecmau W :=
  if s.opP ≤ 0 then s
  else if !canonical s.opP s.opPoint1 then s
  else
    match s.work with
    | .idle => { s with work := .build (startBuild s.opPoint1) }
    | .minv _ => { s with work := .build (startBuild s.opPoint1) }
    | .build w =>
      match buildPass s.cfg.nTab s.opP s.opA s.opPoint1 w with
      | .more w' => { s with work := .build w' }
      | .ended _ => s

/-- One turn of the unit on the hidden working values of command `i` (10_state.md R43; log 7). Only MINV and TBUILD
have any. -/
def Ecmau.workOn (s : Ecmau W) : Instr → Ecmau W
  | .nop => s
  | .mod => s
  | .madd => s
  | .mmul => s
  | .minv => s.workMinv
  | .padd => s
  | .tbuildA => s.workBuild
  | .tbuildB => s.workBuild
  | .tlookupA => s
  | .tlookupB => s

/-- The command in flight, decoded: `INFLIGHT` of 43_control.md R181. None where no word is in flight. -/
def Ecmau.command (s : Ecmau W) : Option (Except Illegal Instr) := s.inflight.map decode

/-- One turn of the unit on the working values of the command in flight. It changes no register, no table and no
status bit: "A program observes the hidden state only through BUSY and through the result at completion" (R43). -/
def Ecmau.workTurn (s : Ecmau W) : Ecmau W :=
  match s.command with
  | none => s
  | some (.error _) => s
  | some (.ok i) => s.workOn i

end Sys2Proof.Machine
end

