-- ==== Sys2Proof/Machine/Bus.lean ====
section
/-! DEFINITION. The host's side: the platform bus binding (20_memory.md R62, R63, R66) and one host access or
hardware reset (R60, R68). -/

namespace Sys2Proof.Machine

variable {W : Nat}

/-- What a bus access reaches. -/
inductive BusTarget where
  /-- One whole register at its own offset. -/
  | reg (i : RegIndex)
  /-- Some of the window, but not one whole register at its own offset: a bus error (R63). -/
  | busError
  /-- No byte of the window (R61). -/
  | outside
  deriving DecidableEq, Repr

/-- What an access of `len` bytes at byte address `addr` reaches: register i lies at byte offset `registerBytes·i` from
UNIT_BASE, under the reference binding `8·i` (R63). -/
def busTarget (c : Config) (addr len : Nat) : BusTarget :=
  let n := c.bus.registerBytes
  if addr + len ≤ c.unitBase ∨ c.unitBase + n * 64 ≤ addr then .outside
  else if len = n ∧ c.unitBase ≤ addr ∧ (addr - c.unitBase) % n = 0 then .reg (Fin.ofNat 64 ((addr - c.unitBase) / n))
  else .busError

/-- The significance of the byte at byte offset `j` of a register, 0 the least (R62): the bus words in the order of the
binding, the bytes within a bus word the less significant first (log 4). -/
def byteRank (b : BusBinding) (j : Nat) : Nat :=
  match b.order with
  | .littleEndian => j
  | .bigEndian => (b.registerBytes / b.busWordBytes - 1 - j / b.busWordBytes) * b.busWordBytes + j % b.busWordBytes

/-- The number of bytes given least significant first. -/
def numberOfBytes (bytes : List Byte) : Nat := bytes.foldr (fun b n => b.toNat + 256 * n) 0

/-- The register value of the bytes of a bus access, given lowest address first (R62). What the bytes hold above W
bits is dropped (log 4). -/
def wordOfBytes (W : Nat) (b : BusBinding) (bytes : List Byte) : Word W :=
  BitVec.ofNat W (numberOfBytes ((List.range b.registerBytes).map fun k => bytes.getD (byteRank b k) 0))

/-- The bytes of a register value, lowest address first (R62). Above W bits they hold 0 (log 4). -/
def bytesOfWord (b : BusBinding) (v : Word W) : List Byte :=
  (List.range b.registerBytes).map fun j => v.extractLsb' (8 * byteRank b j) 8

/-- A `RegRead` gives the host a value and changes nothing else (R60, R65, 43_control.md R186). -/
def Ecmau.answerRead (s : Ecmau W) (i : RegIndex) : Ecmau W :=
  { s with answers := .word (s.regRead i) :: s.answers }

/-- A bus read of one whole register gives the host its bytes and changes nothing else (R62, R65). -/
def Ecmau.answerBusRead (s : Ecmau W) (i : RegIndex) : Ecmau W :=
  { s with answers := .bytes (bytesOfWord s.cfg.bus (s.regRead i)) :: s.answers }

/-- One access of the host, or a hardware reset, taken in full (R68). A bus access that is not one whole register at
its own offset is a fault of the host's access, "never … a partial write" (R63; log 5). -/
def hostEvent (e : Event W) (s : Ecmau W) : Host.Outcome (Ecmau W) Fault Refusal :=
  match e with
  | .regRead i => .next (s.answerRead i)
  | .regWrite i v => .next (s.regWrite i v)
  | .busRead addr len =>
    match busTarget s.cfg addr len with
    | .reg i => .next (s.answerBusRead i)
    | .busError => .fault .busError
    | .outside => .refused .outsideWindow
  | .busWrite addr bytes =>
    match busTarget s.cfg addr bytes.length with
    | .reg i => .next (s.regWrite i (wordOfBytes W s.cfg.bus bytes))
    | .busError => .fault .busError
    | .outside => .refused .outsideWindow
  | .hardReset => .next s.hardReset

/-- The host's turn: its next access in program order (R68), or nothing where it makes none. -/
def hostTurn (s : Ecmau W) : Host.Outcome (Ecmau W) Fault Refusal :=
  match s.events with
  | [] => .next s
  | e :: rest => hostEvent e { s with events := rest }

end Sys2Proof.Machine
end

