-- ==== Sys2Proof/Machine/Dispatch.lean ====
section
/-! DEFINITION. One arm per command: the completion step of the unit agent for a command in flight
(43_control.md R183, R186). -/

namespace Sys2Proof.Machine

def exec (i : Instr) (s : State) : Host.Outcome State Fault Refusal :=
  match i with
  | .nop => Sys2Proof.Machine.execNop s
  | .mod => Sys2Proof.Machine.execMod s
  | .madd => Sys2Proof.Machine.execMadd s
  | .mmul => Sys2Proof.Machine.execMmul s
  | .minv => Sys2Proof.Machine.execMinv s
  | .padd => Sys2Proof.Machine.execPadd s
  | .tbuildA => Sys2Proof.Machine.execTbuildA s
  | .tbuildB => Sys2Proof.Machine.execTbuildB s
  | .tlookupA => Sys2Proof.Machine.execTlookupA s
  | .tlookupB => Sys2Proof.Machine.execTlookupB s

end Sys2Proof.Machine
end

