-- ==== Sys2Proof/Machine/Step.lean ====
section
/-! DEFINITION. One step of the two agents (43_control.md R186) and the way a command is put in flight for a test. -/

namespace Sys2Proof.Machine

/-- The outcome for the machine of an outcome for its ECMAU. -/
def packOutcome {W : Nat} : Host.Outcome (Ecmau W) Fault Refusal → Host.Outcome State Fault Refusal
  | .next u => .next u.pack
  | .fault r => .fault r
  | .refused r => .refused r

/-- The unit's completion step: "enabled exactly when INFLIGHT is not none" (R183). A legal word completes by its
command's meaning, an illegal one with ILLEGAL (R182). Where nothing is in flight it changes nothing. -/
def unitTurn (s : State) : Host.Outcome State Fault Refusal :=
  match s.unit.command with
  | none => .next s
  | some (.ok i) => exec i s
  | some (.error _) => .next s.unit.completeIllegal.pack

/-- The ECMAU with the rest of its schedule. -/
def Ecmau.withTurns {W : Nat} (u : Ecmau W) (rest : List Turn) : Ecmau W := { u with turns := rest }

/-- One step (R186): the agent that `turns` names acts. Used up, the unit completes the command in flight, so that
every completion comes after a finite delay (R183, R243); with none in flight the host acts (log 6). -/
def step (s : State) : Host.Outcome State Fault Refusal :=
  match s.unit.turns with
  | .host :: rest => packOutcome (hostTurn (s.unit.withTurns rest))
  | .work :: rest => .next (s.unit.withTurns rest).workTurn.pack
  | .complete :: rest => unitTurn (s.unit.withTurns rest).pack
  | [] => if s.unit.inflight.isSome then unitTurn s else packOutcome (hostTurn s.unit)

/-- `s` with the command word `w` (of `nbits` bits, every bit above 0) just issued, and the unit to act next: the
very next step runs that command. What stands for a host write to CMD (R181; log 10). -/
def State.withFetchWord (s : State) (nbits w : Nat) : State :=
  ((s.unit.issue (BitVec.ofNat s.width (w % 2 ^ nbits))).withTurns []).pack

end Sys2Proof.Machine
end

