-- ==== Sys2Proof/Machine/HostProgram.lean ====
section
/-! DEFINITION. The host's assembly notation (30_encoding.md R95), its pseudo-instructions (R96) and the bus listing
of a program (R97). A host program belongs to the host, not to the ECMAU (R95, 60_exceptions.md R208): it has a state
of its own, `HostCpu`, and reaches the unit through `regRead` and `regWrite` alone. -/

namespace Sys2Proof.Machine

variable {W : Nat}

/-- An expression: integer literals, host variables, `+` and `-` (R95). Variables are numbered (log 16). -/
inductive HostExpr where
  | lit (z : Int)
  | var (v : Nat)
  | add (e f : HostExpr)
  | sub (e f : HostExpr)
  deriving DecidableEq, Repr

/-- The statements of R95. Labels are numbered (log 16). -/
inductive HostStmt where
  /-- `WR <reg>, <expr>` -/
  | wr (reg : RegIndex) (e : HostExpr)
  /-- `WR <reg>, -<var>` of the expansion of MSUB, which "is defined only when `sval(reg[Y]) != -2^(W-1)`" (R96): at
  that value the host program stops. -/
  | wrNeg (reg : RegIndex) (v : Nat)
  /-- `RD <var>, <reg>` -/
  | rd (v : Nat) (reg : RegIndex)
  /-- `RDS <var>, <reg>` -/
  | rds (v : Nat) (reg : RegIndex)
  /-- `CMD <number>`; `CMD <mnemonic>` is `cmd` of the mnemonic's word. -/
  | cmd (word : Int)
  /-- `WAIT` -/
  | wait
  /-- `CODE <var>` -/
  | code (v : Nat)
  /-- `BEQ <var>, <expr>, <label>` -/
  | beq (v : Nat) (e : HostExpr) (target : Nat)
  /-- `BNE <var>, <expr>, <label>` -/
  | bne (v : Nat) (e : HostExpr) (target : Nat)
  /-- `BLT <var>, <expr>, <label>` -/
  | blt (v : Nat) (e : HostExpr) (target : Nat)
  /-- `BGT <var>, <expr>, <label>` -/
  | bgt (v : Nat) (e : HostExpr) (target : Nat)
  /-- `JMP <label>` -/
  | jmp (target : Nat)
  /-- `<label>:` -/
  | label (l : Nat)
  /-- `SET <var>, <expr>` -/
  | set (v : Nat) (e : HostExpr)
  /-- `HALT <tag>` -/
  | halt (tag : String)
  deriving DecidableEq, Repr

/-- A line of a program: a statement or a pseudo-instruction of R96 with the host variable `t` it overwrites. -/
inductive HostLine where
  | stmt (st : HostStmt)
  | run (word : Int)
  | pdbl (t : Nat)
  | msub (t : Nat)
  | msqr (t : Nat)
  deriving DecidableEq, Repr

/-- `CMD <mnemonic>`: the statement that writes the command's word (R82, R95). The number is the same at every width
(R82: "zero-extended to W bits"). -/
def commandStmt (i : Instr) : HostStmt := .cmd (encode Config.referenceW i).toNat

/-- The expansions of R96. -/
def expandLine : HostLine → List HostStmt
  | .stmt st => [st]
  | .run word => [.cmd word, .wait]
  | .pdbl t =>
    [.rd t (regIndex .px), .wr (regIndex .qx) (.var t), .rd t (regIndex .py), .wr (regIndex .qy) (.var t),
     commandStmt .padd]
  | .msub t => [.rds t (regIndex .y), .wrNeg (regIndex .y) t, commandStmt .madd]
  | .msqr t => [.rd t (regIndex .x), .wr (regIndex .y) (.var t), commandStmt .mmul]

/-- A program with its pseudo-instructions expanded. -/
def expandProgram (lines : List HostLine) : List HostStmt := lines.flatMap expandLine

/-- Why a host program cannot go on. The notation gives these no meaning (log 16). Safe: the program stops. -/
inductive HostError where
  /-- A variable is read that no statement has set. -/
  | undefinedVariable (v : Nat)
  /-- The expression of a WR or the number of a CMD lies outside `[-2^(W-1), 2^W)` (R95). -/
  | exprRange (z : Int)
  /-- MSUB is used where Y holds `-2^(W-1)`: "the expansion must not be used" (R96). -/
  | msubUndefined
  /-- A branch names a label the program does not have. -/
  | noLabel (l : Nat)
  /-- The program has no statement here. -/
  | endOfProgram
  deriving DecidableEq, Repr

/-- The host running a program: the statements, the position, the variables ("unbounded integers", R95), the bus
transactions so far, newest first (R97), and the tag it halted with. -/
structure HostCpu (W : Nat) where
  prog  : List HostStmt
  pc    : Nat
  vars  : List (Nat × Int)
  trace : List (Event W)
  tag   : Option String
  deriving DecidableEq, Repr

/-- A host at the start of a program. -/
def startHost (W : Nat) (lines : List HostLine) : HostCpu W :=
  { prog := expandProgram lines, pc := 0, vars := [], trace := [], tag := none }

/-- The value of an expression (R95). -/
def evalExpr (vars : List (Nat × Int)) : HostExpr → Except HostError Int
  | .lit z => .ok z
  | .var v =>
    match vars.lookup v with
    | some z => .ok z
    | none => .error (.undefinedVariable v)
  | .add e f =>
    match evalExpr vars e, evalExpr vars f with
    | .ok y, .ok z => .ok (y + z)
    | .error r, _ => .error r
    | .ok _, .error r => .error r
  | .sub e f =>
    match evalExpr vars e, evalExpr vars f with
    | .ok y, .ok z => .ok (y - z)
    | .error r, _ => .error r
    | .ok _, .error r => .error r

/-- The host with variable `v` set. -/
def HostCpu.setVar (h : HostCpu W) (v : Nat) (z : Int) : HostCpu W :=
  { h with vars := (v, z) :: h.vars.filter fun b => b.1 != v }

/-- The host at the next statement. -/
def HostCpu.next (h : HostCpu W) : HostCpu W := { h with pc := h.pc + 1 }

/-- The host having made a bus transaction (R97). -/
def HostCpu.note (h : HostCpu W) (e : Event W) : HostCpu W := { h with trace := e :: h.trace }

/-- Where a label stands. -/
def HostCpu.jump (h : HostCpu W) (l : Nat) : Except HostError (HostCpu W) :=
  match h.prog.findIdx? (· == .label l) with
  | some at' => .ok { h with pc := at' }
  | none => .error (.noLabel l)

/-- A conditional branch on an integer compare (R95). -/
def HostCpu.branch (h : HostCpu W) (v : Nat) (e : HostExpr) (l : Nat) (test : Int → Int → Bool) :
    Except HostError (HostCpu W) :=
  match evalExpr h.vars (.var v), evalExpr h.vars e with
  | .ok y, .ok z => if test y z then h.jump l else .ok h.next
  | .error r, _ => .error r
  | .ok _, .error r => .error r

/-- A host write of the integer z: `RegWrite(i, bits_W(z))`, for z in `[-2^(W-1), 2^W)` (R95). -/
def hostWrite (h : HostCpu W) (s : Ecmau W) (i : RegIndex) (z : Int) : Except HostError (HostCpu W × Ecmau W) :=
  if -(2 ^ (W - 1)) ≤ z ∧ z < 2 ^ W then
    .ok ((h.note (.regWrite i (bitsW z))).next, s.regWrite i (bitsW z))
  else .error (.exprRange z)

/-- A host read into variable v, through `f`. -/
def hostRead (h : HostCpu W) (s : Ecmau W) (i : RegIndex) (v : Nat) (f : Word W → Int) : HostCpu W :=
  ((h.note (.regRead i)).setVar v (f (s.regRead i))).next

/-- One statement of the host program (R95): it makes at most one access of the unit. -/
def hostStatement (h : HostCpu W) (s : Ecmau W) : Except HostError (HostCpu W × Ecmau W) :=
  match h.tag with
  | some _ => .ok (h, s)
  | none =>
    match h.prog[h.pc]? with
    | none => .error .endOfProgram
    | some st =>
      match st with
      | .wr i e =>
        match evalExpr h.vars e with
        | .ok z => hostWrite h s i z
        | .error r => .error r
      | .wrNeg i v =>
        match evalExpr h.vars (.var v) with
        | .ok z => if z = -(2 ^ (W - 1)) then .error .msubUndefined else hostWrite h s i (-z)
        | .error r => .error r
      | .rd v i => .ok (hostRead h s i v uval, s)
      | .rds v i => .ok (hostRead h s i v sval, s)
      | .cmd word => hostWrite h s (regIndex .cmd) word
      | .wait =>
        let h' := h.note (.regRead (regIndex .status))
        .ok (if (s.regRead (regIndex .status)).getLsbD 0 then h' else h'.next, s)
      | .code v => .ok (hostRead h s (regIndex .status) v fun w => (w.extractLsb' 8 4).toNat, s)
      | .beq v e l => (h.branch v e l fun y z => y == z).map fun h' => (h', s)
      | .bne v e l => (h.branch v e l fun y z => y != z).map fun h' => (h', s)
      | .blt v e l => (h.branch v e l fun y z => decide (y < z)).map fun h' => (h', s)
      | .bgt v e l => (h.branch v e l fun y z => decide (z < y)).map fun h' => (h', s)
      | .jmp l => (h.jump l).map fun h' => (h', s)
      | .label _ => .ok (h.next, s)
      | .set v e =>
        match evalExpr h.vars e with
        | .ok z => .ok ((h.setVar v z).next, s)
        | .error r => .error r
      | .halt tag => .ok ({ h with tag := some tag }, s)

end Sys2Proof.Machine
end

