-- ==== Sys2Proof/Safety.lean ====
section
/-! DEFINITION. The terms the claims use: what a step does, what a completion leaves, the multiples of a generator,
and the invariant that every step keeps. -/

namespace Sys2Proof.Machine

variable {W : Nat}

/-! ### What a step does -/

/-- The host, not the unit, acts in the next step (43_control.md R186; log 6). -/
def Ecmau.hostActs (s : Ecmau W) : Bool :=
  match s.turns with
  | .host :: _ => true
  | .work :: _ => false
  | .complete :: _ => false
  | [] => s.inflight.isNone

/-- The next step is the completion step of the command in flight (R183, R186). -/
def Ecmau.unitCompletes (s : Ecmau W) : Bool :=
  match s.turns with
  | .host :: _ => false
  | .work :: _ => false
  | .complete :: _ => s.inflight.isSome
  | [] => s.inflight.isSome

/-- The host access or hardware reset that the next step performs. -/
def Ecmau.actingEvent (s : Ecmau W) : Option (Event W) := if s.hostActs then s.events.head? else none

/-- The `RegWrite` that an event is, if it is one (20_memory.md R60, R63). -/
def registerWrite (c : Config) : Event W → Option (RegIndex × Word W)
  | .regRead _ => none
  | .regWrite i v => some (i, v)
  | .busRead _ _ => none
  | .busWrite addr bytes =>
    match busTarget c addr bytes.length with
    | .reg i => some (i, wordOfBytes W c.bus bytes)
    | .busError => none
    | .outside => none
  | .hardReset => none

/-- The `RegWrite` that the next step performs. -/
def Ecmau.actingWrite (s : Ecmau W) : Option (RegIndex × Word W) := s.actingEvent.bind (registerWrite s.cfg)

/-- The next step is a reset: a hardware reset, or a write to CTRL (index 0x03) with bit 1 set (R230, R231). -/
def Ecmau.resets (s : Ecmau W) : Prop :=
  s.actingEvent = some .hardReset ∨ ∃ v : Word W, s.actingWrite = some (0x03, v) ∧ v.getLsbD 1 = true

/-- The next step is a write to P, A or B (index 0x10, 0x11, 0x12) that is stored, for BUSY = 0 (10_state.md R42). -/
def Ecmau.writesCurve (s : Ecmau W) : Prop :=
  s.busy = false ∧ ∃ (i : RegIndex) (v : Word W), s.actingWrite = some (i, v) ∧ (i = 0x10 ∨ i = 0x11 ∨ i = 0x12)

/-- The next step issues the command word `v`: a write to CMD (index 0x05) for BUSY = 0 (R37). -/
def Ecmau.issues (s : Ecmau W) (v : Word W) : Prop := s.busy = false ∧ s.actingWrite = some (0x05, v)

/-- Everything the host can read or see of the unit: the 64 registers of the window and the interrupt line. -/
def SameView (s t : Ecmau W) : Prop := (∀ i : RegIndex, s.regRead i = t.regRead i) ∧ s.irq = t.irq

/-! ### What a completion leaves -/

/-- `t` is `s` after a completion with code `c` (43_control.md R183) that leaves the data registers and the tables as
given. Every field of the state is said: this is the frame of a command. -/
structure Completes (s t : Ecmau W) (c : ResultCode) (regs : DataRegs W) (tabA tabB : Table W) : Prop where
  code : t.code = c
  err : t.err = (s.err || decide (2 ≤ c.toBits.toNat))
  busy : t.busy = false
  done : t.done = true
  inflight : t.inflight = none
  work : t.work = .idle
  regs : t.regs = regs
  tabA : t.tabA = tabA
  tabB : t.tabB = tabB
  ie : t.ie = s.ie
  werr : t.werr = s.werr
  cfg : t.cfg = s.cfg
  events : t.events = s.events
  answers : t.answers = s.answers
  turns : t.turns = s.turns

/-- A completion that writes no data register and no table: what every error code and IDENTITY leave
(60_exceptions.md R201). -/
def CompletesBare (s t : Ecmau W) (c : ResultCode) : Prop := Completes s t c s.regs s.tabA s.tabB

/-- TBUILD of table t. -/
def tbuildOf : TableSel → Instr
  | .A => .tbuildA
  | .B => .tbuildB

/-- TLOOKUP in table t. -/
def tlookupOf : TableSel → Instr
  | .A => .tlookupA
  | .B => .tlookupB

/-- The other table. -/
def otherTable : TableSel → TableSel
  | .A => .B
  | .B => .A

/-! ### Multiples of a generator -/

/-- `k·G` as the build loop forms it, by adding G again and again (42_table.md R152, R155): none where an addition on
the way gives no sum. -/
def multiple (p a : Int) (g : Point) : Nat → Option Point
  | 0 => none
  | 1 => some g
  | k + 2 =>
    match multiple p a g (k + 1) with
    | none => none
    | some c =>
      match paddCore p a c g with
      | .sum c' => some c'
      | .identity => none
      | .noInverse => none

/-! ### The invariant -/

/-- What holds of table t: while VALID_t = 0 its registers read 0 and nothing of it is listed (10_state.md R41), and
while VALID_t = 1 the invariant of R47, with the P and A of the build still in the registers. The last two fields add
that the generator is canonical and that the last entry plus the generator is the identity (42_table.md R152). -/
structure TableOk (s : Ecmau W) (t : TableSel) : Prop where
  invalid : (s.table t).valid = false →
    (s.table t).order = 0 ∧ (s.table t).gx = 0 ∧ (s.table t).gy = 0 ∧ (s.table t).entries = []
  bounds : (s.table t).valid = true →
    2 ≤ uval (s.table t).order ∧ uval (s.table t).order ≤ s.cfg.nTab + 1
  listed : (s.table t).valid = true → (s.table t).entries.length + 1 = (s.table t).order.toNat
  first : (s.table t).valid = true → ((s.table t).gx, (s.table t).gy) = tableEntry t (s.table t) 1
  chain : (s.table t).valid = true → ∀ k : Nat, 2 ≤ k → (k : Int) ≤ uval (s.table t).order - 1 →
    paddCore s.opP s.opA (entryPoint (tableEntry t (s.table t) (k - 1))) (entryPoint (tableEntry t (s.table t) 1))
      = .sum (entryPoint (tableEntry t (s.table t) k))
  generator : (s.table t).valid = true →
    0 < s.opP ∧ canonical s.opP (entryPoint ((s.table t).gx, (s.table t).gy)) = true
  closed : (s.table t).valid = true →
    paddCore s.opP s.opA (entryPoint (tableEntry t (s.table t) ((s.table t).order.toNat - 1)))
      (entryPoint (tableEntry t (s.table t) 1)) = .identity

/-- What holds of the working values of MINV between two passes (40_modular.md R104): "`r0 ≡ t0·x` and
`r1 ≡ t1·x (mod n)`", the remainders decrease, and their gcd is that of n and x. A pass is made only on r1 >= 2, so
r0 is n (no pass yet) or at least 2. -/
structure MinvWorkOk (n x : Int) (w : MinvWork) : Prop where
  nonneg : 0 ≤ w.r1
  below : w.r1 < w.r0
  bounded : w.r0 ≤ n
  live : w.r0 = n ∨ 2 ≤ w.r0
  bezout0 : (w.t0 * x) % n = w.r0 % n
  bezout1 : (w.t1 * x) % n = w.r1 % n
  gcd : Int.gcd w.r0 w.r1 = Int.gcd n x

/-- What holds of the working values of TBUILD between two passes (42_table.md R152): `order` entries are computed,
the k-th is k·G, and `cur` is the last. -/
structure BuildWorkOk (nTab : Nat) (p a : Int) (g : Point) (w : BuildWork) : Prop where
  positive : 1 ≤ w.order
  fits : w.order ≤ nTab
  capped : w.order ≤ 2 * p + 1
  listed : (w.entries.length : Int) = w.order
  multiples : ∀ k : Nat, 1 ≤ k → k ≤ w.entries.length → w.entries[k - 1]? = multiple p a g k
  running : multiple p a g w.order.toNat = some w.cur

/-- What holds of the working values in the state (10_state.md R43): they belong to the command in flight, they are
held only where its checks passed, and they are those of its loop between two passes. -/
def WorkOk (s : Ecmau W) : Prop :=
  match s.work with
  | .idle => True
  | .minv w => s.command = some (.ok .minv) ∧ 0 < s.opN ∧ MinvWorkOk s.opN s.opX w
  | .build w =>
    (∃ t, s.command = some (.ok (tbuildOf t))) ∧ 0 < s.opP ∧ canonical s.opP s.opPoint1 = true ∧
      BuildWorkOk s.cfg.nTab s.opP s.opA s.opPoint1 w

/-- The invariant of the ECMAU. -/
structure Inv (s : Ecmau W) : Prop where
  /-- The parameters are within their constraints (00_scope.md R9, 20_memory.md R66). -/
  params : s.cfg.wellFormed W = true
  /-- INFLIGHT "is none exactly when `BUSY = 0`" (10_state.md R43). -/
  busy : s.busy = s.inflight.isSome
  /-- DONE is 0 from issue to completion (R31). -/
  done : s.busy = true → s.done = false
  /-- Both tables are as R41 and R47 say. -/
  tables : ∀ t, TableOk s t
  /-- While TBUILD.t is in flight, table t is not valid (42_table.md R151). -/
  building : ∀ t, s.command = some (.ok (tbuildOf t)) → (s.table t).valid = false
  /-- The working values are those of the command in flight. -/
  work : WorkOk s

/-- The states the machine can start in: right after reset, at any width and any parameters within their constraints,
with any accesses of the host to come, and any schedule. -/
def State.starts (s : State) : Prop :=
  ∃ (W : Nat) (c : Config) (es : List (Event W)) (ts : List Turn), c.wellFormed W = true ∧
    s = ({ Ecmau.reset W c with events := es, turns := ts } : Ecmau W).pack

/-- The states that a run reaches. -/
inductive Reachable : State → Prop where
  | start (s : State) (h : s.starts) : Reachable s
  | step (s t : State) (h : Reachable s) (hst : Sys2Proof.Machine.step s = .next t) : Reachable t

end Sys2Proof.Machine
end

