-- ==== Sys2Proof/Certificates/Slice0/Obligations.lean ====
section
/-! DEFINITION. The statements about the model, for the provers. A register's operand is read with `BitVec.toInt`
(two's complement) and its result with `BitVec.toNat`, and residues are Lean's `%` on integers, so that the
statements do not rest on the model's own `sval`, `bitsW` and `cmod`. W is the width of the ECMAU: the statements hold
at every W, or at every W that 00_scope.md R8 allows, and with every other parameter. -/

open Sys2Proof Sys2Proof.Machine

/-! ### Decoding -/

/-- The ten words of the opcode map decode to their commands, at every width (30_encoding.md §2). -/
def Obligations.TableWordsDecode : Prop :=
  ∀ W : Nat, 32 ≤ W →
    decode (0x0000 : Word W) = .ok .nop ∧ decode (0x0001 : Word W) = .ok .mod ∧ decode (0x0002 : Word W) = .ok .madd ∧
    decode (0x0003 : Word W) = .ok .mmul ∧ decode (0x0004 : Word W) = .ok .minv ∧ decode (0x0010 : Word W) = .ok .padd ∧
    decode (0x0020 : Word W) = .ok .tbuildA ∧ decode (0x0120 : Word W) = .ok .tbuildB ∧
    decode (0x0021 : Word W) = .ok .tlookupA ∧ decode (0x0121 : Word W) = .ok .tlookupB

/-- R82: "A word decodes to exactly one row of this table, or it is illegal". The row is the one whose word it is. -/
def Obligations.DecodeAcceptsExactlyTheTable : Prop :=
  ∀ W : Nat, 32 ≤ W →
    (encode W .nop = 0x0 ∧ encode W .mod = 0x1 ∧ encode W .madd = 0x2 ∧ encode W .mmul = 0x3 ∧ encode W .minv = 0x4 ∧
      encode W .padd = 0x10 ∧ encode W .tbuildA = 0x20 ∧ encode W .tbuildB = 0x120 ∧ encode W .tlookupA = 0x21 ∧
      encode W .tlookupB = 0x121) ∧
    ∀ v : Word W,
      ((∃ i, v = encode W i ∧ decode v = .ok i ∧ ∀ j, v = encode W j → j = i) ∨
        ((∀ i, v ≠ encode W i) ∧ ∃ e, decode v = .error e)) ∧
      ((∃ i, v = encode W i) ↔
        v.toNat ∈ [0x0, 0x1, 0x2, 0x3, 0x4, 0x10, 0x20, 0x120, 0x21, 0x121])

/-- R84: a word with any reserved bit set is illegal, whatever its OP and T. -/
def Obligations.ReservedBitsMakeIllegal : Prop :=
  ∀ (W : Nat) (v : Word W) (k : Nat), 9 ≤ k → v.getLsbD k = true → ∃ e, decode v = .error e

/-- R85: the three conditions, and what an illegal word does when it is issued and completes. -/
def Obligations.IllegalWordsComplete : Prop :=
  (∀ (W : Nat) (v : Word W), (∃ e, decode v = .error e) ↔
    (v.toNat / 2 ^ 9 ≠ 0 ∨ v.toNat % 256 ∉ [0x00, 0x01, 0x02, 0x03, 0x04, 0x10, 0x20, 0x21] ∨
      (v.getLsbD 8 = true ∧ v.toNat % 256 ∉ [0x20, 0x21]))) ∧
  (∀ (W : Nat) (s : Ecmau W) (v : Word W) (e : Illegal), decode v = .error e → s.busy = false →
    s.regWrite 0x05 v = { s with inflight := some v, busy := true, done := false, work := .idle } ∧
    ∃ u : Ecmau W, unitTurn (s.regWrite 0x05 v).pack = .next u.pack ∧
      CompletesBare (s.regWrite 0x05 v) u .illegal ∧
      u.code.toBits = 9 ∧ u.err = true ∧ ∀ i : RegIndex, i ≠ 0x04 → u.regRead i = s.regRead i)

/-! ### The register window -/

/-- R22: an unmapped index reads 0, and a write to it stores nothing and sets WERR. -/
def Obligations.UnmappedIndices : Prop :=
  ∀ (W : Nat) (s : Ecmau W) (i : RegIndex) (v : Word W),
    (i.val ∈ [0x06, 0x07, 0x0C, 0x0D, 0x0E, 0x0F, 0x13, 0x1B, 0x1C, 0x1D, 0x1E, 0x1F, 0x23] ∨ 0x27 ≤ i.val) →
    s.regRead i = 0 ∧ s.regWrite i v = { s with werr := true }

/-- R8, R23, R24, R25: the constants ID (with its fields), WIDTH, which reads the width parameter, and TABDEPTH. -/
def Obligations.ConstantRegisters : Prop :=
  ∀ (W : Nat) (s : Ecmau W), 32 ≤ W →
    (s.regRead 0x00).toNat = 0x45430100 ∧ (s.regRead 0x00).extractLsb' 16 16 = 0x4543 ∧
    (s.regRead 0x00).extractLsb' 8 8 = 0x01 ∧ (s.regRead 0x00).extractLsb' 0 8 = 0x00 ∧
    (s.regRead 0x00).extractLsb' 32 (W - 32) = 0 ∧
    (s.regRead 0x01).toNat = W ∧ (s.cfg.nTab < 2 ^ (W - 1) → (s.regRead 0x02).toNat = s.cfg.nTab)

/-- The map of 10_state.md R20: each mapped index but STATUS reads its own register (STATUS: StatusBits). -/
def Obligations.WindowReadsItsRegisters : Prop :=
  ∀ (W : Nat) (s : Ecmau W),
    s.regRead 0x00 = 0x45430100 ∧ s.regRead 0x01 = BitVec.ofNat W W ∧ s.regRead 0x02 = BitVec.ofNat W s.cfg.nTab ∧
    s.regRead 0x03 = (if s.ie then 1 else 0) ∧ s.regRead 0x05 = 0 ∧
    s.regRead 0x08 = s.regs.n ∧ s.regRead 0x09 = s.regs.x ∧ s.regRead 0x0A = s.regs.y ∧ s.regRead 0x0B = s.regs.r ∧
    s.regRead 0x10 = s.regs.p ∧ s.regRead 0x11 = s.regs.a ∧ s.regRead 0x12 = s.regs.b ∧
    s.regRead 0x14 = s.regs.px ∧ s.regRead 0x15 = s.regs.py ∧ s.regRead 0x16 = s.regs.qx ∧
    s.regRead 0x17 = s.regs.qy ∧ s.regRead 0x18 = s.regs.rx ∧ s.regRead 0x19 = s.regs.ry ∧ s.regRead 0x1A = s.regs.k ∧
    s.regRead 0x20 = s.tabA.order ∧ s.regRead 0x21 = s.tabA.gx ∧ s.regRead 0x22 = s.tabA.gy ∧
    s.regRead 0x24 = s.tabB.order ∧ s.regRead 0x25 = s.tabB.gx ∧ s.regRead 0x26 = s.tabB.gy

/-- R29, R35 and the numbers of 60_exceptions.md R200: each bit of STATUS, the reserved ones among them, and the ten
values of CODE. -/
def Obligations.StatusBits : Prop :=
  ∀ (W : Nat) (s : Ecmau W), 32 ≤ W →
    (s.regRead 0x04).getLsbD 0 = s.busy ∧ (s.regRead 0x04).getLsbD 1 = s.done ∧
    (s.regRead 0x04).getLsbD 2 = s.err ∧ (s.regRead 0x04).getLsbD 3 = s.werr ∧
    (s.regRead 0x04).toNat / 2 ^ 8 % 2 ^ 4 =
      (match s.code with
        | .ok => 0
        | .identity => 1
        | .noInverse => 2
        | .range => 3
        | .divergence => 4
        | .tableOverflow => 5
        | .tableInvalid => 6
        | .badModulus => 7
        | .nonCanon => 8
        | .illegal => 9) ∧
    s.code.toBits.toNat = (s.regRead 0x04).toNat / 2 ^ 8 % 2 ^ 4 ∧
    (s.regRead 0x04).getLsbD 12 = s.tabA.valid ∧ (s.regRead 0x04).getLsbD 13 = s.tabB.valid ∧
    (∀ k, (4 ≤ k ∧ k < 8) ∨ 14 ≤ k → (s.regRead 0x04).getLsbD k = false)

/-- Reads have no side effect and are idempotent (20_memory.md R65, 43_control.md R186): a read, by `RegRead` or over
the bus, gives the host a value and leaves the unit as it was. A write, by `RegWrite` (20_memory.md R60), has the write
effect of its register and no other. Where a bus read reaches register i under the reference binding is the spec's
(20_memory.md R62, R63); that under every other BUS_BINDING (R66) a bus read of `registerBytes` bytes at
`UNIT_BASE + registerBytes·i` reaches it, and how its bytes make a word, is the model's choice (log 4). -/
def Obligations.ReadsHaveNoSideEffect : Prop :=
  (∀ (W : Nat) (s : Ecmau W) (i : RegIndex),
    ∃ t : Ecmau W, hostEvent (.regRead i) s = .next t ∧
      t = { s with answers := .word (s.regRead i) :: s.answers } ∧
      SameView s t ∧ ∀ j, t.regRead j = s.regRead j) ∧
  (∀ (W : Nat) (s : Ecmau W) (i : RegIndex) (v : Word W), hostEvent (.regWrite i v) s = .next (s.regWrite i v)) ∧
  (∀ (W : Nat) (s : Ecmau W) (i : RegIndex), s.cfg.wellFormed W = true →
    ∃ (t : Ecmau W) (bs : List Byte),
      hostEvent (.busRead (s.cfg.unitBase + s.cfg.bus.registerBytes * i.val) s.cfg.bus.registerBytes) s = .next t ∧
      t = { s with answers := .bytes bs :: s.answers } ∧ wordOfBytes W s.cfg.bus bs = s.regRead i ∧ SameView s t)

/-- R33: WERR is set by every host write that stores nothing and by nothing else, and cleared by a STATUS write with
bit 3 set and by reset alone. -/
def Obligations.WerrRecordsDroppedWrites : Prop :=
  (∀ (W : Nat) (s : Ecmau W) (i : RegIndex) (v : Word W),
    (s.regWrite i v).werr =
      if i.val = 0x04 then s.werr && !v.getLsbD 3
      else if i.val = 0x03 then s.werr && !v.getLsbD 1
      else if i.val ∈ [0x05, 0x08, 0x09, 0x0A, 0x10, 0x11, 0x12, 0x14, 0x15, 0x16, 0x17, 0x1A] then s.werr || s.busy
      else true) ∧
  (∀ (W : Nat) (s t : Ecmau W), step s.pack = .next t.pack → s.actingWrite = none → ¬s.resets → t.werr = s.werr)

/-- Writes to the read-only registers and, while BUSY = 1, to CMD and the data registers store nothing: the state
changes in WERR alone (10_state.md R21, R44). -/
def Obligations.DroppedWritesStoreNothing : Prop :=
  ∀ (W : Nat) (s : Ecmau W) (i : RegIndex) (v : Word W),
    (i.val ∈ [0x00, 0x01, 0x02, 0x0B, 0x18, 0x19, 0x20, 0x21, 0x22, 0x24, 0x25, 0x26] ∨
      (s.busy = true ∧ i.val ∈ [0x05, 0x08, 0x09, 0x0A, 0x10, 0x11, 0x12, 0x14, 0x15, 0x16, 0x17, 0x1A])) →
    s.regWrite i v = { s with werr := true }

/-- R26, R27, R28: a write to CTRL sets IE and nothing else, or performs the soft reset, busy or not. -/
def Obligations.CtrlWrites : Prop :=
  ∀ (W : Nat) (s : Ecmau W) (v : Word W),
    (v.getLsbD 1 = false → s.regWrite 0x03 v = { s with ie := v.getLsbD 0 }) ∧
    (v.getLsbD 1 = true → s.regWrite 0x03 v = s.softReset ∧ (s.regWrite 0x03 v).regRead 0x03 = 0) ∧
    (∀ k, k ≠ 0 → (s.regRead 0x03).getLsbD k = false)

/-- R36: a write to STATUS clears DONE, ERR and WERR where bit 1, 2, 3 is 1, ignores every other bit, takes effect
busy or not, and never sets WERR. -/
def Obligations.StatusWritesClear : Prop :=
  ∀ (W : Nat) (s : Ecmau W) (v : Word W),
    s.regWrite 0x04 v =
      { s with
        done := if v.getLsbD 1 then false else s.done
        err := if v.getLsbD 2 then false else s.err
        werr := if v.getLsbD 3 then false else s.werr }

/-- A data register keeps what the idle unit stores in it, and the other data registers keep their values
(10_state.md R21, R45). -/
def Obligations.DataRegistersReadBack : Prop :=
  ∀ (W : Nat) (s : Ecmau W) (i : RegIndex) (v : Word W), s.busy = false →
    i.val ∈ [0x08, 0x09, 0x0A, 0x10, 0x11, 0x12, 0x14, 0x15, 0x16, 0x17, 0x1A] →
    (s.regWrite i v).regRead i = v ∧
    (∀ j : RegIndex, j ≠ i → j.val < 0x20 → j ≠ 0x04 → (s.regWrite i v).regRead j = s.regRead j) ∧
    (s.regWrite i v).irq = s.irq ∧ (s.regWrite i v).busy = false ∧ (s.regWrite i v).inflight = s.inflight

/-- R42: a stored write to P, A or B invalidates both tables, even when the value is the one held. A write to any
other operand register does not touch them. That unspecified entries are an empty list and a new `epoch` is the model's
choice (log 9). -/
def Obligations.CurveWritesInvalidate : Prop :=
  (∀ (W : Nat) (s : Ecmau W) (i : RegIndex) (v : Word W), s.busy = false → i.val ∈ [0x10, 0x11, 0x12] →
    (s.regWrite i v).tabA = { valid := false, order := 0, gx := 0, gy := 0, entries := [], epoch := s.tabA.epoch + 1 } ∧
    (s.regWrite i v).tabB = { valid := false, order := 0, gx := 0, gy := 0, entries := [], epoch := s.tabB.epoch + 1 }) ∧
  (∀ (W : Nat) (s : Ecmau W) (i : RegIndex) (v : Word W), i.val ∈ [0x08, 0x09, 0x0A, 0x14, 0x15, 0x16, 0x17, 0x1A] →
    (s.regWrite i v).tabA = s.tabA ∧ (s.regWrite i v).tabB = s.tabB)

/-- R37, R181: a write to CMD while BUSY = 0 issues the word: INFLIGHT, BUSY, DONE, and for TBUILD.t the invalidation
of table t, and nothing else. While BUSY = 1 it stores and issues nothing and sets WERR. That INFLIGHT holds the word as
written (log 8), and that unspecified entries are an empty list and a new `epoch` (log 9), are the model's own. -/
def Obligations.CmdWritesIssue : Prop :=
  ∀ (W : Nat) (s : Ecmau W) (v : Word W),
    s.regRead 0x05 = 0 ∧
    (s.busy = true → s.regWrite 0x05 v = { s with werr := true }) ∧
    (s.busy = false →
      s.regWrite 0x05 v =
        { s with
          inflight := some v, busy := true, done := false, work := .idle
          tabA := if decode v = .ok .tbuildA then
            { valid := false, order := 0, gx := 0, gy := 0, entries := [], epoch := s.tabA.epoch + 1 } else s.tabA
          tabB := if decode v = .ok .tbuildB then
            { valid := false, order := 0, gx := 0, gy := 0, entries := [], epoch := s.tabB.epoch + 1 } else s.tabB })

/-- R210: the interrupt is the level IE ∧ DONE. It is cleared by writing 1 to DONE, by the next issue and by IE = 0,
and asserted at once by IE = 1 while DONE = 1. -/
def Obligations.InterruptLevel : Prop :=
  ∀ (W : Nat) (s : Ecmau W),
    (s.irq = true ↔ s.ie = true ∧ s.done = true) ∧
    (∀ v : Word W, v.getLsbD 1 = true → (s.regWrite 0x04 v).irq = false) ∧
    (∀ v : Word W, v.getLsbD 1 = false → (s.regWrite 0x04 v).irq = s.irq) ∧
    (∀ v : Word W, s.busy = false → (s.regWrite 0x05 v).irq = false) ∧
    (∀ v : Word W, v.getLsbD 1 = false → v.getLsbD 0 = false →
      (s.regWrite 0x03 v).irq = false ∧ (s.regWrite 0x03 v).done = s.done) ∧
    (∀ v : Word W, v.getLsbD 1 = false → v.getLsbD 0 = true → s.done = true → (s.regWrite 0x03 v).irq = true)

/-- Under the reference binding register i lies at byte offset 8·i from UNIT_BASE, little-endian (20_memory.md R62, R63).
A bus access inside the window that is not one whole register at its own offset is a bus error (R63), and one outside
the window never reaches the unit (R61). The model's choice is (log 4): that under every other BUS_BINDING (R66) register
i lies at `registerBytes·i`; the form of the binding, with the order of its bus words; the order of the bytes within a
bus word; and that the bytes above W bits hold 0. How the model stops at the two kinds of access is its choice too
(log 5). -/
def Obligations.BusBinding : Prop :=
  (∀ (W : Nat) (s : Ecmau W) (i : RegIndex) (v : Word W), s.cfg.wellFormed W = true →
    let n := s.cfg.bus.registerBytes
    hostEvent (.busWrite (s.cfg.unitBase + n * i.val) (bytesOfWord s.cfg.bus v)) s = .next (s.regWrite i v) ∧
    hostEvent (.busRead (s.cfg.unitBase + n * i.val) n) s =
      .next { s with answers := .bytes (bytesOfWord s.cfg.bus (s.regRead i)) :: s.answers }) ∧
  (∀ (W : Nat) (b : Sys2Proof.BusBinding) (v : Word W), b.allowed W = true →
    (bytesOfWord b v).length = b.registerBytes ∧
    (b.order = .littleEndian → ∀ j : Nat, j < b.registerBytes →
      ∃ x, (bytesOfWord b v)[j]? = some x ∧ x.toNat = v.toNat / 2 ^ (8 * j) % 256) ∧
    (b.order = .bigEndian → ∀ m k : Nat, m < b.registerBytes / b.busWordBytes → k < b.busWordBytes →
      ∃ x, (bytesOfWord b v)[m * b.busWordBytes + k]? = some x ∧
        x.toNat = v.toNat / 2 ^ (8 * ((b.registerBytes / b.busWordBytes - 1 - m) * b.busWordBytes + k)) % 256)) ∧
  (∀ (W : Nat) (s : Ecmau W) (addr len : Nat), s.cfg.wellFormed W = true →
    let n := s.cfg.bus.registerBytes
    s.cfg.unitBase < addr + len → addr < s.cfg.unitBase + n * 64 →
    (¬∃ i : RegIndex, addr = s.cfg.unitBase + n * i.val ∧ len = n) →
    hostEvent (.busRead addr len) s = .fault .busError ∧
    ∀ bytes : List Byte, bytes.length = len → hostEvent (.busWrite addr bytes) s = .fault .busError) ∧
  (∀ (W : Nat) (s : Ecmau W) (addr len : Nat),
    addr + len ≤ s.cfg.unitBase ∨ s.cfg.unitBase + s.cfg.bus.registerBytes * 64 ≤ addr →
    hostEvent (.busRead addr len) s = .refused .outsideWindow ∧
    ∀ bytes : List Byte, bytes.length = len → hostEvent (.busWrite addr bytes) s = .refused .outsideWindow) ∧
  (Sys2Proof.BusBinding.reference.registerBytes = 8 ∧ Sys2Proof.BusBinding.reference.order = .littleEndian ∧
    ∀ W : Nat, Sys2Proof.BusBinding.reference.allowed W = true ↔ W ≤ 64)

/-! ### Completion and its frame -/

/-- Every command completes (43_control.md R183, 60_exceptions.md R201): one result code, ERR set by an error code and
otherwise left, BUSY 0, DONE 1, INFLIGHT none. An error code and IDENTITY write no data register and no table. -/
def Obligations.EveryCommandCompletes : Prop :=
  ∀ (i : Instr) (W : Nat) (s : Ecmau W), ∃ t : Ecmau W, exec i s.pack = .next t.pack ∧
    (∃ c regs tabA tabB, Completes s t c regs tabA tabB) ∧
    (t.code ≠ .ok → CompletesBare s t t.code) ∧
    (s.ie = true → t.irq = true)

/-- What each command leaves as it was: it reads as before at every index but STATUS and the registers its rule
writes (R for the scalar commands; RX and RY for PADD and TLOOKUP; ORDER_t, GX_t and GY_t for TBUILD.t; none for NOP),
it writes no operand register (40_modular.md R109), only TBUILD.t changes table t, and an error or IDENTITY writes no
register (60_exceptions.md R201). -/
def Obligations.CommandFrame : Prop :=
  ∀ (W : Nat) (s : Ecmau W) (i : Instr), ∃ t : Ecmau W, exec i s.pack = .next t.pack ∧
    (∀ j : RegIndex, t.regRead j = s.regRead j ∨ j = 0x04 ∨
      (i ∈ [Instr.mod, .madd, .mmul, .minv] ∧ j = 0x0B) ∨
      (i ∈ [Instr.padd, .tlookupA, .tlookupB] ∧ (j = 0x18 ∨ j = 0x19)) ∨
      (i = .tbuildA ∧ (j = 0x20 ∨ j = 0x21 ∨ j = 0x22)) ∨
      (i = .tbuildB ∧ (j = 0x24 ∨ j = 0x25 ∨ j = 0x26))) ∧
    (∀ sel, i ≠ tbuildOf sel → t.table sel = s.table sel) ∧
    (t.code ≠ .ok → t.regs = s.regs ∧ ∀ sel, t.table sel = s.table sel) ∧
    t.ie = s.ie ∧ t.werr = s.werr ∧ t.cfg = s.cfg ∧ t.events = s.events ∧ t.answers = s.answers ∧ t.turns = s.turns

/-- R184: NOP, of command word 0, completes with OK and changes no data, ERR or WERR; a NOP with T = 1 or a
reserved bit set is illegal. -/
def Obligations.NopCompletes : Prop :=
  (∀ W : Nat, encode W .nop = 0x0) ∧
  (∀ (W : Nat) (s : Ecmau W), ∃ t : Ecmau W,
    exec .nop s.pack = .next t.pack ∧ CompletesBare s t .ok ∧ t.err = s.err ∧ t.werr = s.werr) ∧
  (∀ (W : Nat) (v : Word W), v.toNat % 256 = 0 → v ≠ 0 → ∃ e, decode v = .error e)

/-- R100: a scalar command with `n <= 0` completes with BAD_MODULUS, and R is not written. -/
def Obligations.ScalarBadModulus : Prop :=
  ∀ (W : Nat) (s : Ecmau W) (i : Instr), i ∈ [Instr.mod, .madd, .mmul, .minv] → s.regs.n.toInt ≤ 0 →
    ∃ t : Ecmau W, exec i s.pack = .next t.pack ∧ CompletesBare s t .badModulus

/-- R105: MOD writes `X mod N`, in `[0, n)`, to R and completes with OK. It completes with BAD_MODULUS where `n <= 0`.
No other register changes. -/
def Obligations.ModReduces : Prop :=
  (∀ W : Nat, encode W .mod = 0x1) ∧
  ∀ (W : Nat) (s : Ecmau W),
    (0 < s.regs.n.toInt →
      ∃ (t : Ecmau W) (r : Word W), exec .mod s.pack = .next t.pack ∧
        Completes s t .ok { s.regs with r := r } s.tabA s.tabB ∧
        (r.toNat : Int) = s.regs.x.toInt % s.regs.n.toInt) ∧
    (s.regs.n.toInt ≤ 0 → ∃ t : Ecmau W, exec .mod s.pack = .next t.pack ∧ CompletesBare s t .badModulus)

/-- R106: MADD writes `(X + Y) mod N`, the sum exact. It completes with BAD_MODULUS where `n <= 0`. No
other register changes. -/
def Obligations.MaddAdds : Prop :=
  (∀ W : Nat, encode W .madd = 0x2) ∧
  ∀ (W : Nat) (s : Ecmau W),
    (0 < s.regs.n.toInt →
      ∃ (t : Ecmau W) (r : Word W), exec .madd s.pack = .next t.pack ∧
        Completes s t .ok { s.regs with r := r } s.tabA s.tabB ∧
        (r.toNat : Int) = (s.regs.x.toInt + s.regs.y.toInt) % s.regs.n.toInt) ∧
    (s.regs.n.toInt ≤ 0 → ∃ t : Ecmau W, exec .madd s.pack = .next t.pack ∧ CompletesBare s t .badModulus)

/-- R107: MMUL writes `(X · Y) mod N`, the product exact. It completes with BAD_MODULUS where `n <= 0`. No
other register changes. -/
def Obligations.MmulMultiplies : Prop :=
  (∀ W : Nat, encode W .mmul = 0x3) ∧
  ∀ (W : Nat) (s : Ecmau W),
    (0 < s.regs.n.toInt →
      ∃ (t : Ecmau W) (r : Word W), exec .mmul s.pack = .next t.pack ∧
        Completes s t .ok { s.regs with r := r } s.tabA s.tabB ∧
        (r.toNat : Int) = (s.regs.x.toInt * s.regs.y.toInt) % s.regs.n.toInt) ∧
    (s.regs.n.toInt ≤ 0 → ∃ t : Ecmau W, exec .mmul s.pack = .next t.pack ∧ CompletesBare s t .badModulus)

/-- R108: for `n > 0` MINV writes the inverse of X modulo N where `n >= 2` and `gcd(n, x) = 1`, and completes with
NO_INVERSE, R kept, in every other case. It does so from every stage of its working values (`WorkOk`): that the
completion step finishes them is read from the spec by inference (log 7). For `n <= 0` it completes with BAD_MODULUS. -/
def Obligations.MinvInverts : Prop :=
  (∀ W : Nat, encode W .minv = 0x4) ∧
  (∀ (W : Nat) (s : Ecmau W), s.regs.n.toInt ≤ 0 →
    ∃ t : Ecmau W, exec .minv s.pack = .next t.pack ∧ CompletesBare s t .badModulus) ∧
  ∀ (W : Nat) (s : Ecmau W), WorkOk s → 0 < s.regs.n.toInt →
    (2 ≤ s.regs.n.toInt ∧ Int.gcd s.regs.n.toInt s.regs.x.toInt = 1 →
      ∃ (t : Ecmau W) (r : Word W), exec .minv s.pack = .next t.pack ∧
        Completes s t .ok { s.regs with r := r } s.tabA s.tabB ∧
        1 ≤ r.toNat ∧ (r.toNat : Int) ≤ s.regs.n.toInt - 1 ∧ (s.regs.x.toInt * r.toNat) % s.regs.n.toInt = 1) ∧
    (¬(2 ≤ s.regs.n.toInt ∧ Int.gcd s.regs.n.toInt s.regs.x.toInt = 1) →
      ∃ t : Ecmau W, exec .minv s.pack = .next t.pack ∧ CompletesBare s t .noInverse)

/-- R103: `modinv` is the loop of the rule, from its first values: the test for remainder 1, the test for 0, and the
division step, without a bound on the passes. -/
def Obligations.ModinvIsItsLoop : Prop :=
  (∀ n x : Int, 0 < n → modinv n x = finishMinv n { r0 := n, r1 := x % n, t0 := 0, t1 := 1 }) ∧
  (∀ (n : Int) (w : MinvWork), 0 < n → 0 ≤ w.r1 →
    finishMinv n w =
      if w.r1 = 1 then some (w.t1 % n)
      else if w.r1 = 0 then none
      else finishMinv n
        { r0 := w.r1, r1 := w.r0 - w.r0 / w.r1 * w.r1, t0 := w.t1, t1 := w.t0 - w.r0 / w.r1 * w.t1 }) ∧
  (∀ n x y : Int, 0 < n → modinv n x = some y → 0 ≤ y ∧ y < n)

/-- R104, "Correctness" and "Termination": one pass keeps the congruences and the gcd, and r1 decreases. -/
def Obligations.MinvPassKeepsBezout : Prop :=
  ∀ (n x : Int) (w : MinvWork), 0 < n → MinvWorkOk n x w → 2 ≤ w.r1 →
    MinvWorkOk n x (minvPass w) ∧ (minvPass w).r1 < w.r1

/-- "MOD and MINV do not read Y. No scalar command reads … P, A, B, the point registers or the tables" (R109): two
units that agree on the operands a scalar command reads, and on the working values that MINV goes on from
(10_state.md R43; log 7), give the same result code, and the same R where it is written. Units at different stages of
MINV are the subject of WorkTurnsDoNotChangeTheResult. And no command, scalar or not, reads BUSY, DONE, ERR, WERR or
CODE (10_state.md R46): with other values in them it gives the same next state, but that WERR, and an ERR that was set,
are kept. The valid bits of STATUS are not among these: TLOOKUP reads VALID_t (42_table.md R160). -/
def Obligations.ScalarReadsItsOperandsOnly : Prop :=
  (∀ (W : Nat) (s u : Ecmau W) (i : Instr), i ∈ [Instr.mod, .madd, .mmul, .minv] →
    s.regs.n = u.regs.n → s.regs.x = u.regs.x → (i ∈ [Instr.madd, .mmul] → s.regs.y = u.regs.y) →
    s.minvWork = u.minvWork →
    ∃ t t' : Ecmau W, exec i s.pack = .next t.pack ∧ exec i u.pack = .next t'.pack ∧ t.code = t'.code ∧
      (t.code = .ok → t.regs.r = t'.regs.r)) ∧
  (∀ (W : Nat) (s : Ecmau W) (i : Instr) (busy done err werr : Bool) (code : ResultCode),
    ∃ t : Ecmau W, exec i s.pack = .next t.pack ∧
      exec i ({ s with busy := busy, done := done, err := err, werr := werr, code := code } : Ecmau W).pack =
        .next ({ t with err := err || decide (2 ≤ t.code.toBits.toNat), werr := werr } : Ecmau W).pack)

/-! ### Point addition -/

/-- R131 with R130: the checks in their order, the identity on coordinates, the doubling and the addition formulas,
the inverse of the denominator, and what each outcome writes. -/
def Obligations.PaddComputesTheGroupLaw : Prop :=
  (∀ W : Nat, encode W .padd = 0x10) ∧
  ∀ (W : Nat) (s : Ecmau W),
    let p := s.regs.p.toInt
    let a := s.regs.a.toInt
    let px := s.regs.px.toInt
    let py := s.regs.py.toInt
    let qx := s.regs.qx.toInt
    let qy := s.regs.qy.toInt
    let canon := (0 ≤ px ∧ px < p) ∧ (0 ≤ py ∧ py < p) ∧ (0 ≤ qx ∧ qx < p) ∧ (0 ≤ qy ∧ qy < p)
    let num := if px = qx then (3 * px * px + a) % p else (qy - py) % p
    let den := if px = qx then (2 * py) % p else (qx - px) % p
    (p ≤ 0 → ∃ t : Ecmau W, exec .padd s.pack = .next t.pack ∧ CompletesBare s t .badModulus) ∧
    (0 < p → ¬canon → ∃ t : Ecmau W, exec .padd s.pack = .next t.pack ∧ CompletesBare s t .nonCanon) ∧
    (0 < p → canon → px = qx → py ≠ qy →
      ∃ t : Ecmau W, exec .padd s.pack = .next t.pack ∧ CompletesBare s t .identity) ∧
    (0 < p → canon → (px = qx → py = qy) → ¬(2 ≤ p ∧ Int.gcd p den = 1) →
      ∃ t : Ecmau W, exec .padd s.pack = .next t.pack ∧ CompletesBare s t .noInverse) ∧
    (0 < p → canon → (px = qx → py = qy) → 2 ≤ p ∧ Int.gcd p den = 1 →
      ∃ (t : Ecmau W) (rx ry : Word W), exec .padd s.pack = .next t.pack ∧
        Completes s t .ok { s.regs with rx := rx, ry := ry } s.tabA s.tabB ∧
        ∃ inv : Int, 0 ≤ inv ∧ inv < p ∧ (den * inv) % p = 1 ∧
          (rx.toNat : Int) = ((num * inv) % p * ((num * inv) % p) - px - qx) % p ∧
          (ry.toNat : Int) = ((num * inv) % p * (px - rx.toNat) - py) % p)

/-- R133: a doubling with `py = 0`, with `p = 1` or `p = 2`, or with `gcd(p, 2·py) != 1` gives NO_INVERSE. -/
def Obligations.DoublingWithoutInverse : Prop :=
  ∀ (W : Nat) (s : Ecmau W), 0 < s.regs.p.toInt → s.regs.px = s.regs.qx → s.regs.py = s.regs.qy →
    0 ≤ s.regs.px.toInt → s.regs.px.toInt < s.regs.p.toInt → 0 ≤ s.regs.py.toInt → s.regs.py.toInt < s.regs.p.toInt →
    (s.regs.py = 0 ∨ s.regs.p.toInt = 1 ∨ s.regs.p.toInt = 2 ∨
      Int.gcd s.regs.p.toInt (2 * s.regs.py.toInt) ≠ 1) →
    ∃ t : Ecmau W, exec .padd s.pack = .next t.pack ∧ CompletesBare s t .noInverse

/-- Commutativity (R135): PADD with (P, Q) and with (Q, P) give the same code and the same result. -/
def Obligations.PaddCommutes : Prop :=
  ∀ (W : Nat) (s : Ecmau W),
    ∃ t u : Ecmau W, exec .padd s.pack = .next t.pack ∧
      exec .padd ({ s with regs :=
        { s.regs with px := s.regs.qx, py := s.regs.qy, qx := s.regs.px, qy := s.regs.py } } : Ecmau W).pack =
          .next u.pack ∧
      t.code = u.code ∧ t.regs.rx = u.regs.rx ∧ t.regs.ry = u.regs.ry

/-- Closure (R135): where P and Q satisfy `y² = x³ + a·x + b` modulo p and PADD completes with OK, so does the
result. It holds for every p and every b. -/
def Obligations.PaddStaysOnTheCurve : Prop :=
  ∀ (W : Nat) (s : Ecmau W) (b : Int),
    let p := s.regs.p.toInt
    let onCurve := fun x y : Int => (y * y) % p = (x * x * x + s.regs.a.toInt * x + b) % p
    onCurve s.regs.px.toInt s.regs.py.toInt → onCurve s.regs.qx.toInt s.regs.qy.toInt →
    ∃ t : Ecmau W, exec .padd s.pack = .next t.pack ∧ (t.code = .ok → onCurve t.regs.rx.toNat t.regs.ry.toNat)

/-- Register B is read by no command (10_state.md R39): with another value in B, every command gives the same state
but for B. -/
def Obligations.NoCommandReadsB : Prop :=
  ∀ (W : Nat) (s : Ecmau W) (i : Instr) (b : Word W),
    ∃ t : Ecmau W, exec i s.pack = .next t.pack ∧
      exec i ({ s with regs := { s.regs with b := b } } : Ecmau W).pack =
        .next ({ t with regs := { t.regs with b := b } } : Ecmau W).pack

/-! ### Subgroup tables -/

/-- R151: at the issue of TBUILD.t, before any check, table t is invalidated; VALID_t, ORDER_t, GX_t and GY_t are 0
in every state with TBUILD.t in flight; TLOOKUP cannot be issued; and TBUILD.t does not touch the other table, at issue
or at completion. -/
def Obligations.TbuildInvalidatesAtIssue : Prop :=
  (∀ (W : Nat) (s : Ecmau W) (t : TableSel), 32 ≤ W → s.busy = false →
    let u := s.regWrite 0x05 (encode W (tbuildOf t))
    u.busy = true ∧ u.command = some (.ok (tbuildOf t)) ∧
    (u.table t).valid = false ∧ (u.table t).order = 0 ∧ (u.table t).gx = 0 ∧ (u.table t).gy = 0 ∧
    (u.table t).entries = [] ∧ u.table (otherTable t) = s.table (otherTable t) ∧ u.regs = s.regs) ∧
  (∀ (W : Nat) (s : Ecmau W) (t : TableSel), Inv s → s.command = some (.ok (tbuildOf t)) →
    (s.table t).valid = false ∧ (s.table t).order = 0 ∧ (s.table t).gx = 0 ∧ (s.table t).gy = 0 ∧
    ∀ r, s.regWrite 0x05 (encode W (tlookupOf r)) = { s with werr := true }) ∧
  (∀ (W : Nat) (s : Ecmau W) (t : TableSel), ∃ u : Ecmau W,
    exec (tbuildOf t) s.pack = .next u.pack ∧ u.table (otherTable t) = s.table (otherTable t))

/-- The checks of TBUILD.t in their order (42_table.md R150): BAD_MODULUS, then NONCANON; both leave the data
registers and the tables as they were. -/
def Obligations.TbuildChecks : Prop :=
  ∀ (W : Nat) (s : Ecmau W) (t : TableSel),
    (s.regs.p.toInt ≤ 0 → ∃ u : Ecmau W, exec (tbuildOf t) s.pack = .next u.pack ∧ CompletesBare s u .badModulus) ∧
    (0 < s.regs.p.toInt →
      ¬(0 ≤ s.regs.px.toInt ∧ s.regs.px.toInt < s.regs.p.toInt ∧ 0 ≤ s.regs.py.toInt ∧
        s.regs.py.toInt < s.regs.p.toInt) →
      ∃ u : Ecmau W, exec (tbuildOf t) s.pack = .next u.pack ∧ CompletesBare s u .nonCanon)

/-- R156, with R155: TBUILD.t completes; with OK it leaves table t valid with the order n, the generator and the
multiples k·G; with any other code table t stays not valid, its registers 0 and every entry unspecified; it writes no
data register (RX, RY and R among them) and not the other table. -/
def Obligations.TbuildFillsItsTable : Prop :=
  ∀ (W : Nat) (s : Ecmau W) (t : TableSel), Inv s → s.command = some (.ok (tbuildOf t)) →
    ∃ u : Ecmau W, exec (tbuildOf t) s.pack = .next u.pack ∧ u.regs = s.regs ∧
      u.table (otherTable t) = s.table (otherTable t) ∧
      Completes s u u.code s.regs u.tabA u.tabB ∧
      (u.code = .ok →
        (u.table t).valid = true ∧ 2 ≤ (u.table t).order.toNat ∧ (u.table t).order.toNat ≤ s.cfg.nTab + 1 ∧
        (u.table t).gx = s.regs.px ∧ (u.table t).gy = s.regs.py ∧
        (u.table t).entries.length = (u.table t).order.toNat - 1 ∧
        ∀ k : Nat, 1 ≤ k → k ≤ (u.table t).order.toNat - 1 →
          multiple s.regs.p.toInt s.regs.a.toInt { x := s.regs.px.toInt, y := s.regs.py.toInt } k =
            some
              { x := ((tableEntry t (u.table t) k).1.toNat : Int), y := ((tableEntry t (u.table t) k).2.toNat : Int) }) ∧
      (u.code ≠ .ok →
        (u.table t).valid = false ∧ (u.table t).order = 0 ∧ (u.table t).gx = 0 ∧ (u.table t).gy = 0 ∧
        (u.table t).entries = [] ∧
        u.code ∈ [ResultCode.badModulus, .nonCanon, .noInverse, .divergence, .tableOverflow])

/-- When TBUILD.t succeeds (42_table.md R152, R155): where k·G is defined and `k·G + G` is the identity, within
N_TAB and the cap, TBUILD.t completes with OK and leaves table t valid with order k + 1 and k entries. It does so from
every stage of its working values (`WorkOk`): that the completion step finishes them is read from the spec by inference
(log 7). -/
def Obligations.TbuildClosesItsSubgroup : Prop :=
  ∀ (W : Nat) (s : Ecmau W) (t : TableSel) (k : Nat) (c : Point), WorkOk s → s.command = some (.ok (tbuildOf t)) →
    let p := s.regs.p.toInt
    let g : Point := { x := s.regs.px.toInt, y := s.regs.py.toInt }
    0 < p → 0 ≤ g.x → g.x < p → 0 ≤ g.y → g.y < p →
    1 ≤ k → k ≤ s.cfg.nTab → (k : Int) ≤ 2 * p →
    multiple p s.regs.a.toInt g k = some c → paddCore p s.regs.a.toInt c g = .identity →
    ∃ u : Ecmau W, exec (tbuildOf t) s.pack = .next u.pack ∧ Completes s u .ok s.regs u.tabA u.tabB ∧
      u.table (otherTable t) = s.table (otherTable t) ∧
      (u.table t).valid = true ∧ (u.table t).order.toNat = k + 1 ∧ (u.table t).gx = s.regs.px ∧
      (u.table t).gy = s.regs.py ∧ (u.table t).entries.length = k

/-- R152: the build loop is the loop of the rule, pass by pass, without a bound on the passes. -/
def Obligations.BuildIsItsLoop : Prop :=
  (∀ (nTab : Nat) (p a : Int) (g : Point),
    build nTab p a g = finishBuild nTab p a g { cur := g, order := 1, entries := [g] }) ∧
  (∀ (nTab : Nat) (p a : Int) (g : Point) (w : BuildWork),
    finishBuild nTab p a g w =
      if w.order + 1 > 2 * p + 1 then .failed .divergence
      else
        match paddCore p a w.cur g with
        | .noInverse => .failed .noInverse
        | .identity => .closed (w.order + 1) w.entries
        | .sum c =>
          if w.order + 1 > nTab then .failed .tableOverflow
          else finishBuild nTab p a g { cur := c, order := w.order + 1, entries := w.entries ++ [c] })

/-- Which end a build has, by the multiples of the generator (42_table.md R152, R153, R154): closed at n where n·G is
the identity, and each failure by its own condition; one of the four always holds. -/
def Obligations.BuildEndsByTheMultiples : Prop :=
  ∀ (nTab : Nat) (p a : Int) (g : Point), 1 ≤ nTab → 0 < p →
    (∀ (n : Int) (es : List Point), build nTab p a g = .closed n es ↔
      2 ≤ n ∧ n ≤ nTab + 1 ∧ n ≤ 2 * p + 1 ∧ (es.length : Int) = n - 1 ∧
      (∀ k : Nat, 1 ≤ k → k ≤ es.length → ∃ c, es[k - 1]? = some c ∧ multiple p a g k = some c) ∧
      ∃ c, multiple p a g es.length = some c ∧ paddCore p a c g = .identity) ∧
    (build nTab p a g = .failed .noInverse ↔
      ∃ (k : Nat) (c : Point), 1 ≤ k ∧ k ≤ nTab ∧ (k : Int) ≤ 2 * p ∧ multiple p a g k = some c ∧
        paddCore p a c g = .noInverse) ∧
    (build nTab p a g = .failed .tableOverflow ↔
      (nTab : Int) ≤ 2 * p ∧ ∃ c, multiple p a g (nTab + 1) = some c) ∧
    (build nTab p a g = .failed .divergence ↔
      2 * p + 1 ≤ nTab ∧ ∃ c, multiple p a g (2 * p + 1).toNat = some c) ∧
    (∀ c, build nTab p a g = .failed c → c ∈ [ResultCode.noInverse, .tableOverflow, .divergence])

/-- R160: TLOOKUP.t gives TABLE_INVALID for an invalid table whatever K is, RANGE for K outside `[1, n - 1]`, and
otherwise writes `TAB_t[k]` to RX and RY. -/
def Obligations.TlookupReadsItsTable : Prop :=
  (∀ W : Nat, encode W .tlookupA = 0x21 ∧ encode W .tlookupB = 0x121) ∧
  ∀ (W : Nat) (s : Ecmau W) (t : TableSel),
    let n := ((s.table t).order.toNat : Int)
    let k := s.regs.k.toInt
    ((s.table t).valid = false →
      ∃ u : Ecmau W, exec (tlookupOf t) s.pack = .next u.pack ∧ CompletesBare s u .tableInvalid) ∧
    ((s.table t).valid = true → ¬(1 ≤ k ∧ k ≤ n - 1) →
      ∃ u : Ecmau W, exec (tlookupOf t) s.pack = .next u.pack ∧ CompletesBare s u .range) ∧
    ((s.table t).valid = true → 1 ≤ k → k ≤ n - 1 →
      ∃ (u : Ecmau W) (e : Word W × Word W), exec (tlookupOf t) s.pack = .next u.pack ∧
        Completes s u .ok { s.regs with rx := e.1, ry := e.2 } s.tabA s.tabB ∧
        e = tableEntry t (s.table t) k.toNat ∧
        (∀ x, (s.table t).entries[k.toNat - 1]? = some x → e = x))

/-- A lookup is scalar multiplication (42_table.md R162): on a valid table TLOOKUP.t of k writes k·G, for the
generator in GX_t and GY_t and the curve in P and A. -/
def Obligations.LookupIsScalarMultiplication : Prop :=
  ∀ (W : Nat) (s : Ecmau W) (t : TableSel), Inv s → (s.table t).valid = true → 1 ≤ s.regs.k.toInt →
    s.regs.k.toInt ≤ (s.table t).order.toNat - 1 →
    ∃ u : Ecmau W, exec (tlookupOf t) s.pack = .next u.pack ∧ u.code = .ok ∧
      multiple s.regs.p.toInt s.regs.a.toInt
        { x := ((s.table t).gx.toNat : Int), y := ((s.table t).gy.toNat : Int) } s.regs.k.toInt.toNat =
        some { x := (u.regs.rx.toNat : Int), y := (u.regs.ry.toNat : Int) }

/-! ### Steps -/

/-- A step runs the decoded command: where the unit acts with a word in flight that decodes to i, the step is exec of
i at that state with its turn taken. The state `withFetchWord` builds steps to exec of the command of its word, at every
width; it keeps the data registers and the accesses of the host (logs 6, 10). -/
def Obligations.StepRunsTheDecodedCommand : Prop :=
  (∀ (W : Nat) (s : Ecmau W) (v : Word W) (i : Instr), s.inflight = some v → decode v = .ok i →
    (s.turns = [] → step s.pack = exec i s.pack) ∧
    (∀ rest, s.turns = .complete :: rest → step s.pack = exec i (s.withTurns rest).pack)) ∧
  (∀ (s : State) (i : Instr) (nbits w : Nat), 32 ≤ s.width → decodeTableWord nbits w = some i →
    step (s.withFetchWord nbits w) = exec i (s.withFetchWord nbits w) ∧
    ∃ u : Ecmau s.width, s.withFetchWord nbits w = u.pack ∧ u.command = some (.ok i) ∧
      u.regs = s.unit.regs ∧ u.events = s.unit.events)

/-- R182: an illegal word in flight completes with ILLEGAL and nothing else: no data register, no table and no valid
bit changes. -/
def Obligations.StepCompletesIllegalWords : Prop :=
  ∀ (W : Nat) (s : Ecmau W) (v : Word W) (e : Illegal), s.inflight = some v → decode v = .error e →
    (s.turns = [] → ∃ t : Ecmau W, step s.pack = .next t.pack ∧ CompletesBare s t .illegal ∧ t.err = true) ∧
    (∀ rest, s.turns = .complete :: rest →
      ∃ t : Ecmau W, step s.pack = .next t.pack ∧ CompletesBare (s.withTurns rest) t .illegal ∧ t.err = true)

/-- The other steps (43_control.md R186): the host's turn takes its first event in full, a `RegWrite` having the write
effect of its register (20_memory.md R60) and a `RegRead` giving its value; an agent with nothing to do changes nothing;
and with no turn listed the unit goes before the host (log 6). -/
def Obligations.StepTakesTurns : Prop :=
  ∀ (W : Nat) (s : Ecmau W) (rest : List Turn),
    (s.turns = .host :: rest → ∀ e es, s.events = e :: es →
      step s.pack = packOutcome (hostEvent e { s with turns := rest, events := es })) ∧
    (s.turns = .host :: rest → ∀ (i : RegIndex) (v : Word W) (es : List (Event W)), s.events = .regWrite i v :: es →
      step s.pack = .next (({ s with turns := rest, events := es } : Ecmau W).regWrite i v).pack) ∧
    (s.turns = .host :: rest → ∀ (i : RegIndex) (es : List (Event W)), s.events = .regRead i :: es →
      step s.pack =
        .next ({ s with turns := rest, events := es, answers := .word (s.regRead i) :: s.answers } : Ecmau W).pack) ∧
    (s.turns = .host :: rest → s.events = [] → step s.pack = .next (s.withTurns rest).pack) ∧
    (s.turns = [] → s.inflight = none → ∀ e es, s.events = e :: es →
      step s.pack = packOutcome (hostEvent e { s with events := es })) ∧
    (s.turns = [] → s.inflight = none → s.events = [] → step s.pack = .next s.pack) ∧
    (s.turns = .complete :: rest → s.inflight = none → step s.pack = .next (s.withTurns rest).pack) ∧
    (s.turns = .work :: rest → step s.pack = .next (s.withTurns rest).workTurn.pack)

/-- The hidden working values are not visible (10_state.md R43): a turn of the unit on them changes nothing but them,
and so nothing the host can read or see. -/
def Obligations.WorkTurnsAreInvisible : Prop :=
  ∀ (W : Nat) (s : Ecmau W), (∃ w, s.workTurn = { s with work := w }) ∧ SameView s s.workTurn

/-- A command's result does not depend on when its completion comes (43_control.md R180): after a turn on the working
values the command in flight completes exactly as without it. -/
def Obligations.WorkTurnsDoNotChangeTheResult : Prop :=
  ∀ (W : Nat) (s : Ecmau W) (i : Instr), Inv s → s.command = some (.ok i) →
    ∃ t : Ecmau W, exec i s.pack = .next t.pack ∧ exec i s.workTurn.pack = .next t.pack

/-- While a command is in flight nothing but its completion or a reset changes a data register, a table, INFLIGHT or
CODE (10_state.md R44, 20_memory.md R69). -/
def Obligations.OperandsAreFixedInFlight : Prop :=
  ∀ (W : Nat) (s t : Ecmau W), Inv s → step s.pack = .next t.pack → s.busy = true → s.unitCompletes = false →
    ¬s.resets →
    t.regs = s.regs ∧ t.tabA = s.tabA ∧ t.tabB = s.tabB ∧ t.inflight = s.inflight ∧ t.code = s.code ∧
    t.busy = true ∧ t.done = false ∧ t.err = (s.err && t.err)

/-- R32: ERR is set by a completion with an error code and by nothing else, and is cleared only by a host write to
STATUS with bit 2 set and by reset. -/
def Obligations.ErrIsSticky : Prop :=
  ∀ (W : Nat) (s t : Ecmau W), step s.pack = .next t.pack →
    (s.unitCompletes = true → t.err = (s.err || decide (2 ≤ t.code.toBits.toNat))) ∧
    (s.err = false → t.err = true → s.unitCompletes = true ∧ 2 ≤ t.code.toBits.toNat) ∧
    (s.err = true → t.err = false → s.resets ∨ ∃ v : Word W, s.actingWrite = some (0x04, v) ∧ v.getLsbD 2 = true)

/-- R34: CODE is written only at completion, and by reset to OK; no other host write changes it. -/
def Obligations.CodeChangesAtCompletionOnly : Prop :=
  (∀ (W : Nat) (s t : Ecmau W), step s.pack = .next t.pack → t.code ≠ s.code →
    s.unitCompletes = true ∨ (s.resets ∧ t.code = .ok)) ∧
  (∀ (W : Nat) (c : Config), (Ecmau.reset W c).code.toBits = 0) ∧ State.reset.unit.code.toBits = 0

/-- R155 and R41: a table changes only by its own TBUILD (at its issue and its completion), by a stored write to P, A
or B, and by reset; and it becomes valid only by the completion of its own TBUILD. -/
def Obligations.TablesChangeByTbuildOnly : Prop :=
  ∀ (W : Nat) (s t : Ecmau W) (sel : TableSel), step s.pack = .next t.pack →
    (t.table sel ≠ s.table sel →
      (s.unitCompletes = true ∧ s.command = some (.ok (tbuildOf sel))) ∨
      (∃ v, s.issues v ∧ decode v = .ok (tbuildOf sel)) ∨ s.writesCurve ∨ s.resets) ∧
    ((s.table sel).valid = false → (t.table sel).valid = true →
      s.unitCompletes = true ∧ s.command = some (.ok (tbuildOf sel)) ∧ t.code = .ok)

/-- Nothing but a bus access that is not one whole register of the window stops the machine: no command does, no
register access does, and no instruction is refused (60_exceptions.md R203, 20_memory.md R61, R63). Where a register lies
under a binding other than the reference one, and the two stops, are the model's choice (logs 4, 5). -/
def Obligations.OnlyBusAccessesStop : Prop :=
  ∀ (W : Nat) (s : Ecmau W), s.cfg.wellFormed W = true →
    let n := s.cfg.bus.registerBytes
    (∃ t : Ecmau W, step s.pack = .next t.pack) ∨
    (∃ addr len, (s.actingEvent = some (.busRead addr len) ∨
        ∃ bytes : List Byte, bytes.length = len ∧ s.actingEvent = some (.busWrite addr bytes)) ∧
      (¬∃ i : RegIndex, addr = s.cfg.unitBase + n * i.val ∧ len = n) ∧
      (step s.pack = .fault .busError ∨ step s.pack = .refused .outsideWindow))

/-! ### Reset and the invariant -/

/-- R230: the state after a hardware reset, for every width and every parameter: every status bit, INFLIGHT, the tables,
every register of the window, the constants ID, WIDTH and TABDEPTH among them. The last clause is the model's choice:
`State.reset` is that state at W = 64 (log 1) and the parameters `Config.reference` (logs 2, 3, 4, 12). -/
def Obligations.ResetState : Prop :=
  (∀ (W : Nat) (c : Config),
    let s := Ecmau.reset W c
    s.ie = false ∧ s.busy = false ∧ s.done = false ∧ s.err = false ∧ s.werr = false ∧ s.code = .ok ∧
    s.inflight = none ∧ s.work = .idle ∧ s.tabA.valid = false ∧ s.tabB.valid = false ∧ s.tabA.entries = [] ∧
    s.tabB.entries = [] ∧ s.irq = false ∧ s.regs = DataRegs.reset W ∧
    s.regRead 0x00 = 0x45430100 ∧ s.regRead 0x01 = BitVec.ofNat W W ∧ s.regRead 0x02 = BitVec.ofNat W c.nTab ∧
    ∀ i : RegIndex, 0x03 ≤ i.val → s.regRead i = 0) ∧
  State.reset = (Ecmau.reset 64 Config.reference).pack

/-- R231 with R230: from every state, busy or not, a soft reset and a hardware reset put the unit in the state of R230;
the command in flight is abandoned: the unit's next turn changes nothing, DONE is 0 and the interrupt is low. That a
hardware reset is an event between two accesses, and that both keep the parameters, the host's accesses still to come
and the schedule, is the model's choice (log 11). -/
def Obligations.ResetsReachTheResetState : Prop :=
  ∀ (W : Nat) (s : Ecmau W) (v : Word W), v.getLsbD 1 = true →
    hostEvent .hardReset s = .next (s.regWrite 0x03 v) ∧
    (∀ i : RegIndex, (s.regWrite 0x03 v).regRead i = (Ecmau.reset W s.cfg).regRead i) ∧
    (s.regWrite 0x03 v).irq = false ∧ (s.regWrite 0x03 v).inflight = none ∧ (s.regWrite 0x03 v).work = .idle ∧
    (s.regWrite 0x03 v).regs = DataRegs.reset W ∧ (s.regWrite 0x03 v).cfg = s.cfg ∧
    (∀ t, ((s.regWrite 0x03 v).table t).valid = false) ∧
    unitTurn (s.regWrite 0x03 v).pack = .next (s.regWrite 0x03 v).pack ∧
    (s.regWrite 0x03 v).events = s.events ∧ (s.regWrite 0x03 v).turns = s.turns

/-- What each command completes with when it is the first after reset (70_reset_and_hazards.md R232), at every width and
every parameter. That the very next step completes it is the model's choice: `withFetchWord` stands for the CMD write
(log 10) and leaves the schedule empty, where the unit goes first (log 6). -/
def Obligations.CommandsAfterReset : Prop :=
  ∀ (W : Nat) (c : Config), 32 ≤ W →
    let first := fun w => step ((Ecmau.reset W c).pack.withFetchWord 32 w)
    (∃ t : Ecmau W, first 0x000 = .next t.pack ∧ t.code = .ok) ∧
    (∀ w ∈ [0x001, 0x002, 0x003, 0x004, 0x010, 0x020, 0x120],
      ∃ t : Ecmau W, first w = .next t.pack ∧ t.code = .badModulus) ∧
    (∀ w ∈ [0x021, 0x121], ∃ t : Ecmau W, first w = .next t.pack ∧ t.code = .tableInvalid) ∧
    (Ecmau.reset W c).code = .ok ∧ (Ecmau.reset W c).done = false

/-- The reset state meets the invariant, and so does every state the machine can start in. The parameters of
`State.reset` are the model's choice (logs 1, 2, 3, 4, 12). -/
def Obligations.StartsMeetTheInvariant : Prop := Inv State.reset.unit ∧ ∀ s : State, s.starts → Inv s.unit

/-- Every step keeps the invariant: INFLIGHT and BUSY agree (10_state.md R43), a valid table satisfies R47 with the P
and A in the registers, a table under construction is not valid (42_table.md R151), and the working values are those
of the command in flight. -/
def Obligations.StepKeepsTheInvariant : Prop := ∀ s t : State, Inv s.unit → step s = .next t → Inv t.unit

/-- R47 on every run: whatever the host does, in whatever order the agents act, a valid table satisfies its
invariant. -/
def Obligations.ValidTablesHoldTheirSubgroup : Prop :=
  ∀ (s : State) (sel : TableSel), Reachable s →
    let t := s.unit.table sel
    t.valid = true →
    2 ≤ t.order.toNat ∧ t.order.toNat ≤ s.unit.cfg.nTab + 1 ∧ tableEntry sel t 1 = (t.gx, t.gy) ∧
    (∀ k : Nat, 2 ≤ k → k ≤ t.order.toNat - 1 →
      paddCore s.unit.regs.p.toInt s.unit.regs.a.toInt
        { x := (tableEntry sel t (k - 1)).1.toNat, y := (tableEntry sel t (k - 1)).2.toNat }
        { x := (tableEntry sel t 1).1.toNat, y := (tableEntry sel t 1).2.toNat } =
        .sum { x := (tableEntry sel t k).1.toNat, y := (tableEntry sel t k).2.toNat })

/-- No step changes the parameters: W (00_scope.md R8), N_TAB (R9), UNIT_BASE, BUS_BINDING (20_memory.md R66) and
IRQ_ROUTING. And the host's accesses are taken in order: what is left of them after a step is what was left before, less
at most the first. -/
def Obligations.StepKeepsTheParameters : Prop :=
  ∀ (W : Nat) (s : Ecmau W) (t : State), step s.pack = .next t →
    ∃ u : Ecmau W, t = u.pack ∧ u.cfg = s.cfg ∧ (u.events = s.events ∨ ∃ e, s.events = e :: u.events)

/-! ### The host's pseudo-instructions -/

/-- R96: run on an idle unit, PDBL copies (PX, PY) to (QX, QY) and puts PADD in flight. MSUB, for `Y != -2^(W-1)`,
leaves -Y in Y and MADD in flight, whose completion writes `(X - Y) mod N`; at `Y = -2^(W-1)`, where "the expansion must
not be used", the host program stops before it writes anything (log 16). MSQR copies X to Y and puts MMUL in flight. RUN
of any number of W bits puts the command of that word in flight, legal or not (30_encoding.md R95): an illegal word
completes with ILLEGAL. Then WAIT goes on only when a read of STATUS has bit 0 clear. -/
def Obligations.PseudoInstructionsExpand : Prop :=
  (∀ (W : Nat) (s : Ecmau W) (t : Nat), 32 ≤ W → s.busy = false →
    ∃ (h1 h2 h3 h4 h5 : HostCpu W) (s2 s4 s5 : Ecmau W),
      hostStatement (startHost W [.pdbl t]) s = .ok (h1, s) ∧ hostStatement h1 s = .ok (h2, s2) ∧
      hostStatement h2 s2 = .ok (h3, s2) ∧ hostStatement h3 s2 = .ok (h4, s4) ∧
      hostStatement h4 s4 = .ok (h5, s5) ∧
      s5.regs = { s.regs with qx := s.regs.px, qy := s.regs.py } ∧ s5.command = some (.ok .padd)) ∧
  (∀ (W : Nat) (s : Ecmau W) (t : Nat), 32 ≤ W → s.busy = false → s.regs.y.toInt ≠ -2 ^ (W - 1) →
    0 < s.regs.n.toInt →
    ∃ (h1 h2 h3 : HostCpu W) (s2 s3 u : Ecmau W),
      hostStatement (startHost W [.msub t]) s = .ok (h1, s) ∧
      hostStatement h1 s = .ok (h2, s2) ∧ s2.regs.y.toInt = -s.regs.y.toInt ∧
      hostStatement h2 s2 = .ok (h3, s3) ∧ s3.command = some (.ok .madd) ∧
      unitTurn s3.pack = .next u.pack ∧ u.code = .ok ∧
      (u.regs.r.toNat : Int) = (s.regs.x.toInt - s.regs.y.toInt) % s.regs.n.toInt) ∧
  (∀ (W : Nat) (s : Ecmau W) (t : Nat), 32 ≤ W → s.regs.y.toInt = -2 ^ (W - 1) →
    ∃ h1 : HostCpu W, hostStatement (startHost W [.msub t]) s = .ok (h1, s) ∧
      hostStatement h1 s = .error .msubUndefined) ∧
  (∀ (W : Nat) (s : Ecmau W) (t : Nat), 32 ≤ W → s.busy = false →
    ∃ (h1 h2 h3 : HostCpu W) (s2 s3 : Ecmau W),
      hostStatement (startHost W [.msqr t]) s = .ok (h1, s) ∧ hostStatement h1 s = .ok (h2, s2) ∧
      hostStatement h2 s2 = .ok (h3, s3) ∧
      s3.regs = { s.regs with y := s.regs.x } ∧ s3.command = some (.ok .mmul)) ∧
  (∀ (W : Nat) (s : Ecmau W) (v : Word W), 32 ≤ W → s.busy = false →
    ∃ (h1 h2 : HostCpu W) (s1 : Ecmau W),
      hostStatement (startHost W [.run v.toNat]) s = .ok (h1, s1) ∧ s1.command = some (decode v) ∧
      (∀ e, decode v = .error e → ∃ u : Ecmau W, unitTurn s1.pack = .next u.pack ∧ u.code = .illegal) ∧
      hostStatement h1 s1 = .ok (h2, s1) ∧ h2.pc = h1.pc ∧
      ∀ u : Ecmau W, u.busy = false → ∃ h3, hostStatement h2 u = .ok (h3, u) ∧ h3.pc = h2.pc + 1)
end

