-- ==== Sys2Proof/Laws/Bus.lean ====
section
/-! SUPPORT. The bus binding (20_memory.md R62, R63): what an access reaches, and that a register's bytes give the
register back, whatever the binding. -/

namespace Sys2Proof.Machine

variable {W : Nat}

/-- Parameters within their constraints have a binding within its own, and at least one byte a register. -/
theorem registerBytes_pos {c : Config} (h : c.wellFormed W = true) : 0 < c.bus.registerBytes ∧ c.bus.allowed W = true := by
  simp only [Config.wellFormed, widthAllowed, Bool.and_eq_true, decide_eq_true_eq] at h
  refine ⟨?_, h.1.2⟩
  have hb := h.1.2
  simp only [BusBinding.allowed, Bool.and_eq_true, decide_eq_true_eq] at hb
  omega

/-- An access of one whole register at its own offset reaches it (R63). -/
theorem busTarget_own (c : Config) (hp : 0 < c.bus.registerBytes) (i : RegIndex) :
    busTarget c (c.unitBase + c.bus.registerBytes * i.val) c.bus.registerBytes = .reg i := by
  have hi : c.bus.registerBytes * (i.val + 1) ≤ c.bus.registerBytes * 64 := Nat.mul_le_mul_left _ i.isLt
  rw [Nat.mul_add, Nat.mul_one] at hi
  simp only [busTarget]
  rw [if_neg (by omega), if_pos ⟨trivial, by omega, by rw [Nat.add_sub_cancel_left]; exact Nat.mul_mod_right _ _⟩]
  rw [Nat.add_sub_cancel_left, Nat.mul_div_cancel_left _ hp]
  exact congrArg _ (Fin.ext (Nat.mod_eq_of_lt i.isLt))

/-- Any other access that meets the window is a bus error (R63). -/
theorem busTarget_other (c : Config) (addr len : Nat) (h1 : c.unitBase < addr + len)
    (h2 : addr < c.unitBase + c.bus.registerBytes * 64)
    (h3 : ¬∃ i : RegIndex, addr = c.unitBase + c.bus.registerBytes * i.val ∧ len = c.bus.registerBytes) :
    busTarget c addr len = .busError := by
  simp only [busTarget]
  rw [if_neg (by omega), if_neg]
  rintro ⟨hl, ha, hm⟩
  refine h3 ⟨⟨(addr - c.unitBase) / c.bus.registerBytes, Nat.div_lt_of_lt_mul (by omega)⟩, ?_, hl⟩
  have hd := Nat.div_add_mod (addr - c.unitBase) c.bus.registerBytes
  simp only
  omega

/-- An access that meets no byte of the window is outside it (R61). -/
theorem busTarget_outside (c : Config) (addr len : Nat)
    (h : addr + len ≤ c.unitBase ∨ c.unitBase + c.bus.registerBytes * 64 ≤ addr) :
    busTarget c addr len = .outside := by
  simp only [busTarget]
  rw [if_pos h]

/-- `byteRank` takes the byte offsets of a register to themselves, and is its own inverse. -/
theorem byteRank_involutive (b : BusBinding) (h1 : 1 ≤ b.busWordBytes) (hd : b.registerBytes % b.busWordBytes = 0)
    (j : Nat) (hj : j < b.registerBytes) : byteRank b j < b.registerBytes ∧ byteRank b (byteRank b j) = j := by
  unfold byteRank
  cases b.order with
  | littleEndian => exact ⟨hj, rfl⟩
  | bigEndian =>
    obtain ⟨q, hq⟩ := Nat.dvd_of_mod_eq_zero hd
    simp only
    rw [hq] at hj ⊢
    rw [Nat.mul_div_cancel_left _ (by omega)]
    generalize b.busWordBytes = w at *
    have hm := Nat.mod_lt j (show w > 0 by omega)
    have hjq : j / w < q := Nat.div_lt_of_lt_mul hj
    have he := Nat.div_add_mod j w
    generalize j / w = d at *
    rw [Nat.mul_comm (q - 1 - d) w, Nat.mul_add_div (by omega), Nat.div_eq_of_lt hm, Nat.mul_add_mod, Nat.mod_eq_of_lt hm]
    have hle : w * (q - 1 - d + 1) ≤ w * q := Nat.mul_le_mul_left _ (by omega)
    rw [Nat.mul_add, Nat.mul_one] at hle
    refine ⟨by omega, ?_⟩
    rw [Nat.add_zero, show q - 1 - (q - 1 - d) = d by omega, Nat.mul_comm d w, he]

/-- The number of n bytes that are those of v from byte k on. -/
theorem numberOfBytes_range (f : Nat → Byte) (v : Nat) : ∀ n k : Nat,
    (∀ j, k ≤ j → j < k + n → (f j).toNat = v / 2 ^ (8 * j) % 256) →
    numberOfBytes ((List.range' k n).map f) = v / 2 ^ (8 * k) % 2 ^ (8 * n) := by
  intro n
  induction n with
  | zero => intro k _; simp [numberOfBytes, Nat.mod_one]
  | succ n ih =>
    intro k h
    have hk := ih (k + 1) fun j h1 h2 => h j (by omega) (by omega)
    rw [List.range'_succ, List.map_cons]
    change (f k).toNat + 256 * numberOfBytes _ = _
    rw [hk, h k (by omega) (by omega), show 8 * (k + 1) = 8 * k + 8 by omega, Nat.pow_add, ← Nat.div_div_eq_div_mul,
      show 8 * (n + 1) = 8 + 8 * n by omega, Nat.pow_add, Nat.mod_mul]

/-- The byte at byte offset j of a register value. -/
theorem bytesOfWord_getElem? (b : BusBinding) (v : Word W) (j : Nat) (hj : j < b.registerBytes) :
    (bytesOfWord b v)[j]? = some (v.extractLsb' (8 * byteRank b j) 8) := by
  simp [bytesOfWord, hj]

/-- A register's bytes give the register back (R62). -/
theorem wordOfBytes_bytesOfWord (b : BusBinding) (h : b.allowed W = true) (v : Word W) :
    wordOfBytes W b (bytesOfWord b v) = v := by
  simp only [BusBinding.allowed, Bool.and_eq_true, decide_eq_true_eq, beq_iff_eq] at h
  obtain ⟨⟨hw, h1⟩, hd⟩ := h
  have hp : 2 ^ W ≤ 2 ^ (8 * b.registerBytes) := Nat.pow_le_pow_right (by decide) hw
  have hv := v.isLt
  apply BitVec.eq_of_toNat_eq
  unfold wordOfBytes
  rw [BitVec.toNat_ofNat, List.range_eq_range', numberOfBytes_range _ v.toNat]
  · rw [Nat.mul_zero, Nat.pow_zero, Nat.div_one, Nat.mod_eq_of_lt (lt_of_lt_of_le hv hp), Nat.mod_eq_of_lt hv]
  · intro j _ hj
    obtain ⟨hr, hrr⟩ := byteRank_involutive b h1 hd j (by omega)
    rw [List.getD_eq_getElem?_getD, bytesOfWord_getElem? b v _ hr, Option.getD_some, hrr, BitVec.extractLsb'_toNat,
      Nat.shiftRight_eq_div_pow]

end Sys2Proof.Machine
end

