-- ==== Sys2Proof/Laws/Words.lean ====
section
/-! SUPPORT. Registers read as integers, integers written to registers, and residues (00_scope.md R12, R13;
40_modular.md R101, R102), and the fields of a command word (30_encoding.md R80). -/

namespace Sys2Proof.Machine

variable {W : Nat}

/-- `sval` is the two's complement value. -/
theorem sval_eq_toInt (v : Word W) : sval v = v.toInt := by
  unfold sval uval
  rw [BitVec.toInt_eq_msb_cond, ← BitVec.msb_eq_getLsbD_last]
  split <;> simp_all

theorem sval_lower (v : Word W) : -2 ^ (W - 1) ≤ sval v := by
  rw [sval_eq_toInt]
  exact v.le_toInt

theorem sval_upper (v : Word W) : sval v < 2 ^ (W - 1) := by
  rw [sval_eq_toInt]
  exact v.toInt_lt

/-- `2^W` is twice `2^(W-1)` for `W >= 1`. -/
theorem two_pow_succ_pred (h : 1 ≤ W) : (2 : Int) ^ W = 2 * 2 ^ (W - 1) := by
  obtain ⟨k, rfl⟩ : ∃ k, W = k + 1 := ⟨W - 1, by omega⟩
  rw [Nat.add_sub_cancel, pow_succ, Int.mul_comm]

theorem two_pow_pred_le : (2 : Int) ^ (W - 1) ≤ 2 ^ W :=
  pow_le_pow_right₀ (by norm_num) (Nat.sub_le W 1)

theorem uval_nonneg (v : Word W) : 0 ≤ uval v := Int.natCast_nonneg _

theorem uval_upper (v : Word W) : uval v < 2 ^ W := by
  unfold uval
  exact_mod_cast v.isLt

theorem sval_lt_two_pow (v : Word W) : sval v < 2 ^ W := lt_of_lt_of_le (sval_upper v) two_pow_pred_le

/-- A non-negative `sval` is the `uval`. -/
theorem uval_of_sval_nonneg {v : Word W} (h : 0 ≤ sval v) : uval v = sval v := by
  have hu := uval_upper v
  unfold sval at *
  split <;> rename_i hb
  · rw [if_pos hb] at h
    omega
  · rfl

/-- "Every use of bits_W in this spec is on a value in `[0, 2^(W-1))`, so no wrap-around occurs" (R12). -/
theorem uval_bitsW {z : Int} (h0 : 0 ≤ z) (h1 : z < 2 ^ W) : uval (bitsW z : Word W) = z := by
  unfold uval bitsW
  rw [Int.emod_eq_of_lt h0 h1, BitVec.toNat_ofNat, Nat.mod_eq_of_lt (by zify; rwa [Int.toNat_of_nonneg h0]),
    Int.toNat_of_nonneg h0]

theorem bitsW_uval (v : Word W) : bitsW (uval v) = v := by
  apply BitVec.eq_of_toNat_eq
  have h := uval_bitsW (uval_nonneg v) (uval_upper v)
  unfold uval at h ⊢
  exact_mod_cast h

theorem bitsW_sval (v : Word W) : bitsW (sval v) = v := by
  unfold sval
  split
  · conv_rhs => rw [← bitsW_uval v]
    unfold bitsW
    rw [Int.sub_emod_right]
  · exact bitsW_uval v

/-- `cmod` is the residue in `[0, n)` (R101). -/
theorem cmod_eq_emod {n : Int} (hn : 0 < n) (x : Int) : cmod n x = x % n := by
  unfold cmod
  rw [Int.fdiv_eq_ediv_of_nonneg _ hn.le, Int.emod_def]

theorem cmod_nonneg {n : Int} (hn : 0 < n) (x : Int) : 0 ≤ cmod n x := by
  rw [cmod_eq_emod hn]
  exact Int.emod_nonneg _ hn.ne'

theorem cmod_lt {n : Int} (hn : 0 < n) (x : Int) : cmod n x < n := by
  rw [cmod_eq_emod hn]
  exact Int.emod_lt_of_pos _ hn

theorem canonical_iff (p : Int) (c : Point) :
    canonical p c = true ↔ (0 ≤ c.x ∧ c.x < p) ∧ (0 ≤ c.y ∧ c.y < p) := by
  simp [canonical, and_assoc]

/-- A canonical point is kept by a pair of registers. -/
theorem entryPoint_toEntry {p : Int} {c : Point} (hp : p ≤ 2 ^ W) (h : canonical p c = true) :
    entryPoint (c.toEntry : Word W × Word W) = c := by
  obtain ⟨⟨hx0, hx1⟩, hy0, hy1⟩ := (canonical_iff p c).mp h
  simp only [entryPoint, Point.toEntry]
  rw [uval_bitsW hx0 (by omega), uval_bitsW hy0 (by omega)]

theorem toEntry_entryPoint (e : Word W × Word W) : (entryPoint e).toEntry = e := by
  simp [entryPoint, Point.toEntry, bitsW_uval]

/-- The word of a command with OP `op` and T `t`, as a number (30_encoding.md R80). -/
theorem assembleFields_toNat (h : 32 ≤ W) (op : BitVec 8) (t : BitVec 1) :
    (assembleFields ({ op := op, t := t, rsv := 0, hi := 0 } : CommandFields W)).toNat = t.toNat * 2 ^ 8 + op.toNat := by
  have h1 := op.isLt
  have h2 := t.isLt
  have h3 : 2 ^ 32 ≤ 2 ^ W := Nat.pow_le_pow_right (by norm_num) h
  simp only [assembleFields, BitVec.toNat_setWidth, BitVec.toNat_append, BitVec.ofNat_eq_ofNat, BitVec.toNat_ofNat,
    Nat.zero_mod, Nat.zero_shiftLeft, Nat.zero_or]
  rw [← Nat.shiftLeft_add_eq_or_of_lt h1, Nat.shiftLeft_eq, Nat.mod_eq_of_lt (by omega)]

/-- A word with RSV and HI zero is read back as its fields. -/
theorem commandFields_assembleFields (h : 32 ≤ W) (op : BitVec 8) (t : BitVec 1) :
    commandFields (assembleFields ({ op := op, t := t, rsv := 0, hi := 0 } : CommandFields W)) =
      { op := op, t := t, rsv := 0, hi := 0 } := by
  have h1 := op.isLt
  have h2 := t.isLt
  have hn := assembleFields_toNat h op t
  generalize assembleFields _ = v at hn ⊢
  simp only [commandFields, CommandFields.mk.injEq]
  refine ⟨?_, ?_, ?_, ?_⟩
  all_goals
    apply BitVec.eq_of_toNat_eq
    simp only [BitVec.extractLsb'_toNat, hn, Nat.shiftRight_eq_div_pow, BitVec.ofNat_eq_ofNat, BitVec.toNat_ofNat]
  · omega
  · omega
  · omega
  · rw [Nat.div_eq_of_lt (by omega)]

end Sys2Proof.Machine
end

