-- ==== Sys2Proof/Laws/State.lean ====
section
/-! SUPPORT. The small lemmas of the state updates: what each shared operation does to each field. -/

namespace Sys2Proof.Machine

variable {W : Nat}

/-! ### complete -/

@[simp] theorem Ecmau.complete_cfg (s : Ecmau W) (c : ResultCode) : (s.complete c).cfg = s.cfg := rfl
@[simp] theorem Ecmau.complete_ie (s : Ecmau W) (c : ResultCode) : (s.complete c).ie = s.ie := rfl
@[simp] theorem Ecmau.complete_busy (s : Ecmau W) (c : ResultCode) : (s.complete c).busy = false := rfl
@[simp] theorem Ecmau.complete_done (s : Ecmau W) (c : ResultCode) : (s.complete c).done = true := rfl
@[simp] theorem Ecmau.complete_err (s : Ecmau W) (c : ResultCode) : (s.complete c).err = errAfter s.err c := rfl
@[simp] theorem Ecmau.complete_werr (s : Ecmau W) (c : ResultCode) : (s.complete c).werr = s.werr := rfl
@[simp] theorem Ecmau.complete_code (s : Ecmau W) (c : ResultCode) : (s.complete c).code = c := rfl
@[simp] theorem Ecmau.complete_regs (s : Ecmau W) (c : ResultCode) : (s.complete c).regs = s.regs := rfl
@[simp] theorem Ecmau.complete_tabA (s : Ecmau W) (c : ResultCode) : (s.complete c).tabA = s.tabA := rfl
@[simp] theorem Ecmau.complete_tabB (s : Ecmau W) (c : ResultCode) : (s.complete c).tabB = s.tabB := rfl
@[simp] theorem Ecmau.complete_inflight (s : Ecmau W) (c : ResultCode) : (s.complete c).inflight = none := rfl
@[simp] theorem Ecmau.complete_work (s : Ecmau W) (c : ResultCode) : (s.complete c).work = .idle := rfl
@[simp] theorem Ecmau.complete_events (s : Ecmau W) (c : ResultCode) : (s.complete c).events = s.events := rfl
@[simp] theorem Ecmau.complete_answers (s : Ecmau W) (c : ResultCode) : (s.complete c).answers = s.answers := rfl
@[simp] theorem Ecmau.complete_turns (s : Ecmau W) (c : ResultCode) : (s.complete c).turns = s.turns := rfl

/-- `raise` is `complete` for an error code (00_scope.md R14). -/
@[simp] theorem Ecmau.raise_eq (s : Ecmau W) (c : ResultCode) : s.raise c = s.complete c := rfl

/-! ### dropWrite and ackStatus -/

@[simp] theorem Ecmau.dropWrite_cfg (s : Ecmau W) : (s.dropWrite).cfg = s.cfg := rfl
@[simp] theorem Ecmau.dropWrite_ie (s : Ecmau W) : (s.dropWrite).ie = s.ie := rfl
@[simp] theorem Ecmau.dropWrite_busy (s : Ecmau W) : (s.dropWrite).busy = s.busy := rfl
@[simp] theorem Ecmau.dropWrite_done (s : Ecmau W) : (s.dropWrite).done = s.done := rfl
@[simp] theorem Ecmau.dropWrite_err (s : Ecmau W) : (s.dropWrite).err = s.err := rfl
@[simp] theorem Ecmau.dropWrite_werr (s : Ecmau W) : (s.dropWrite).werr = true := rfl
@[simp] theorem Ecmau.dropWrite_code (s : Ecmau W) : (s.dropWrite).code = s.code := rfl
@[simp] theorem Ecmau.dropWrite_regs (s : Ecmau W) : (s.dropWrite).regs = s.regs := rfl
@[simp] theorem Ecmau.dropWrite_tabA (s : Ecmau W) : (s.dropWrite).tabA = s.tabA := rfl
@[simp] theorem Ecmau.dropWrite_tabB (s : Ecmau W) : (s.dropWrite).tabB = s.tabB := rfl
@[simp] theorem Ecmau.dropWrite_inflight (s : Ecmau W) : (s.dropWrite).inflight = s.inflight := rfl
@[simp] theorem Ecmau.dropWrite_work (s : Ecmau W) : (s.dropWrite).work = s.work := rfl
@[simp] theorem Ecmau.dropWrite_events (s : Ecmau W) : (s.dropWrite).events = s.events := rfl
@[simp] theorem Ecmau.dropWrite_answers (s : Ecmau W) : (s.dropWrite).answers = s.answers := rfl
@[simp] theorem Ecmau.dropWrite_turns (s : Ecmau W) : (s.dropWrite).turns = s.turns := rfl
@[simp] theorem Ecmau.ackStatus_cfg (s : Ecmau W) (v : Word W) : (s.ackStatus v).cfg = s.cfg := rfl
@[simp] theorem Ecmau.ackStatus_ie (s : Ecmau W) (v : Word W) : (s.ackStatus v).ie = s.ie := rfl
@[simp] theorem Ecmau.ackStatus_busy (s : Ecmau W) (v : Word W) : (s.ackStatus v).busy = s.busy := rfl
@[simp] theorem Ecmau.ackStatus_done (s : Ecmau W) (v : Word W) : (s.ackStatus v).done = (s.done && !v.getLsbD 1) := rfl
@[simp] theorem Ecmau.ackStatus_err (s : Ecmau W) (v : Word W) : (s.ackStatus v).err = (s.err && !v.getLsbD 2) := rfl
@[simp] theorem Ecmau.ackStatus_werr (s : Ecmau W) (v : Word W) : (s.ackStatus v).werr = (s.werr && !v.getLsbD 3) := rfl
@[simp] theorem Ecmau.ackStatus_code (s : Ecmau W) (v : Word W) : (s.ackStatus v).code = s.code := rfl
@[simp] theorem Ecmau.ackStatus_regs (s : Ecmau W) (v : Word W) : (s.ackStatus v).regs = s.regs := rfl
@[simp] theorem Ecmau.ackStatus_tabA (s : Ecmau W) (v : Word W) : (s.ackStatus v).tabA = s.tabA := rfl
@[simp] theorem Ecmau.ackStatus_tabB (s : Ecmau W) (v : Word W) : (s.ackStatus v).tabB = s.tabB := rfl
@[simp] theorem Ecmau.ackStatus_inflight (s : Ecmau W) (v : Word W) : (s.ackStatus v).inflight = s.inflight := rfl
@[simp] theorem Ecmau.ackStatus_work (s : Ecmau W) (v : Word W) : (s.ackStatus v).work = s.work := rfl
@[simp] theorem Ecmau.ackStatus_events (s : Ecmau W) (v : Word W) : (s.ackStatus v).events = s.events := rfl
@[simp] theorem Ecmau.ackStatus_answers (s : Ecmau W) (v : Word W) : (s.ackStatus v).answers = s.answers := rfl
@[simp] theorem Ecmau.ackStatus_turns (s : Ecmau W) (v : Word W) : (s.ackStatus v).turns = s.turns := rfl

/-! ### toReset -/

@[simp] theorem Ecmau.toReset_cfg (s : Ecmau W) : (s.toReset).cfg = s.cfg := rfl
@[simp] theorem Ecmau.toReset_ie (s : Ecmau W) : (s.toReset).ie = false := rfl
@[simp] theorem Ecmau.toReset_busy (s : Ecmau W) : (s.toReset).busy = false := rfl
@[simp] theorem Ecmau.toReset_done (s : Ecmau W) : (s.toReset).done = false := rfl
@[simp] theorem Ecmau.toReset_err (s : Ecmau W) : (s.toReset).err = false := rfl
@[simp] theorem Ecmau.toReset_werr (s : Ecmau W) : (s.toReset).werr = false := rfl
@[simp] theorem Ecmau.toReset_code (s : Ecmau W) : (s.toReset).code = .ok := rfl
@[simp] theorem Ecmau.toReset_regs (s : Ecmau W) : (s.toReset).regs = DataRegs.reset W := rfl
@[simp] theorem Ecmau.toReset_tabA (s : Ecmau W) : (s.toReset).tabA = s.tabA.invalidate := rfl
@[simp] theorem Ecmau.toReset_tabB (s : Ecmau W) : (s.toReset).tabB = s.tabB.invalidate := rfl
@[simp] theorem Ecmau.toReset_inflight (s : Ecmau W) : (s.toReset).inflight = none := rfl
@[simp] theorem Ecmau.toReset_work (s : Ecmau W) : (s.toReset).work = .idle := rfl
@[simp] theorem Ecmau.toReset_events (s : Ecmau W) : (s.toReset).events = s.events := rfl
@[simp] theorem Ecmau.toReset_answers (s : Ecmau W) : (s.toReset).answers = s.answers := rfl
@[simp] theorem Ecmau.toReset_turns (s : Ecmau W) : (s.toReset).turns = s.turns := rfl

@[simp] theorem Ecmau.hardReset_eq (s : Ecmau W) : s.hardReset = s.toReset := rfl
@[simp] theorem Ecmau.softReset_eq (s : Ecmau W) : s.softReset = s.toReset := rfl

/-! ### Tables -/

@[simp] theorem Ecmau.table_A (s : Ecmau W) : s.table .A = s.tabA := rfl
@[simp] theorem Ecmau.table_B (s : Ecmau W) : s.table .B = s.tabB := rfl
@[simp] theorem Ecmau.setTable_table_self (s : Ecmau W) (t : TableSel) (tab : Table W) : (s.setTable t tab).table t = tab := by
  cases t <;> rfl
@[simp] theorem Ecmau.setTable_table_other (s : Ecmau W) (t : TableSel) (tab : Table W) :
    (s.setTable t tab).table (otherTable t) = s.table (otherTable t) := by
  cases t <;> rfl
@[simp] theorem Table.invalidate_valid (t : Table W) : t.invalidate.valid = false := rfl
@[simp] theorem Table.invalidate_order (t : Table W) : t.invalidate.order = 0 := rfl
@[simp] theorem Table.invalidate_gx (t : Table W) : t.invalidate.gx = 0 := rfl
@[simp] theorem Table.invalidate_gy (t : Table W) : t.invalidate.gy = 0 := rfl
@[simp] theorem Table.invalidate_entries (t : Table W) : t.invalidate.entries = [] := rfl
@[simp] theorem Table.invalidate_epoch (t : Table W) : t.invalidate.epoch = t.epoch + 1 := rfl
@[simp] theorem Ecmau.complete_table (s : Ecmau W) (c : ResultCode) (t : TableSel) : (s.complete c).table t = s.table t := by
  cases t <;> rfl
@[simp] theorem Ecmau.dropWrite_table (s : Ecmau W) (t : TableSel) : s.dropWrite.table t = s.table t := by
  cases t <;> rfl
@[simp] theorem Ecmau.ackStatus_table (s : Ecmau W) (v : Word W) (t : TableSel) : (s.ackStatus v).table t = s.table t := by
  cases t <;> rfl
@[simp] theorem Ecmau.toReset_table (s : Ecmau W) (t : TableSel) : s.toReset.table t = (s.table t).invalidate := by
  cases t <;> rfl

@[simp] theorem Ecmau.setTable_cfg (s : Ecmau W) (t : TableSel) (tab : Table W) : (s.setTable t tab).cfg = s.cfg := by cases t <;> rfl
@[simp] theorem Ecmau.setTable_ie (s : Ecmau W) (t : TableSel) (tab : Table W) : (s.setTable t tab).ie = s.ie := by cases t <;> rfl
@[simp] theorem Ecmau.setTable_busy (s : Ecmau W) (t : TableSel) (tab : Table W) : (s.setTable t tab).busy = s.busy := by cases t <;> rfl
@[simp] theorem Ecmau.setTable_done (s : Ecmau W) (t : TableSel) (tab : Table W) : (s.setTable t tab).done = s.done := by cases t <;> rfl
@[simp] theorem Ecmau.setTable_err (s : Ecmau W) (t : TableSel) (tab : Table W) : (s.setTable t tab).err = s.err := by cases t <;> rfl
@[simp] theorem Ecmau.setTable_werr (s : Ecmau W) (t : TableSel) (tab : Table W) : (s.setTable t tab).werr = s.werr := by cases t <;> rfl
@[simp] theorem Ecmau.setTable_code (s : Ecmau W) (t : TableSel) (tab : Table W) : (s.setTable t tab).code = s.code := by cases t <;> rfl
@[simp] theorem Ecmau.setTable_regs (s : Ecmau W) (t : TableSel) (tab : Table W) : (s.setTable t tab).regs = s.regs := by cases t <;> rfl
@[simp] theorem Ecmau.setTable_inflight (s : Ecmau W) (t : TableSel) (tab : Table W) : (s.setTable t tab).inflight = s.inflight := by cases t <;> rfl
@[simp] theorem Ecmau.setTable_work (s : Ecmau W) (t : TableSel) (tab : Table W) : (s.setTable t tab).work = s.work := by cases t <;> rfl
@[simp] theorem Ecmau.setTable_events (s : Ecmau W) (t : TableSel) (tab : Table W) : (s.setTable t tab).events = s.events := by cases t <;> rfl
@[simp] theorem Ecmau.setTable_answers (s : Ecmau W) (t : TableSel) (tab : Table W) : (s.setTable t tab).answers = s.answers := by cases t <;> rfl
@[simp] theorem Ecmau.setTable_turns (s : Ecmau W) (t : TableSel) (tab : Table W) : (s.setTable t tab).turns = s.turns := by cases t <;> rfl

@[simp] theorem Ecmau.invalidate_cfg (s : Ecmau W) (t : TableSel) : (s.invalidate t).cfg = s.cfg := by cases t <;> rfl
@[simp] theorem Ecmau.invalidate_ie (s : Ecmau W) (t : TableSel) : (s.invalidate t).ie = s.ie := by cases t <;> rfl
@[simp] theorem Ecmau.invalidate_busy (s : Ecmau W) (t : TableSel) : (s.invalidate t).busy = s.busy := by cases t <;> rfl
@[simp] theorem Ecmau.invalidate_done (s : Ecmau W) (t : TableSel) : (s.invalidate t).done = s.done := by cases t <;> rfl
@[simp] theorem Ecmau.invalidate_err (s : Ecmau W) (t : TableSel) : (s.invalidate t).err = s.err := by cases t <;> rfl
@[simp] theorem Ecmau.invalidate_werr (s : Ecmau W) (t : TableSel) : (s.invalidate t).werr = s.werr := by cases t <;> rfl
@[simp] theorem Ecmau.invalidate_code (s : Ecmau W) (t : TableSel) : (s.invalidate t).code = s.code := by cases t <;> rfl
@[simp] theorem Ecmau.invalidate_regs (s : Ecmau W) (t : TableSel) : (s.invalidate t).regs = s.regs := by cases t <;> rfl
@[simp] theorem Ecmau.invalidate_inflight (s : Ecmau W) (t : TableSel) : (s.invalidate t).inflight = s.inflight := by cases t <;> rfl
@[simp] theorem Ecmau.invalidate_work (s : Ecmau W) (t : TableSel) : (s.invalidate t).work = s.work := by cases t <;> rfl
@[simp] theorem Ecmau.invalidate_events (s : Ecmau W) (t : TableSel) : (s.invalidate t).events = s.events := by cases t <;> rfl
@[simp] theorem Ecmau.invalidate_answers (s : Ecmau W) (t : TableSel) : (s.invalidate t).answers = s.answers := by cases t <;> rfl
@[simp] theorem Ecmau.invalidate_turns (s : Ecmau W) (t : TableSel) : (s.invalidate t).turns = s.turns := by cases t <;> rfl
@[simp] theorem Ecmau.invalidate_table_self (s : Ecmau W) (t : TableSel) :
    (s.invalidate t).table t = (s.table t).invalidate := by
  cases t <;> rfl
@[simp] theorem Ecmau.invalidate_table_other (s : Ecmau W) (t : TableSel) :
    (s.invalidate t).table (otherTable t) = s.table (otherTable t) := by
  cases t <;> rfl

/-! ### issue -/

/-- What issue does to the tables: nothing, or the invalidation of the table a TBUILD names (42_table.md R151). -/
theorem Ecmau.issueInvalidate_cases (s : Ecmau W) (v : Word W) :
    (s.issueInvalidate v = s ∧ ∀ t, decode v ≠ .ok (tbuildOf t)) ∨
      ∃ t, decode v = .ok (tbuildOf t) ∧ s.issueInvalidate v = s.invalidate t := by
  unfold Ecmau.issueInvalidate
  cases h : decode v with
  | error e => exact .inl ⟨rfl, fun t => by simp⟩
  | ok i =>
    cases i <;> simp only [buildTarget] <;>
      first
        | exact .inr ⟨.A, rfl, rfl⟩
        | exact .inr ⟨.B, rfl, rfl⟩
        | exact .inl ⟨trivial, fun t => by cases t <;> simp [tbuildOf]⟩

@[simp] theorem Ecmau.issueInvalidate_cfg (s : Ecmau W) (v : Word W) : (s.issueInvalidate v).cfg = s.cfg := by
  obtain ⟨h, -⟩ | ⟨t, -, h⟩ := s.issueInvalidate_cases v <;> simp [h]
@[simp] theorem Ecmau.issueInvalidate_ie (s : Ecmau W) (v : Word W) : (s.issueInvalidate v).ie = s.ie := by
  obtain ⟨h, -⟩ | ⟨t, -, h⟩ := s.issueInvalidate_cases v <;> simp [h]
@[simp] theorem Ecmau.issueInvalidate_busy (s : Ecmau W) (v : Word W) : (s.issueInvalidate v).busy = s.busy := by
  obtain ⟨h, -⟩ | ⟨t, -, h⟩ := s.issueInvalidate_cases v <;> simp [h]
@[simp] theorem Ecmau.issueInvalidate_done (s : Ecmau W) (v : Word W) : (s.issueInvalidate v).done = s.done := by
  obtain ⟨h, -⟩ | ⟨t, -, h⟩ := s.issueInvalidate_cases v <;> simp [h]
@[simp] theorem Ecmau.issueInvalidate_err (s : Ecmau W) (v : Word W) : (s.issueInvalidate v).err = s.err := by
  obtain ⟨h, -⟩ | ⟨t, -, h⟩ := s.issueInvalidate_cases v <;> simp [h]
@[simp] theorem Ecmau.issueInvalidate_werr (s : Ecmau W) (v : Word W) : (s.issueInvalidate v).werr = s.werr := by
  obtain ⟨h, -⟩ | ⟨t, -, h⟩ := s.issueInvalidate_cases v <;> simp [h]
@[simp] theorem Ecmau.issueInvalidate_code (s : Ecmau W) (v : Word W) : (s.issueInvalidate v).code = s.code := by
  obtain ⟨h, -⟩ | ⟨t, -, h⟩ := s.issueInvalidate_cases v <;> simp [h]
@[simp] theorem Ecmau.issueInvalidate_regs (s : Ecmau W) (v : Word W) : (s.issueInvalidate v).regs = s.regs := by
  obtain ⟨h, -⟩ | ⟨t, -, h⟩ := s.issueInvalidate_cases v <;> simp [h]
@[simp] theorem Ecmau.issueInvalidate_inflight (s : Ecmau W) (v : Word W) : (s.issueInvalidate v).inflight = s.inflight := by
  obtain ⟨h, -⟩ | ⟨t, -, h⟩ := s.issueInvalidate_cases v <;> simp [h]
@[simp] theorem Ecmau.issueInvalidate_work (s : Ecmau W) (v : Word W) : (s.issueInvalidate v).work = s.work := by
  obtain ⟨h, -⟩ | ⟨t, -, h⟩ := s.issueInvalidate_cases v <;> simp [h]
@[simp] theorem Ecmau.issueInvalidate_events (s : Ecmau W) (v : Word W) : (s.issueInvalidate v).events = s.events := by
  obtain ⟨h, -⟩ | ⟨t, -, h⟩ := s.issueInvalidate_cases v <;> simp [h]
@[simp] theorem Ecmau.issueInvalidate_answers (s : Ecmau W) (v : Word W) : (s.issueInvalidate v).answers = s.answers := by
  obtain ⟨h, -⟩ | ⟨t, -, h⟩ := s.issueInvalidate_cases v <;> simp [h]
@[simp] theorem Ecmau.issueInvalidate_turns (s : Ecmau W) (v : Word W) : (s.issueInvalidate v).turns = s.turns := by
  obtain ⟨h, -⟩ | ⟨t, -, h⟩ := s.issueInvalidate_cases v <;> simp [h]

@[simp] theorem Ecmau.issue_cfg (s : Ecmau W) (v : Word W) : (s.issue v).cfg = s.cfg := by simp [Ecmau.issue]
@[simp] theorem Ecmau.issue_ie (s : Ecmau W) (v : Word W) : (s.issue v).ie = s.ie := by simp [Ecmau.issue]
@[simp] theorem Ecmau.issue_busy (s : Ecmau W) (v : Word W) : (s.issue v).busy = true := by simp [Ecmau.issue]
@[simp] theorem Ecmau.issue_done (s : Ecmau W) (v : Word W) : (s.issue v).done = false := by simp [Ecmau.issue]
@[simp] theorem Ecmau.issue_err (s : Ecmau W) (v : Word W) : (s.issue v).err = s.err := by simp [Ecmau.issue]
@[simp] theorem Ecmau.issue_werr (s : Ecmau W) (v : Word W) : (s.issue v).werr = s.werr := by simp [Ecmau.issue]
@[simp] theorem Ecmau.issue_code (s : Ecmau W) (v : Word W) : (s.issue v).code = s.code := by simp [Ecmau.issue]
@[simp] theorem Ecmau.issue_regs (s : Ecmau W) (v : Word W) : (s.issue v).regs = s.regs := by simp [Ecmau.issue]
@[simp] theorem Ecmau.issue_inflight (s : Ecmau W) (v : Word W) : (s.issue v).inflight = some v := by simp [Ecmau.issue]
@[simp] theorem Ecmau.issue_work (s : Ecmau W) (v : Word W) : (s.issue v).work = .idle := by simp [Ecmau.issue]
@[simp] theorem Ecmau.issue_events (s : Ecmau W) (v : Word W) : (s.issue v).events = s.events := by simp [Ecmau.issue]
@[simp] theorem Ecmau.issue_answers (s : Ecmau W) (v : Word W) : (s.issue v).answers = s.answers := by simp [Ecmau.issue]
@[simp] theorem Ecmau.issue_turns (s : Ecmau W) (v : Word W) : (s.issue v).turns = s.turns := by simp [Ecmau.issue]

/-- A table after the issue of a command word. -/
theorem Ecmau.issue_table (s : Ecmau W) (v : Word W) (t : TableSel) :
    (s.issue v).table t = (s.issueInvalidate v).table t := by
  cases t <;> rfl

/-! ### The tables of a state whose other fields change -/

@[simp] theorem Ecmau.table_with_turns (s : Ecmau W) (ts : List Turn) (t : TableSel) :
    ({ s with turns := ts } : Ecmau W).table t = s.table t := by
  cases t <;> rfl
@[simp] theorem Ecmau.table_with_events (s : Ecmau W) (es : List (Event W)) (t : TableSel) :
    ({ s with events := es } : Ecmau W).table t = s.table t := by
  cases t <;> rfl
@[simp] theorem Ecmau.table_with_work (s : Ecmau W) (w : Work) (t : TableSel) :
    ({ s with work := w } : Ecmau W).table t = s.table t := by
  cases t <;> rfl
@[simp] theorem Ecmau.table_with_regs (s : Ecmau W) (r : DataRegs W) (t : TableSel) :
    ({ s with regs := r } : Ecmau W).table t = s.table t := by
  cases t <;> rfl
@[simp] theorem Ecmau.table_with_ie (s : Ecmau W) (b : Bool) (t : TableSel) :
    ({ s with ie := b } : Ecmau W).table t = s.table t := by
  cases t <;> rfl
@[simp] theorem Ecmau.table_with_answers (s : Ecmau W) (l : List (Answer W)) (t : TableSel) :
    ({ s with answers := l } : Ecmau W).table t = s.table t := by
  cases t <;> rfl

/-! ### withTurns -/

@[simp] theorem Ecmau.withTurns_cfg (s : Ecmau W) (ts : List Turn) : (s.withTurns ts).cfg = s.cfg := rfl
@[simp] theorem Ecmau.withTurns_ie (s : Ecmau W) (ts : List Turn) : (s.withTurns ts).ie = s.ie := rfl
@[simp] theorem Ecmau.withTurns_busy (s : Ecmau W) (ts : List Turn) : (s.withTurns ts).busy = s.busy := rfl
@[simp] theorem Ecmau.withTurns_done (s : Ecmau W) (ts : List Turn) : (s.withTurns ts).done = s.done := rfl
@[simp] theorem Ecmau.withTurns_err (s : Ecmau W) (ts : List Turn) : (s.withTurns ts).err = s.err := rfl
@[simp] theorem Ecmau.withTurns_werr (s : Ecmau W) (ts : List Turn) : (s.withTurns ts).werr = s.werr := rfl
@[simp] theorem Ecmau.withTurns_code (s : Ecmau W) (ts : List Turn) : (s.withTurns ts).code = s.code := rfl
@[simp] theorem Ecmau.withTurns_regs (s : Ecmau W) (ts : List Turn) : (s.withTurns ts).regs = s.regs := rfl
@[simp] theorem Ecmau.withTurns_tabA (s : Ecmau W) (ts : List Turn) : (s.withTurns ts).tabA = s.tabA := rfl
@[simp] theorem Ecmau.withTurns_tabB (s : Ecmau W) (ts : List Turn) : (s.withTurns ts).tabB = s.tabB := rfl
@[simp] theorem Ecmau.withTurns_inflight (s : Ecmau W) (ts : List Turn) : (s.withTurns ts).inflight = s.inflight := rfl
@[simp] theorem Ecmau.withTurns_work (s : Ecmau W) (ts : List Turn) : (s.withTurns ts).work = s.work := rfl
@[simp] theorem Ecmau.withTurns_events (s : Ecmau W) (ts : List Turn) : (s.withTurns ts).events = s.events := rfl
@[simp] theorem Ecmau.withTurns_answers (s : Ecmau W) (ts : List Turn) : (s.withTurns ts).answers = s.answers := rfl
@[simp] theorem Ecmau.withTurns_turns (s : Ecmau W) (ts : List Turn) : (s.withTurns ts).turns = ts := rfl

/-! ### packOutcome -/

@[simp] theorem packOutcome_next (u : Ecmau W) : packOutcome (.next u) = .next u.pack := rfl
@[simp] theorem packOutcome_fault (r : Fault) : packOutcome (.fault r : Host.Outcome (Ecmau W) Fault Refusal) = .fault r := rfl
@[simp] theorem packOutcome_refused (r : Refusal) :
    packOutcome (.refused r : Host.Outcome (Ecmau W) Fault Refusal) = .refused r := rfl

/-- An outcome of the machine that goes on is one of its ECMAU that goes on. -/
theorem packOutcome_eq_next {o : Host.Outcome (Ecmau W) Fault Refusal} {t : Ecmau W}
    (h : packOutcome o = .next t.pack) : o = .next t := by
  cases o <;> simp_all [packOutcome]

end Sys2Proof.Machine
end

