-- ==== Sys2Proof/Laws/Loops.lean ====
section
/-! SUPPORT. The loops of MINV and TBUILD: the bound on their passes is never reached (log 14), and what one pass
does (40_modular.md R103, R104; 42_table.md R152). -/

namespace Sys2Proof.Machine

variable {W : Nat}

/-! ### MINV -/

/-- One division step leaves the remainder of r0 by r1, below r1 (R104). -/
theorem minvPass_r1 {w : MinvWork} (h : 0 < w.r1) : (minvPass w).r1 = w.r0 % w.r1 := by
  simp only [minvPass]
  rw [Int.fdiv_eq_ediv_of_nonneg _ h.le, Int.emod_def, Int.mul_comm]

theorem minvPass_r0 (w : MinvWork) : (minvPass w).r0 = w.r1 := rfl

theorem minvPass_t0 (w : MinvWork) : (minvPass w).t0 = w.t1 := rfl

theorem minvPass_t1 {w : MinvWork} (h : 0 < w.r1) : (minvPass w).t1 = w.t0 - w.r0 / w.r1 * w.t1 := by
  simp only [minvPass]
  rw [Int.fdiv_eq_ediv_of_nonneg _ h.le]

theorem minvPass_r1_bounds {w : MinvWork} (h : 0 < w.r1) : 0 ≤ (minvPass w).r1 ∧ (minvPass w).r1 < w.r1 := by
  rw [minvPass_r1 h]
  exact ⟨Int.emod_nonneg _ h.ne', Int.emod_lt_of_pos _ h⟩

/-- Any number of tests above r1 gives what `finishMinv` gives. -/
theorem minvLoop_eq_finishMinv (n : Int) :
    ∀ (f : Nat) (w : MinvWork), 0 ≤ w.r1 → w.r1.toNat < f → minvLoop n f w = finishMinv n w := by
  have key : ∀ (m f g : Nat) (w : MinvWork), w.r1.toNat ≤ m → 0 ≤ w.r1 → w.r1.toNat < f → w.r1.toNat < g →
      minvLoop n f w = minvLoop n g w := by
    intro m
    induction m with
    | zero =>
      intro f g w hm h0 hf hg
      have hr : w.r1 = 0 := by omega
      obtain ⟨f, rfl⟩ : ∃ k, f = k + 1 := ⟨f - 1, by omega⟩
      obtain ⟨g, rfl⟩ : ∃ k, g = k + 1 := ⟨g - 1, by omega⟩
      simp [minvLoop, hr]
    | succ m ih =>
      intro f g w hm h0 hf hg
      obtain ⟨f, rfl⟩ : ∃ k, f = k + 1 := ⟨f - 1, by omega⟩
      obtain ⟨g, rfl⟩ : ∃ k, g = k + 1 := ⟨g - 1, by omega⟩
      simp only [minvLoop]
      split
      · rfl
      · split
        · rfl
        · obtain ⟨b0, b1⟩ := minvPass_r1_bounds (w := w) (by omega)
          exact ih f g (minvPass w) (by omega) b0 (by omega) (by omega)
  intro f w h0 hf
  exact key w.r1.toNat f _ w le_rfl h0 hf (by omega)

/-! ### The group law -/

/-- A point of the group law's outcome is canonical. -/
theorem slopePoint_canonical {p num den : Int} {c1 c2 c : Point} (hp : 0 < p)
    (h : slopePoint p num den c1 c2 = .sum c) : canonical p c = true := by
  unfold slopePoint at h
  split at h
  · cases h
  · cases h
    exact (canonical_iff _ _).mpr ⟨⟨cmod_nonneg hp _, cmod_lt hp _⟩, cmod_nonneg hp _, cmod_lt hp _⟩

theorem paddCore_canonical {p a : Int} {c1 c2 c : Point} (hp : 0 < p) (h : paddCore p a c1 c2 = .sum c) :
    canonical p c = true := by
  unfold paddCore at h
  split at h
  · split at h
    · exact slopePoint_canonical hp h
    · cases h
  · exact slopePoint_canonical hp h

/-! ### Multiples and the build loop -/

theorem multiple_succ (p a : Int) (g : Point) {k : Nat} (hk : 1 ≤ k) :
    multiple p a g (k + 1) =
      match multiple p a g k with
      | none => none
      | some c =>
        match paddCore p a c g with
        | .sum c' => some c'
        | .identity => none
        | .noInverse => none := by
  obtain ⟨j, rfl⟩ : ∃ j, k = j + 1 := ⟨k - 1, by omega⟩
  rfl

/-- Every multiple of a canonical generator is canonical. -/
theorem multiple_canonical {p a : Int} {g : Point} (hp : 0 < p) (hg : canonical p g = true) :
    ∀ {k : Nat} {c : Point}, multiple p a g k = some c → canonical p c = true := by
  intro k
  match k with
  | 0 => intro c h; cases h
  | 1 => intro c h; cases h; exact hg
  | j + 2 =>
    intro c h
    rw [multiple_succ p a g (by omega : 1 ≤ j + 1)] at h
    split at h
    · cases h
    · split at h
      · rename_i h2
        cases h
        exact paddCore_canonical hp h2
      · cases h
      · cases h

/-- A multiple is defined only where the one before it is. -/
theorem multiple_pred {p a : Int} {g : Point} {k : Nat} (hk : 1 ≤ k) {c : Point}
    (h : multiple p a g (k + 1) = some c) :
    ∃ b, multiple p a g k = some b ∧ paddCore p a b g = .sum c := by
  rw [multiple_succ p a g hk] at h
  split at h
  · cases h
  · split at h
    · rename_i h2
      cases h
      exact ⟨_, by assumption, h2⟩
    · cases h
    · cases h

/-- A pass that goes on adds one entry, raises `order` by one and stays within N_TAB and the cap (R154). -/
theorem buildPass_more {nTab : Nat} {p a : Int} {g : Point} {w w' : BuildWork}
    (h : buildPass nTab p a g w = .more w') :
    w.order + 1 ≤ 2 * p + 1 ∧ w.order + 1 ≤ nTab ∧ paddCore p a w.cur g = .sum w'.cur ∧
      w' = { cur := w'.cur, order := w.order + 1, entries := w.entries ++ [w'.cur] } := by
  unfold buildPass at h
  simp only at h
  split at h
  · cases h
  · split at h
    · cases h
    · cases h
    · split at h
      · cases h
      · cases h
        exact ⟨by omega, by omega, by assumption, rfl⟩

/-- The values the build loop starts from are as its invariant says. -/
theorem startBuild_ok {nTab : Nat} {p a : Int} {g : Point} (h1 : 1 ≤ nTab) (hp : 0 < p) :
    BuildWorkOk nTab p a g (startBuild g) := by
  refine ⟨by simp [startBuild], by simp [startBuild]; omega, by simp [startBuild]; omega, by simp [startBuild], ?_, rfl⟩
  intro k h1 h2
  simp [startBuild] at h2
  obtain rfl : k = 1 := by omega
  rfl

/-- A pass that goes on keeps the invariant of the build loop. -/
theorem buildPass_ok {nTab : Nat} {p a : Int} {g : Point} {w w' : BuildWork} (h : BuildWorkOk nTab p a g w)
    (hm : buildPass nTab p a g w = .more w') : BuildWorkOk nTab p a g w' := by
  obtain ⟨h1, h2, h3, h4⟩ := buildPass_more hm
  have hpos := h.positive
  have hl := h.listed
  have hnat : w.order.toNat = w.entries.length := by omega
  have e1 : w'.order = w.order + 1 := by rw [h4]
  have e2 : w'.entries = w.entries ++ [w'.cur] := by rw [h4]
  have hr : multiple p a g (w.order.toNat + 1) = some w'.cur := by
    rw [multiple_succ p a g (by omega), h.running]
    simp only [h3]
  refine ⟨by omega, by omega, by omega, by rw [e2, e1]; simp; omega, ?_, ?_⟩
  · intro k hk1 hk2
    rw [e2] at hk2 ⊢
    simp at hk2
    by_cases hk : k ≤ w.entries.length
    · rw [List.getElem?_append_left (by omega)]
      exact h.multiples k hk1 hk
    · obtain rfl : k = w.entries.length + 1 := by omega
      rw [← hnat, hr, hnat]
      simp
  · rw [e1, show (w.order + 1).toNat = w.order.toNat + 1 by omega]
    exact hr

/-- Any number of passes above N_TAB + 1 - order gives what `finishBuild` gives. -/
theorem buildLoop_eq_finishBuild (nTab : Nat) (p a : Int) (g : Point) :
    ∀ (f : Nat) (w : BuildWork), (nTab + 1 - w.order).toNat < f →
      buildLoop nTab p a g f w = finishBuild nTab p a g w := by
  have key : ∀ (m f f' : Nat) (w : BuildWork), (nTab + 1 - w.order).toNat ≤ m →
      (nTab + 1 - w.order).toNat < f → (nTab + 1 - w.order).toNat < f' →
      buildLoop nTab p a g f w = buildLoop nTab p a g f' w := by
    intro m
    induction m with
    | zero =>
      intro f f' w hm hf hf'
      obtain ⟨f, rfl⟩ : ∃ k, f = k + 1 := ⟨f - 1, by omega⟩
      obtain ⟨f', rfl⟩ : ∃ k, f' = k + 1 := ⟨f' - 1, by omega⟩
      simp only [buildLoop]
      split
      · rename_i h
        obtain ⟨-, h2, -⟩ := buildPass_more h
        omega
      · rfl
    | succ m ih =>
      intro f f' w hm hf hf'
      obtain ⟨f, rfl⟩ : ∃ k, f = k + 1 := ⟨f - 1, by omega⟩
      obtain ⟨f', rfl⟩ : ∃ k, f' = k + 1 := ⟨f' - 1, by omega⟩
      simp only [buildLoop]
      split
      · rename_i w' h
        obtain ⟨-, h2, -, h4⟩ := buildPass_more h
        have ho : w'.order = w.order + 1 := by rw [h4]
        exact ih f f' w' (by omega) (by omega) (by omega)
      · rfl
  intro f w hf
  exact key _ f _ w le_rfl hf (by omega)

end Sys2Proof.Machine
end

