-- ==== Sys2Proof/Laws/Ops.lean ====
section
/-! SUPPORT. One lemma per shared operation: everything it can do. -/

namespace Sys2Proof.Machine

variable {W : Nat}

/-! ### Completion (43_control.md R183) -/

theorem complete_completes (s : Ecmau W) (c : ResultCode) : CompletesBare s (s.complete c) c :=
  ⟨rfl, rfl, rfl, rfl, rfl, rfl, rfl, rfl, rfl, rfl, rfl, rfl, rfl, rfl, rfl⟩

theorem complete_regs_completes (s : Ecmau W) (regs : DataRegs W) (c : ResultCode) :
    Completes s (({ s with regs := regs } : Ecmau W).complete c) c regs s.tabA s.tabB :=
  ⟨rfl, rfl, rfl, rfl, rfl, rfl, rfl, rfl, rfl, rfl, rfl, rfl, rfl, rfl, rfl⟩

theorem complete_table_completes (s : Ecmau W) (t : TableSel) (tab : Table W) (c : ResultCode) :
    Completes s ((s.setTable t tab).complete c) c s.regs (s.setTable t tab).tabA (s.setTable t tab).tabB := by
  cases t <;> exact ⟨rfl, rfl, rfl, rfl, rfl, rfl, rfl, rfl, rfl, rfl, rfl, rfl, rfl, rfl, rfl⟩

/-- What a scalar command can do (40_modular.md R100). -/
theorem scalar_cases (s : Ecmau W) (f : Int → Option Int) :
    (s.opN ≤ 0 ∧ s.scalar f = s.complete .badModulus) ∨
    (0 < s.opN ∧ f s.opN = none ∧ s.scalar f = s.complete .noInverse) ∨
    ∃ y, 0 < s.opN ∧ f s.opN = some y ∧
      s.scalar f = ({ s with regs := { s.regs with r := bitsW y } } : Ecmau W).complete .ok := by
  unfold Ecmau.scalar
  split
  · exact .inl ⟨by assumption, rfl⟩
  · split
    · exact .inr (.inl ⟨by omega, by assumption, rfl⟩)
    · exact .inr (.inr ⟨_, by omega, by assumption, rfl⟩)

/-- What the completion of PADD can do once its checks passed (41_point.md R131). -/
theorem completePadd_cases (s : Ecmau W) (r : PaddResult) :
    (r = .identity ∧ s.completePadd r = s.complete .identity) ∨
    (r = .noInverse ∧ s.completePadd r = s.complete .noInverse) ∨
    ∃ c, r = .sum c ∧
      s.completePadd r = ({ s with regs := { s.regs with rx := bitsW c.x, ry := bitsW c.y } } : Ecmau W).complete .ok := by
  cases r with
  | sum c => exact .inr (.inr ⟨c, rfl, rfl⟩)
  | identity => exact .inl ⟨rfl, rfl⟩
  | noInverse => exact .inr (.inl ⟨rfl, rfl⟩)

/-- What PADD can do (R131). -/
theorem padd_cases (s : Ecmau W) :
    (s.opP ≤ 0 ∧ s.padd = s.complete .badModulus) ∨
    (0 < s.opP ∧ (canonical s.opP s.opPoint1 && canonical s.opP s.opPoint2) = false ∧ s.padd = s.complete .nonCanon) ∨
    (0 < s.opP ∧ canonical s.opP s.opPoint1 = true ∧ canonical s.opP s.opPoint2 = true ∧
      s.padd = s.completePadd (paddCore s.opP s.opA s.opPoint1 s.opPoint2)) := by
  unfold Ecmau.padd
  split
  · exact .inl ⟨by assumption, rfl⟩
  · split
    · rename_i h
      rw [Bool.not_eq_true'] at h
      exact .inr (.inl ⟨by omega, h, rfl⟩)
    · rename_i h
      simp only [Bool.not_eq_true', Bool.not_eq_false, Bool.and_eq_true] at h
      exact .inr (.inr ⟨by omega, h.1, h.2, rfl⟩)

/-- What TBUILD.t can do (42_table.md R150). -/
theorem tbuild_cases (s : Ecmau W) (t : TableSel) :
    (s.opP ≤ 0 ∧ s.tbuild t = s.complete .badModulus) ∨
    (0 < s.opP ∧ canonical s.opP s.opPoint1 = false ∧ s.tbuild t = s.complete .nonCanon) ∨
    (0 < s.opP ∧ canonical s.opP s.opPoint1 = true ∧ ∃ c,
      finishBuild s.cfg.nTab s.opP s.opA s.opPoint1 s.buildWork = .failed c ∧ s.tbuild t = s.complete c) ∨
    (0 < s.opP ∧ canonical s.opP s.opPoint1 = true ∧ ∃ n es,
      finishBuild s.cfg.nTab s.opP s.opA s.opPoint1 s.buildWork = .closed n es ∧
      s.tbuild t = (s.setTable t
        { valid := true, order := bitsW n, gx := bitsW s.opPoint1.x, gy := bitsW s.opPoint1.y,
          entries := es.map Point.toEntry, epoch := (s.table t).epoch }).complete .ok) := by
  unfold Ecmau.tbuild
  split
  · exact .inl ⟨by assumption, rfl⟩
  · split
    · rename_i h
      rw [Bool.not_eq_true'] at h
      exact .inr (.inl ⟨by omega, h, rfl⟩)
    · rename_i h
      have hc : canonical s.opP s.opPoint1 = true := by simpa using h
      cases he : finishBuild s.cfg.nTab s.opP s.opA s.opPoint1 s.buildWork with
      | failed c => exact .inr (.inr (.inl ⟨by omega, hc, c, rfl, rfl⟩))
      | closed n es => exact .inr (.inr (.inr ⟨by omega, hc, n, es, rfl, rfl⟩))

/-- What TLOOKUP.t can do (R160). -/
theorem tlookup_cases (s : Ecmau W) (t : TableSel) :
    ((s.table t).valid = false ∧ s.tlookup t = s.complete .tableInvalid) ∨
    ((s.table t).valid = true ∧ ¬(1 ≤ s.opK ∧ s.opK ≤ uval (s.table t).order - 1) ∧
      s.tlookup t = s.complete .range) ∨
    ((s.table t).valid = true ∧ 1 ≤ s.opK ∧ s.opK ≤ uval (s.table t).order - 1 ∧
      s.tlookup t = ({ s with regs := { s.regs with
        rx := (tableEntry t (s.table t) s.opK.toNat).1, ry := (tableEntry t (s.table t) s.opK.toNat).2 } } : Ecmau W).complete .ok) := by
  unfold Ecmau.tlookup
  split
  · exact .inl ⟨by assumption, rfl⟩
  · rename_i hv
    have hv' : (s.table t).valid = true := by simpa using hv
    split
    · exact .inr (.inl ⟨hv', by assumption, rfl⟩)
    · rename_i hk
      obtain ⟨h1, h2⟩ := not_not.mp hk
      exact .inr (.inr ⟨hv', h1, h2, rfl⟩)

/-! ### The register map (10_state.md R20) -/

@[simp] theorem regAt_regIndex (reg : Reg) : regAt (regIndex reg) = some reg := by cases reg <;> rfl

/-- An index that no register has is unmapped. -/
theorem regAt_eq_some {i : RegIndex} {reg : Reg} (h : regAt i = some reg) : i = regIndex reg := by
  have h2 := List.find?_some (p := fun reg => regIndex reg == i) h
  exact (beq_iff_eq.mp h2).symm

theorem storeData_cases (s : Ecmau W) (regs : DataRegs W) :
    s.storeData regs = s.dropWrite ∨ (s.busy = false ∧ s.storeData regs = { s with regs := regs }) := by
  unfold Ecmau.storeData
  split
  · exact .inl rfl
  · rename_i h
    exact .inr ⟨Bool.not_eq_true _ ▸ h, rfl⟩

theorem storeCurve_cases (s : Ecmau W) (regs : DataRegs W) :
    s.storeCurve regs = s.dropWrite ∨
      (s.busy = false ∧ s.storeCurve regs = (({ s with regs := regs } : Ecmau W).invalidate .A).invalidate .B) := by
  unfold Ecmau.storeCurve
  split
  · exact .inl rfl
  · rename_i h
    exact .inr ⟨Bool.not_eq_true _ ▸ h, rfl⟩

theorem writeCmd_cases (s : Ecmau W) (v : Word W) :
    s.writeCmd v = s.dropWrite ∨ (s.busy = false ∧ s.writeCmd v = s.issue v) := by
  unfold Ecmau.writeCmd
  split
  · exact .inl rfl
  · rename_i h
    exact .inr ⟨Bool.not_eq_true _ ▸ h, rfl⟩

/-- Everything a host write can do (R21, R22, R33, R36, R37, R42, R44). -/
theorem regWrite_cases (s : Ecmau W) (i : RegIndex) (v : Word W) :
    s.regWrite i v = s.dropWrite ∨
    (i = 0x03 ∧ s.regWrite i v = s.writeCtrl v) ∨
    (i = 0x04 ∧ s.regWrite i v = s.ackStatus v) ∨
    (i = 0x05 ∧ s.busy = false ∧ s.regWrite i v = s.issue v) ∨
    (s.busy = false ∧ ∃ regs : DataRegs W, regs.p = s.regs.p ∧ regs.a = s.regs.a ∧
      s.regWrite i v = { s with regs := regs }) ∨
    (s.busy = false ∧ (i = 0x10 ∨ i = 0x11 ∨ i = 0x12) ∧ ∃ regs : DataRegs W,
      s.regWrite i v = (({ s with regs := regs } : Ecmau W).invalidate .A).invalidate .B) := by
  cases hr : regAt i with
  | none => exact .inl (by unfold Ecmau.regWrite; rw [hr])
  | some reg =>
    have hi := regAt_eq_some hr
    subst hi
    have hw : s.regWrite (regIndex reg) v = s.writeReg reg v := by unfold Ecmau.regWrite; rw [hr]
    rw [hw]
    cases reg <;>
      first
        | exact .inl rfl
        | exact .inr (.inl ⟨rfl, rfl⟩)
        | exact .inr (.inr (.inl ⟨rfl, rfl⟩))
        | exact (writeCmd_cases s v).imp_right fun h => .inr (.inr (.inl ⟨rfl, h⟩))
        | exact (storeData_cases s _).imp_right fun h => .inr (.inr (.inr (.inl ⟨h.1, _, by rfl, by rfl, h.2⟩)))
        | exact (storeCurve_cases s _).imp_right fun h =>
            .inr (.inr (.inr (.inr ⟨h.1, by decide, _, h.2⟩)))

/-- What a write to CTRL can do (R27, R28). -/
theorem writeCtrl_cases (s : Ecmau W) (v : Word W) :
    (v.getLsbD 1 = true ∧ s.writeCtrl v = s.toReset) ∨
    (v.getLsbD 1 = false ∧ s.writeCtrl v = { s with ie := v.getLsbD 0 }) := by
  unfold Ecmau.writeCtrl
  split
  · exact .inl ⟨by assumption, rfl⟩
  · rename_i h
    exact .inr ⟨Bool.not_eq_true _ ▸ h, rfl⟩

/-! ### The host's events and the unit's turns -/

/-- Everything one event can do when it answers a next state (20_memory.md R60, R63). -/
theorem hostEvent_cases {e : Event W} {s t : Ecmau W} (h : hostEvent e s = .next t) :
    (registerWrite s.cfg e = none ∧ ∃ l, t = { s with answers := l }) ∨
    (∃ i v, registerWrite s.cfg e = some (i, v) ∧ t = s.regWrite i v) ∨
    (e = .hardReset ∧ registerWrite s.cfg e = none ∧ t = s.toReset) := by
  cases e with
  | regRead i => cases h; exact .inl ⟨rfl, _, rfl⟩
  | regWrite i v => cases h; exact .inr (.inl ⟨i, v, rfl, rfl⟩)
  | busRead addr len =>
    simp only [hostEvent] at h
    split at h
    · cases h; exact .inl ⟨rfl, _, rfl⟩
    · cases h
    · cases h
  | busWrite addr bytes =>
    simp only [hostEvent] at h
    split at h
    · rename_i hb
      cases h
      exact .inr (.inl ⟨_, _, by simp [registerWrite, hb], rfl⟩)
    · cases h
    · cases h
  | hardReset => cases h; exact .inr (.inr ⟨rfl, rfl, rfl⟩)

/-- A turn on the working values changes nothing but them (10_state.md R43). -/
theorem workTurn_eq (s : Ecmau W) : ∃ w, s.workTurn = { s with work := w } := by
  have hm : ∃ w, s.workMinv = { s with work := w } := by
    unfold Ecmau.workMinv
    split
    · exact ⟨s.work, rfl⟩
    · split
      · exact ⟨_, rfl⟩
      · exact ⟨_, rfl⟩
      · split
        · exact ⟨s.work, rfl⟩
        · exact ⟨_, rfl⟩
  have hb : ∃ w, s.workBuild = { s with work := w } := by
    unfold Ecmau.workBuild
    split
    · exact ⟨s.work, rfl⟩
    · split
      · exact ⟨s.work, rfl⟩
      · split
        · exact ⟨_, rfl⟩
        · exact ⟨_, rfl⟩
        · split
          · exact ⟨_, rfl⟩
          · exact ⟨s.work, rfl⟩
  unfold Ecmau.workTurn
  split
  · exact ⟨s.work, rfl⟩
  · exact ⟨s.work, rfl⟩
  · rename_i i _
    cases i <;> first | exact hm | exact hb | exact ⟨s.work, rfl⟩

end Sys2Proof.Machine
end

