-- ==== Sys2Proof/Laws/Exec.lean ====
section
/-! SUPPORT. Everything the completion of a command can do, said once. -/

namespace Sys2Proof.Machine

variable {W : Nat}

/-- No end of the build loop is a failure with OK (42_table.md R152). -/
theorem buildLoop_failed_ne_ok (nTab : Nat) (p a : Int) (g : Point) :
    ∀ (f : Nat) (w : BuildWork) (c : ResultCode), buildLoop nTab p a g f w = .failed c →
      c = .noInverse ∨ c = .tableOverflow ∨ c = .divergence := by
  intro f
  induction f with
  | zero => intro w c h; cases h; exact .inr (.inl rfl)
  | succ f ih =>
    intro w c h
    unfold buildLoop at h
    split at h
    · exact ih _ _ h
    · rename_i he
      subst h
      unfold buildPass at he
      simp only at he
      split at he
      · cases he; exact .inr (.inr rfl)
      · split at he
        · cases he; exact .inl rfl
        · cases he
        · split at he
          · cases he; exact .inr (.inl rfl)
          · cases he

theorem finishBuild_failed {nTab : Nat} {p a : Int} {g : Point} {w : BuildWork} {c : ResultCode}
    (h : finishBuild nTab p a g w = .failed c) : c = .noInverse ∨ c = .tableOverflow ∨ c = .divergence :=
  buildLoop_failed_ne_ok nTab p a g _ w c h

/-- The ways in which the completion of command `i` in state `s` can end in state `t`. -/
inductive ExecEnds (i : Instr) (s t : Ecmau W) : Prop where
  /-- With a code other than OK, nothing else written (60_exceptions.md R201). -/
  | bare (c : ResultCode) (hc : c ≠ .ok) (h : t = s.complete c)
  /-- NOP. -/
  | nop (hi : i = .nop) (h : t = s.complete .ok)
  /-- A scalar command, writing R. -/
  | scalar (hi : i ∈ [Instr.mod, .madd, .mmul, .minv]) (r : Word W)
      (h : t = ({ s with regs := { s.regs with r := r } } : Ecmau W).complete .ok)
  /-- A point command, writing RX and RY. -/
  | point (hi : i ∈ [Instr.padd, .tlookupA, .tlookupB]) (x y : Word W)
      (h : t = ({ s with regs := { s.regs with rx := x, ry := y } } : Ecmau W).complete .ok)
  /-- TBUILD.t, writing table t. -/
  | build (sel : TableSel) (hi : i = tbuildOf sel) (n : Int) (es : List Point)
      (hb : finishBuild s.cfg.nTab s.opP s.opA s.opPoint1 s.buildWork = .closed n es)
      (hp : 0 < s.opP) (hg : canonical s.opP s.opPoint1 = true)
      (h : t = (s.setTable sel
        { valid := true, order := bitsW n, gx := bitsW s.opPoint1.x, gy := bitsW s.opPoint1.y,
          entries := es.map Point.toEntry, epoch := (s.table sel).epoch }).complete .ok)

theorem scalar_ends {i : Instr} (s : Ecmau W) (f : Int → Option Int) (hi : i ∈ [Instr.mod, .madd, .mmul, .minv]) :
    ExecEnds i s (s.scalar f) := by
  obtain ⟨_, h⟩ | ⟨_, _, h⟩ | ⟨y, _, _, h⟩ := scalar_cases s f
  · exact .bare .badModulus (by decide) h
  · exact .bare .noInverse (by decide) h
  · exact .scalar hi _ h

theorem padd_ends (s : Ecmau W) : ExecEnds .padd s s.padd := by
  obtain ⟨_, h⟩ | ⟨_, _, h⟩ | ⟨_, _, _, h⟩ := padd_cases s
  · exact .bare .badModulus (by decide) h
  · exact .bare .nonCanon (by decide) h
  · obtain ⟨_, h2⟩ | ⟨_, h2⟩ | ⟨c, _, h2⟩ := completePadd_cases s (paddCore s.opP s.opA s.opPoint1 s.opPoint2)
    · exact .bare .identity (by decide) (h.trans h2)
    · exact .bare .noInverse (by decide) (h.trans h2)
    · exact .point (by decide) _ _ (h.trans h2)

theorem tbuild_ends (s : Ecmau W) (sel : TableSel) : ExecEnds (tbuildOf sel) s (s.tbuild sel) := by
  obtain ⟨_, h⟩ | ⟨_, _, h⟩ | ⟨_, _, c, hf, h⟩ | ⟨hp, hg, n, es, hb, h⟩ := tbuild_cases s sel
  · exact .bare .badModulus (by decide) h
  · exact .bare .nonCanon (by decide) h
  · refine .bare c ?_ h
    obtain rfl | rfl | rfl := finishBuild_failed hf <;> decide
  · exact .build sel rfl n es hb hp hg h

theorem tlookup_ends (s : Ecmau W) (sel : TableSel) : ExecEnds (tlookupOf sel) s (s.tlookup sel) := by
  obtain ⟨_, h⟩ | ⟨_, _, h⟩ | ⟨_, _, _, h⟩ := tlookup_cases s sel
  · exact .bare .tableInvalid (by decide) h
  · exact .bare .range (by decide) h
  · exact .point (by cases sel <;> decide) _ _ h

/-- Every command answers a next state, and one of these it is. -/
theorem exec_ends (i : Instr) (s : Ecmau W) : ∃ t : Ecmau W, exec i s.pack = .next t.pack ∧ ExecEnds i s t := by
  cases i with
  | nop => exact ⟨_, rfl, .nop rfl rfl⟩
  | mod => exact ⟨_, rfl, scalar_ends s _ (by decide)⟩
  | madd => exact ⟨_, rfl, scalar_ends s _ (by decide)⟩
  | mmul => exact ⟨_, rfl, scalar_ends s _ (by decide)⟩
  | minv => exact ⟨_, rfl, scalar_ends s _ (by decide)⟩
  | padd => exact ⟨_, rfl, padd_ends s⟩
  | tbuildA => exact ⟨_, rfl, tbuild_ends s .A⟩
  | tbuildB => exact ⟨_, rfl, tbuild_ends s .B⟩
  | tlookupA => exact ⟨_, rfl, tlookup_ends s .A⟩
  | tlookupB => exact ⟨_, rfl, tlookup_ends s .B⟩

end Sys2Proof.Machine
end

