-- ==== Sys2Proof/Laws/PerInstr.lean ====
section
/-! SUPPORT. One lemma per command of what holds of every command as syntax: its fields are well formed, and its word
is read back as exactly those fields (30_encoding.md R80, R82), at every width that R8 allows. -/

namespace Sys2Proof.Laws.FieldsRoundTrip

open Sys2Proof.Machine

/-- The fields of `i` are those of a legal word, and the encoder drops no bit of them. -/
def Statement (i : Instr) : Prop :=
  ∀ W : Nat, 32 ≤ W → i.wellFormed W = true ∧ commandFields (encode W i) = i.fields W

theorem nop : Statement .nop := fun _ h => ⟨rfl, commandFields_assembleFields h _ _⟩
theorem mod : Statement .mod := fun _ h => ⟨rfl, commandFields_assembleFields h _ _⟩
theorem madd : Statement .madd := fun _ h => ⟨rfl, commandFields_assembleFields h _ _⟩
theorem mmul : Statement .mmul := fun _ h => ⟨rfl, commandFields_assembleFields h _ _⟩
theorem minv : Statement .minv := fun _ h => ⟨rfl, commandFields_assembleFields h _ _⟩
theorem padd : Statement .padd := fun _ h => ⟨rfl, commandFields_assembleFields h _ _⟩
theorem tbuildA : Statement .tbuildA := fun _ h => ⟨rfl, commandFields_assembleFields h _ _⟩
theorem tbuildB : Statement .tbuildB := fun _ h => ⟨rfl, commandFields_assembleFields h _ _⟩
theorem tlookupA : Statement .tlookupA := fun _ h => ⟨rfl, commandFields_assembleFields h _ _⟩
theorem tlookupB : Statement .tlookupB := fun _ h => ⟨rfl, commandFields_assembleFields h _ _⟩

end Sys2Proof.Laws.FieldsRoundTrip
end

