-- ==== Sys2Proof/Laws/Step.lean ====
section
/-! SUPPORT. Everything one step can do, said once (43_control.md R186). -/

namespace Sys2Proof.Machine

variable {W : Nat}

/-- Everything the unit's completion step can do (R182, R183). -/
theorem unitTurn_cases (s : Ecmau W) :
    (s.inflight = none ∧ unitTurn s.pack = .next s.pack) ∨
    (∃ v e, s.inflight = some v ∧ decode v = .error e ∧ unitTurn s.pack = .next (s.complete .illegal).pack) ∨
    (∃ v i, ∃ t : Ecmau W, s.inflight = some v ∧ decode v = .ok i ∧ unitTurn s.pack = .next t.pack ∧
      exec i s.pack = .next t.pack ∧ ExecEnds i s t) := by
  cases hv : s.inflight with
  | none => exact .inl ⟨rfl, by simp [unitTurn, Ecmau.command, hv]⟩
  | some v =>
    cases hd : decode v with
    | error e =>
      exact .inr (.inl ⟨v, e, rfl, hd, by simp [unitTurn, Ecmau.command, hv, hd, Ecmau.completeIllegal]⟩)
    | ok i =>
      obtain ⟨t, h, he⟩ := exec_ends i s
      exact .inr (.inr ⟨v, i, t, rfl, hd, by simp [unitTurn, Ecmau.command, hv, hd, h], h, he⟩)

/-- The schedule moved on by one turn. -/
def Ecmau.turned (s : Ecmau W) : Ecmau W := s.withTurns s.turns.tail

/-- No step changes the width (00_scope.md R8). -/
theorem step_pack {s : Ecmau W} {t : State} (h : step s.pack = .next t) : ∃ u : Ecmau W, t = u.pack := by
  have ho : ∀ o : Host.Outcome (Ecmau W) Fault Refusal, packOutcome o = .next t → ∃ u : Ecmau W, t = u.pack := by
    intro o ho
    cases o <;> simp_all [packOutcome]
    exact ⟨_, ho.symm⟩
  have hu : ∀ r : Ecmau W, unitTurn r.pack = .next t → ∃ u : Ecmau W, t = u.pack := by
    intro r hr
    obtain ⟨_, h2⟩ | ⟨_, _, _, _, h2⟩ | ⟨_, _, u, _, _, h2, _⟩ := unitTurn_cases r
    all_goals
      rw [h2] at hr
      cases hr
      exact ⟨_, rfl⟩
  unfold step at h
  split at h
  · exact ho _ h
  · cases h; exact ⟨_, rfl⟩
  · exact hu _ h
  · split at h
    · exact hu s h
    · exact ho _ h

/-- Everything a step that answers a next state can do: nothing but move the schedule on, a turn on the working values,
a completion, or a host event. -/
theorem step_cases {s t : Ecmau W} (h : step s.pack = .next t.pack) :
    (s.actingEvent = none ∧ s.unitCompletes = false ∧ t = s.turned) ∨
    (s.actingEvent = none ∧ s.unitCompletes = false ∧ t = s.turned.workTurn) ∨
    (s.actingEvent = none ∧ s.unitCompletes = true ∧ unitTurn s.turned.pack = .next t.pack) ∨
    (∃ e es, s.actingEvent = some e ∧ s.unitCompletes = false ∧ s.events = e :: es ∧
      hostEvent e { s.turned with events := es } = .next t) := by
  have host : ∀ u : Ecmau W, u = s.turned → s.hostActs = true → s.unitCompletes = false →
      hostTurn u = .next t →
      (s.actingEvent = none ∧ s.unitCompletes = false ∧ t = s.turned) ∨
      (∃ e es, s.actingEvent = some e ∧ s.unitCompletes = false ∧ s.events = e :: es ∧
        hostEvent e { s.turned with events := es } = .next t) := by
    intro u hu ha hc hh
    subst hu
    unfold Ecmau.actingEvent
    rw [if_pos ha]
    unfold hostTurn at hh
    have he : s.turned.events = s.events := rfl
    rw [he] at hh
    cases hes : s.events with
    | nil => rw [hes] at hh; cases hh; exact .inl ⟨rfl, hc, rfl⟩
    | cons e es => rw [hes] at hh; exact .inr ⟨e, es, rfl, hc, rfl, hh⟩
  unfold step at h
  cases hts : s.turns with
  | nil =>
    have hs : s = s.turned := by unfold Ecmau.turned Ecmau.withTurns; rw [hts, List.tail_nil, ← hts]
    rw [hts] at h
    simp only at h
    split at h
    · rename_i hi
      have hn : s.hostActs = false := by simp [Ecmau.hostActs, hts, Option.isNone, Option.isSome] at *; grind
      refine .inr (.inr (.inl ⟨by simp [Ecmau.actingEvent, hn], by simp [Ecmau.unitCompletes, hts, hi], ?_⟩))
      rw [← hs]; exact h
    · rename_i hi
      have hn : s.inflight = none := by simpa using hi
      exact (host s hs (by simp [Ecmau.hostActs, hts, hn]) (by simp [Ecmau.unitCompletes, hts, hn])
        (packOutcome_eq_next h)).imp
        id fun h => .inr (.inr h)
  | cons a rest =>
    rw [hts] at h
    have ht : s.withTurns rest = s.turned := by simp [Ecmau.turned, hts]
    cases a with
    | host =>
      simp only at h
      rw [ht] at h
      exact (host s.turned rfl (by simp [Ecmau.hostActs, hts]) (by simp [Ecmau.unitCompletes, hts])
        (packOutcome_eq_next h)).imp
        id fun h => .inr (.inr h)
    | work =>
      simp only at h
      rw [ht] at h
      cases h
      exact .inr (.inl ⟨by simp [Ecmau.actingEvent, Ecmau.hostActs, hts], by simp [Ecmau.unitCompletes, hts], rfl⟩)
    | complete =>
      simp only at h
      rw [ht] at h
      have hn : s.actingEvent = none := by simp [Ecmau.actingEvent, Ecmau.hostActs, hts]
      cases hi : s.inflight with
      | none =>
        left
        refine ⟨hn, by simp [Ecmau.unitCompletes, hts, hi], ?_⟩
        have hi' : s.turned.inflight = none := hi
        simp only [unitTurn, Ecmau.command, hi', Option.map_none] at h
        cases h; rfl
      | some v =>
        exact .inr (.inr (.inl ⟨hn, by simp [Ecmau.unitCompletes, hts, hi], h⟩))

end Sys2Proof.Machine
end

