-- ==== Sys2Proof/Tests/Slice0.lean ====
section
/-! SUPPORT. The model's own tests. Expected values come from the spec: the encodings of 30_encoding.md, the vectors of
95_test_vectors.md, or hand calculation from a rule. Then, for every obligation with hypotheses, a witness that meets
them. -/

namespace Sys2Proof.Tests

open Sys2Proof.Machine

/-! ### WellFormed refuses each ill-formed term -/

/-- RSV not zero (30_encoding.md R84). -/
theorem test_wf_reserved : ({ op := 0x00, t := 0, rsv := 1, hi := 0 } : CommandFields 64).wellFormed = false := by decide

/-- HI not zero (R84). -/
theorem test_wf_hi : ({ op := 0x00, t := 0, rsv := 0, hi := 1 } : CommandFields 64).reservedClear = false := by decide

/-- OP unassigned (R85, R86). -/
theorem test_wf_op : ({ op := 0x05, t := 0, rsv := 0, hi := 0 } : CommandFields 64).opDefined = false := by decide

/-- T set on an OP with no table (R83). -/
theorem test_wf_t : ({ op := 0x01, t := 1, rsv := 0, hi := 0 } : CommandFields 64).tableBitAllowed = false := by decide

/-- The same term is ill formed as a whole. -/
theorem test_wf_t_whole : ({ op := 0x01, t := 1, rsv := 0, hi := 0 } : CommandFields 64).wellFormed = false := by decide

/-- The reference configuration with N_TAB entries a table. -/
def config (nTab : Nat) : Config := { Config.reference with nTab := nTab }

/-- A binding of four bytes a bus word, the more significant word at the lower address. -/
def bigEndian (registerBytes : Nat) : BusBinding :=
  { registerBytes := registerBytes, busWordBytes := 4, order := .bigEndian }

/-- W below 32 (00_scope.md R8). -/
theorem test_wf_width : widthAllowed 31 = false ∧ Config.reference.wellFormed 32 = true := by decide

/-- N_TAB below 1 and above 2^(W-1) - 1 (R9). -/
theorem test_wf_ntab :
    (config 0).nTabAllowed 64 = false ∧ (config (2 ^ 63)).nTabAllowed 64 = false ∧
    (config (2 ^ 31)).nTabAllowed 32 = false ∧ (config (2 ^ 63 - 1)).wellFormed 64 = true := by decide

/-- A register wider than its bytes (20_memory.md R63: "this needs `W <= 64`"), no bus word, a part of a bus word. -/
theorem test_wf_bus :
    BusBinding.reference.allowed 65 = false ∧
    ({ registerBytes := 8, busWordBytes := 0, order := .littleEndian } : BusBinding).allowed 64 = false ∧
    (bigEndian 10).allowed 64 = false ∧ (bigEndian 16).allowed 128 = true := by decide

/-- A base address that is not aligned for the binding (R66, 92_eei_decisions.md). -/
theorem test_wf_base : ({ Config.reference with unitBase := 4 } : Config).baseAligned = false := by decide

/-! ### Decoding: each word bit by bit, as HI, RSV, T, OP (30_encoding.md R80, R82; 95_test_vectors.md 2.5) -/

/-- A command word from its bits 8 to 0, with HI and RSV zero. -/
def word (t : BitVec 1) (op : BitVec 8) : Word 64 := 0#32 ++ 0#23 ++ t ++ op

theorem test_decode_nop : decode (word 0b0 0b0000_0000) = .ok .nop := by decide
theorem test_decode_mod : decode (word 0b0 0b0000_0001) = .ok .mod := by decide
theorem test_decode_madd : decode (word 0b0 0b0000_0010) = .ok .madd := by decide
theorem test_decode_mmul : decode (word 0b0 0b0000_0011) = .ok .mmul := by decide
theorem test_decode_minv : decode (word 0b0 0b0000_0100) = .ok .minv := by decide
theorem test_decode_padd : decode (word 0b0 0b0001_0000) = .ok .padd := by decide
theorem test_decode_tbuildA : decode (word 0b0 0b0010_0000) = .ok .tbuildA := by decide
theorem test_decode_tbuildB : decode (word 0b1 0b0010_0000) = .ok .tbuildB := by decide
theorem test_decode_tlookupA : decode (word 0b0 0b0010_0001) = .ok .tlookupA := by decide
theorem test_decode_tlookupB : decode (word 0b1 0b0010_0001) = .ok .tlookupB := by decide

/-- The illegal words of 95_test_vectors.md 2.5: T set on an OP with no table. -/
theorem test_decode_table_bit :
    decode (0x100 : Word 64) = .error .tableBit ∧ decode (0x101 : Word 64) = .error .tableBit ∧
    decode (0x104 : Word 64) = .error .tableBit ∧ decode (0x110 : Word 64) = .error .tableBit := by decide

/-- OP unassigned. -/
theorem test_decode_unassigned :
    decode (0x005 : Word 64) = .error .unassignedOp ∧ decode (0x011 : Word 64) = .error .unassignedOp ∧
    decode (0x022 : Word 64) = .error .unassignedOp ∧ decode (0x0FF : Word 64) = .error .unassignedOp := by decide

/-- A reserved bit set. -/
theorem test_decode_reserved :
    decode (0x200 : Word 64) = .error .reservedBits ∧ decode (0x100000000 : Word 64) = .error .reservedBits ∧
    decode (0x8000000000000000 : Word 64) = .error .reservedBits := by decide

/-- A word the table numbers: TBUILD.B is 0x120; a set reserved bit is none. -/
theorem test_table_word : decodeTableWord 32 0x120 = some .tbuildB ∧ decodeTableWord 32 0x320 = none := by decide

/-! ### One step of each command (95_test_vectors.md 2.1 to 2.5) -/

/-- The state an outcome goes on in, if it does. -/
def nextOf {S : Type} : Host.Outcome S Fault Refusal → Option S
  | .next s => some s
  | .fault _ => none
  | .refused _ => none

/-- A unit right after reset, of width W, with the data registers given. -/
def unitWith (W : Nat) (regs : DataRegs W) : Ecmau W := { Ecmau.reset W Config.reference with regs := regs }

/-- A unit of width 64 right after reset. -/
def idle : Ecmau 64 := unitWith 64 (DataRegs.reset 64)

/-- A unit of width W with N, X, Y, and 77 in R. -/
def scalars (W : Nat) (n x y : Int) : Ecmau W :=
  unitWith W { DataRegs.reset W with n := bitsW n, x := bitsW x, y := bitsW y, r := 77 }

/-- The code and the value of R after command `i` on N, X, Y, at width W. -/
def scalarTestAt (W : Nat) (i : Instr) (n x y : Int) : Option (ResultCode × Nat) :=
  (nextOf (exec i (scalars W n x y).pack)).map fun t => (t.unit.code, t.unit.regs.r.toNat)

/-- The same at width 64. -/
def scalarTest : Instr → Int → Int → Int → Option (ResultCode × Nat) := scalarTestAt 64

/-- A unit with P, A and two points. -/
def points (p a px py qx qy : Int) : Ecmau 64 :=
  unitWith 64
    { DataRegs.reset 64 with
      p := bitsW p, a := bitsW a, px := bitsW px, py := bitsW py, qx := bitsW qx, qy := bitsW qy, rx := 77,
      ry := 78 }

/-- The code, RX and RY after PADD on P, A and two points. -/
def paddTest (p a px py qx qy : Int) : Option (ResultCode × Nat × Nat) :=
  (nextOf (exec .padd (points p a px py qx qy).pack)).map fun t =>
    (t.unit.code, t.unit.regs.rx.toNat, t.unit.regs.ry.toNat)

/-- A unit with P = 17, A = 2, the generator (5, 1) and N_TAB entries a table: the demo curve. -/
def demo (nTab : Nat) : Ecmau 64 :=
  { idle with
    cfg := config nTab
    regs := { DataRegs.reset 64 with p := 17, a := 2, b := 2, px := 5, py := 1 } }

/-- A unit with P = 3, A = 2 and the generator (0, 1), whose order is 7 (95_test_vectors.md 2.3, row 12). -/
def small : Ecmau 64 := unitWith 64 { DataRegs.reset 64 with p := 3, a := 2, px := 0, py := 1 }

/-- `small` with table t built as row 12 gives it: order 7, "TAB[1..6] = (0,1), (1,1), (2,2), (2,1), (1,2), (0,2)". -/
def smallBuilt (t : TableSel) : Ecmau 64 :=
  small.setTable t
    { valid := true, order := 7, gx := 0, gy := 1, entries := [(0, 1), (1, 1), (2, 2), (2, 1), (1, 2), (0, 2)],
      epoch := 0 }

/-- The code, ORDER_t and the entries of table t after TBUILD.t. -/
def buildTest (t : TableSel) (s : Ecmau 64) : Option (ResultCode × Nat × List (Nat × Nat)) :=
  (nextOf (exec (tbuildOf t) s.pack)).map fun u =>
    (u.unit.code, (u.unit.table t).order.toNat, (u.unit.table t).entries.map fun e => (e.1.toNat, e.2.toNat))

/-- `smallBuilt` with K. -/
def lookupAt (t : TableSel) (k : Word 64) : Ecmau 64 := { smallBuilt t with regs := { small.regs with k := k } }

/-- The code, RX and RY after TLOOKUP.t of k. -/
def lookupTest (t : TableSel) (k : Word 64) : Option (ResultCode × Nat × Nat) :=
  (nextOf (exec (tlookupOf t) (lookupAt t k).pack)).map fun u =>
    (u.unit.code, u.unit.regs.rx.toNat, u.unit.regs.ry.toNat)

/-- 95_test_vectors.md 2.5, status rows 4 and 5: ERR and WERR are kept, CODE becomes OK. -/
theorem test_nop_keeps_err :
    (nextOf (exec .nop
      ({ idle with err := true, werr := true, busy := true, code := .badModulus } : Ecmau 64).pack)).map
      (fun t => t.unit.statusWord.toNat) = some 0x000E := by decide

theorem test_mod_negative : scalarTest .mod 17 (-35) 0 = some (.ok, 16) := by decide
theorem test_mod_bad_modulus : scalarTest .mod (-7) 5 0 = some (.badModulus, 77) := by decide
theorem test_madd : scalarTest .madd 19 26 11 = some (.ok, 18) := by decide
theorem test_madd_exact :
    scalarTest .madd (2 ^ 63 - 1) (-2 ^ 63) (-2 ^ 63) = some (.ok, 0x7FFFFFFFFFFFFFFD) := by decide
theorem test_mmul : scalarTest .mmul 7 (-3) 5 = some (.ok, 6) := by decide
theorem test_mmul_exact : scalarTest .mmul (2 ^ 63 - 1) (-2 ^ 63) (-2 ^ 63) = some (.ok, 1) := by decide
theorem test_minv : scalarTest .minv 19 10 0 = some (.ok, 2) := by decide
theorem test_minv_modulo_one : scalarTest .minv 1 5 0 = some (.noInverse, 77) := by decide

/-- Another width (00_scope.md R8): at W = 32 the pattern 0xFFFFFFFB is -5, and the product is exact to 64 bits. -/
theorem test_width_32 :
    scalarTestAt 32 .mod 17 0xFFFFFFFB 0 = some (.ok, 12) ∧
    scalarTestAt 32 .mmul (2 ^ 31 - 1) (-2 ^ 31) (-2 ^ 31) = some (.ok, 1) ∧
    ((unitWith 32 (DataRegs.reset 32)).regRead 0x01).toNat = 32 := by decide

theorem test_padd_double : paddTest 17 (-15) 5 1 5 1 = some (.ok, 6, 3) := by decide
theorem test_padd_identity : paddTest 17 2 5 1 5 2 = some (.identity, 77, 78) := by decide

/-- 95_test_vectors.md 2.3, row 12: the cap 2p + 1 is reached and not passed. -/
theorem test_tbuildA :
    buildTest .A small = some (.ok, 7, [(0, 1), (1, 1), (2, 2), (2, 1), (1, 2), (0, 2)]) := by decide

/-- 95_test_vectors.md 2.3, rows 2 and 3: n - 1 = N_TAB fits, one less does not. -/
theorem test_tbuildA_capacity :
    (buildTest .A (demo 18)).map (fun r => (r.1, r.2.1)) = some (.ok, 19) ∧
    buildTest .A (demo 17) = some (.tableOverflow, 0, []) := by decide

theorem test_tbuildB :
    buildTest .B small = some (.ok, 7, [(0, 1), (1, 1), (2, 2), (2, 1), (1, 2), (0, 2)]) := by decide

/-- Table A is not table B. -/
theorem test_tbuildB_leaves_A : ∃ u : Ecmau 64, exec .tbuildB small.pack = .next u.pack ∧ u.tabA = small.tabA :=
  ⟨_, rfl, rfl⟩

theorem test_tlookupA : lookupTest .A 3 = some (.ok, 2, 2) := by decide

/-- K = order and K = -1 are out of range (42_table.md R160, R161). -/
theorem test_tlookupA_range :
    lookupTest .A 7 = some (.range, 0, 0) ∧ lookupTest .A 0xFFFFFFFFFFFFFFFF = some (.range, 0, 0) := by decide

theorem test_tlookupB : lookupTest .B 6 = some (.ok, 0, 2) := by decide

/-- An invalid table is reported whatever K is. -/
theorem test_tlookupB_invalid :
    (nextOf (exec .tlookupB small.pack)).map (fun u => (u.unit.code, u.unit.err)) = some (.tableInvalid, true) := by
  decide

/-- 95_test_vectors.md 2.5, status row 10: the illegal word 0x101. -/
theorem test_illegal_word :
    (nextOf (step (State.reset.withFetchWord 32 0x101))).map (fun t => t.unit.statusWord.toNat) = some 0x0906 := by
  decide

/-! ### The host's side -/

/-- 95_test_vectors.md 2.5, status rows 2, 6 and 7. -/
theorem test_status_sequence :
    (idle.regWrite 0x05 0).statusWord = 0x0001 ∧
    (idle.regWrite 0x0B 5).statusWord = 0x0008 ∧ (idle.regWrite 0x3F 1).statusWord = 0x0008 := by decide

/-- 95_test_vectors.md 2.5, busy discipline: `WR X, 3` and `CMD MOD` after `CMD MINV`. -/
theorem test_busy_discipline :
    ((idle.regWrite 0x05 4).regWrite 0x09 3).regs.x = 0 ∧
    ((idle.regWrite 0x05 4).regWrite 0x09 3).werr = true ∧
    ((idle.regWrite 0x05 4).regWrite 0x05 1).inflight = some 4 := by decide

/-- The bytes of ID on the bus, lowest address first (10_state.md R23; 20_memory.md R62, R63). -/
theorem test_bus_read :
    (nextOf (hostEvent (.busRead 0 8) idle)).map (fun t => t.answers) =
      some [.bytes [0x00, 0x01, 0x43, 0x45, 0x00, 0x00, 0x00, 0x00]] := by decide

/-- Another binding (R62): two 32-bit bus words a register, the more significant word at the lower address, and within
each word the less significant byte (log 4). -/
theorem test_bus_big_endian :
    bytesOfWord (bigEndian 8) (0x8877665544332211 : Word 64) = [0x55, 0x66, 0x77, 0x88, 0x11, 0x22, 0x33, 0x44] ∧
    wordOfBytes 64 (bigEndian 8) [0x55, 0x66, 0x77, 0x88, 0x11, 0x22, 0x33, 0x44] = 0x8877665544332211 := by decide

/-- The interrupt at the input the platform routes it to, and at another (60_exceptions.md R210, R211). -/
theorem test_interrupt_routing :
    let c := { Config.reference with irqRouting := { line := 5, priority := 2 } }
    ({ Ecmau.reset 64 c with ie := true, done := true } : Ecmau 64).requestAt 5 = some 2 ∧
    ({ Ecmau.reset 64 c with ie := true, done := true } : Ecmau 64).requestAt 4 = none ∧
    ({ Ecmau.reset 64 c with done := true } : Ecmau 64).requestAt 5 = none := by decide

/-- What a host program answers after two statements of MSUB with Y. -/
def msubTest (y : Word 64) : Except HostError (HostCpu 64 × Ecmau 64) :=
  (hostStatement (startHost 64 [.msub 0]) (unitWith 64 { DataRegs.reset 64 with y := y })).bind fun r =>
    hostStatement r.1 r.2

/-- MSUB at `Y = -2^(W-1)` "must not be used" (30_encoding.md R96); at the value next to it -Y is written. -/
theorem test_msub :
    msubTest 0x8000000000000000 = .error .msubUndefined ∧
    (msubTest 0x8000000000000001).toOption.map (fun r => r.2.regs.y) = some 0x7FFFFFFFFFFFFFFF := by decide

/-- `RUN 0x101` (R95) issues the illegal word. -/
theorem test_run_illegal :
    (hostStatement (startHost 64 [.run 0x101]) idle).toOption.map (fun r => r.2.command) =
      some (some (.error .tableBit)) := by decide

/-! ### Witnesses: for each obligation with hypotheses, inputs that meet them -/

/-- The widths of R8: the least, the reference, and one above 64. -/
theorem witness_widths : 32 ≤ 32 ∧ 32 ≤ Config.referenceW ∧ 32 ≤ 65 := by decide

/-- DecodeAcceptsExactlyTheTable: a word of each kind. -/
theorem witness_decode :
    32 ≤ 64 ∧ (∃ i, (0x121 : Word 64) = encode 64 i) ∧ ∀ i, (0x101 : Word 64) ≠ encode 64 i :=
  ⟨by decide, ⟨.tlookupB, by decide⟩, fun i => by cases i <;> decide⟩

theorem witness_reserved_bits :
    (9 ≤ 9 ∧ (0x200 : Word 64).getLsbD 9 = true) ∧ (9 ≤ 63 ∧ (0x8000000000000000 : Word 64).getLsbD 63 = true) := by
  decide

theorem witness_illegal_words :
    decode (0x101 : Word 64) = .error .tableBit ∧ decode (0x005 : Word 64) = .error .unassignedOp ∧
    decode (0x200 : Word 64) = .error .reservedBits ∧ idle.busy = false := by decide

theorem witness_unmapped :
    ((0x06 : RegIndex).val ∈ [0x06, 0x07, 0x0C, 0x0D, 0x0E, 0x0F, 0x13, 0x1B, 0x1C, 0x1D, 0x1E, 0x1F, 0x23]) ∧
    0x27 ≤ (0x27 : RegIndex).val ∧ 0x27 ≤ (0x3F : RegIndex).val := by decide

/-- ConstantRegisters: N_TAB at both ends of its range, at the least width and at 64. -/
theorem witness_constants :
    (32 ≤ 32 ∧ (config 1).nTab < 2 ^ 31 ∧ (config (2 ^ 31 - 1)).nTab < 2 ^ 31) ∧
    (32 ≤ 64 ∧ (config (2 ^ 63 - 1)).nTab < 2 ^ 63) := by decide

/-- ReadsHaveNoSideEffect, BusBinding and OnlyBusAccessesStop: parameters within their constraints, at W = 32, 64 and
128, with both orders of the bus words. -/
theorem witness_parameters :
    Config.reference.wellFormed 32 = true ∧ Config.reference.wellFormed 64 = true ∧
    ({ Config.reference with bus := bigEndian 8, unitBase := 0x4000 } : Config).wellFormed 64 = true ∧
    ({ Config.reference with bus := bigEndian 16 } : Config).wellFormed 128 = true := by decide

/-- WerrRecordsDroppedWrites, second clause: a step that is no host write and no reset. -/
theorem witness_werr :
    let s : Ecmau 64 := { idle with events := [.regRead 0x04] }
    (∃ t : Ecmau 64, step s.pack = .next t.pack) ∧ s.actingWrite = none ∧ ¬s.resets := by
  refine ⟨⟨_, rfl⟩, rfl, ?_⟩
  rintro (h | ⟨v, h, -⟩) <;> cases h

/-- A unit with NOP in flight. -/
def busyNop : Ecmau 64 := idle.issue 0

theorem witness_dropped_writes :
    ((0x00 : RegIndex).val ∈ [0x00, 0x01, 0x02, 0x0B, 0x18, 0x19, 0x20, 0x21, 0x22, 0x24, 0x25, 0x26]) ∧
    (busyNop.busy = true ∧
      (0x1A : RegIndex).val ∈ [0x05, 0x08, 0x09, 0x0A, 0x10, 0x11, 0x12, 0x14, 0x15, 0x16, 0x17, 0x1A]) := by decide

theorem witness_ctrl :
    (0x1 : Word 64).getLsbD 1 = false ∧ (0x3 : Word 64).getLsbD 1 = true ∧ (63 : Nat) ≠ 0 := by decide

theorem witness_data_registers :
    idle.busy = false ∧ (0x1A : RegIndex).val ∈ [0x08, 0x09, 0x0A, 0x10, 0x11, 0x12, 0x14, 0x15, 0x16, 0x17, 0x1A] ∧
    (0x1F : RegIndex) ≠ 0x1A ∧ (0x1F : RegIndex).val < 0x20 ∧ (0x1F : RegIndex) ≠ 0x04 := by decide

theorem witness_curve_writes :
    idle.busy = false ∧ (0x10 : RegIndex).val ∈ [0x10, 0x11, 0x12] ∧
    (0x1A : RegIndex).val ∈ [0x08, 0x09, 0x0A, 0x14, 0x15, 0x16, 0x17, 0x1A] := by decide

theorem witness_cmd_writes : busyNop.busy = true ∧ idle.busy = false := by decide

/-- InterruptLevel: its words for STATUS (bit 1 set alone, all bits set, bit 1 clear alone) and for CTRL (bit 1 clear,
bit 0 clear and set, the other bits 0 and 1), and units whose DONE is 1. -/
theorem witness_interrupt :
    ((0x2 : Word 64).getLsbD 1 = true ∧ (0xFFFFFFFFFFFFFFFF : Word 64).getLsbD 1 = true ∧
      (0xFFFFFFFFFFFFFFFD : Word 64).getLsbD 1 = false) ∧
    ((0x0 : Word 64).getLsbD 1 = false ∧ (0x0 : Word 64).getLsbD 0 = false ∧
      (0xFFFFFFFFFFFFFFFC : Word 64).getLsbD 1 = false ∧ (0xFFFFFFFFFFFFFFFC : Word 64).getLsbD 0 = false) ∧
    ((0x1 : Word 64).getLsbD 1 = false ∧ (0x1 : Word 64).getLsbD 0 = true ∧
      (0xFFFFFFFFFFFFFFFD : Word 64).getLsbD 0 = true) ∧
    idle.busy = false ∧ ({ idle with ie := true, done := true } : Ecmau 64).irq = true ∧
    ({ idle with done := true } : Ecmau 64).done = true := by decide

/-- BusBinding, its bus errors under the reference binding: half a register, two registers, the byte before the window
with the first, the last byte; and outside, the byte before the window and the one after it. -/
theorem witness_bus :
    (0 < 4 + 4 ∧ 4 < 0 + 8 * 64 ∧ ¬∃ i : RegIndex, 4 = 0 + 8 * i.val ∧ 4 = 8) ∧
    (0 < 0 + 16 ∧ 0 < 0 + 8 * 64 ∧ ¬∃ i : RegIndex, 0 = 0 + 8 * i.val ∧ 16 = 8) ∧
    (8 < 7 + 8 ∧ 7 < 8 + 8 * 64 ∧ ¬∃ i : RegIndex, 7 = 8 + 8 * i.val ∧ 8 = 8) ∧
    (511 < 0 + 8 * 64 ∧ ¬∃ i : RegIndex, 511 = 0 + 8 * i.val ∧ 1 = 8) ∧
    (7 + 1 ≤ 8 ∨ 8 + 8 * 64 ≤ 7) ∧ (512 + 8 ≤ 0 ∨ 0 + 8 * 64 ≤ 512) := by decide

/-- BusBinding, its clause of the bytes: the last byte of a register, in each order of the bus words. -/
theorem witness_bus_bytes :
    (BusBinding.reference.allowed 64 = true ∧ BusBinding.reference.order = .littleEndian ∧ 7 < 8) ∧
    ((bigEndian 8).allowed 64 = true ∧ (bigEndian 8).order = .bigEndian ∧ 1 < 8 / 4 ∧ 3 < 4) := by decide

/-- EveryCommandCompletes: a unit that raises its interrupt, and a command that ends with another code than OK. -/
theorem witness_every_command :
    ({ idle with ie := true } : Ecmau 64).ie = true ∧
    ∃ t : Ecmau 64, exec .mod idle.pack = .next t.pack ∧ t.code ≠ .ok := ⟨rfl, _, rfl, by decide⟩

/-- CommandFrame: a command that is not TBUILD.B. -/
theorem witness_frame :
    Instr.tbuildA ≠ tbuildOf .B ∧ ∃ t : Ecmau 64, exec .padd idle.pack = .next t.pack ∧ t.code ≠ .ok :=
  ⟨by decide, _, rfl, by decide⟩

theorem witness_nop : (0x100 : Word 64).toNat % 256 = 0 ∧ (0x100 : Word 64) ≠ 0 := by decide

theorem witness_scalar_bad_modulus :
    Instr.minv ∈ [Instr.mod, .madd, .mmul, .minv] ∧ (0 : Word 64).toInt ≤ 0 ∧
    (0xFFFFFFFFFFFFFFF9 : Word 64).toInt ≤ 0 := by decide

/-- ModReduces, MaddAdds, MmulMultiplies: the smallest and the largest modulus, and one that is not positive. -/
theorem witness_scalar_modulus :
    0 < (scalars 64 1 0 0).regs.n.toInt ∧ 0 < (scalars 64 (2 ^ 63 - 1) 0 0).regs.n.toInt ∧
    (scalars 64 0 0 0).regs.n.toInt ≤ 0 := by decide

/-- MinvInverts: N = 2, X = 3 has an inverse; N = 1 has none; both with no working values held. -/
theorem witness_minv :
    (WorkOk (scalars 64 2 3 0) ∧ 0 < (2 : Word 64).toInt ∧
      2 ≤ (2 : Word 64).toInt ∧ Int.gcd (2 : Word 64).toInt (3 : Word 64).toInt = 1) ∧
    (WorkOk (scalars 64 1 5 0) ∧ 0 < (1 : Word 64).toInt ∧
      ¬(2 ≤ (1 : Word 64).toInt ∧ Int.gcd (1 : Word 64).toInt (5 : Word 64).toInt = 1)) :=
  ⟨⟨trivial, by decide⟩, trivial, by decide⟩

/-- MINV of 5 modulo 12 in flight, after one turn on its working values. -/
def minvHeld : Ecmau 64 := { (scalars 64 12 5 0).issue 4 with work := .minv (startMinv 12 5) }

/-- MinvInverts from working values. -/
theorem witness_minv_work : WorkOk minvHeld :=
  ⟨by decide, by decide, by decide, by decide, by decide, by decide, by decide, by decide, by decide⟩

theorem witness_modinv_loop :
    (0 < (1 : Int) ∧ 0 ≤ (startMinv 1 5).r1) ∧ (0 < (19 : Int) ∧ 2 ≤ (startMinv 19 10).r1) ∧
    modinv 19 10 = some 2 := by decide

theorem witness_minv_pass : 0 < (12 : Int) ∧ MinvWorkOk 12 5 (startMinv 12 5) ∧ 2 ≤ (startMinv 12 5).r1 :=
  ⟨by decide, ⟨by decide, by decide, by decide, by decide, by decide, by decide, by decide⟩, by decide⟩

/-- ScalarReadsItsOperandsOnly: two units that differ in Y, in B and in a status bit, idle and with the same working
values held. -/
theorem witness_scalar_reads :
    Instr.mod ∈ [Instr.mod, .madd, .mmul, .minv] ∧ Instr.mod ∉ [Instr.madd, .mmul] ∧
    (let u : Ecmau 64 := { idle with err := true, regs := { DataRegs.reset 64 with y := 3, b := 4 } }
     u.regs.n = idle.regs.n ∧ u.regs.x = idle.regs.x ∧ u.minvWork = idle.minvWork) ∧
    (let u : Ecmau 64 := { minvHeld with err := true, regs := { minvHeld.regs with y := 3, b := 4 } }
     u.regs.n = minvHeld.regs.n ∧ u.regs.x = minvHeld.regs.x ∧ u.minvWork = minvHeld.minvWork) := by decide

/-- The operands of `s` are canonical, as PaddComputesTheGroupLaw says it. -/
abbrev Canon (s : Ecmau 64) : Prop :=
  (0 ≤ s.regs.px.toInt ∧ s.regs.px.toInt < s.regs.p.toInt) ∧ (0 ≤ s.regs.py.toInt ∧ s.regs.py.toInt < s.regs.p.toInt) ∧
  (0 ≤ s.regs.qx.toInt ∧ s.regs.qx.toInt < s.regs.p.toInt) ∧ (0 ≤ s.regs.qy.toInt ∧ s.regs.qy.toInt < s.regs.p.toInt)

/-- PaddComputesTheGroupLaw, its first three clauses: p = 0; a coordinate equal to p; the identity. -/
theorem witness_padd_checks :
    (points 0 2 5 1 5 1).regs.p.toInt ≤ 0 ∧
    (0 < (points 17 2 5 17 5 1).regs.p.toInt ∧ ¬Canon (points 17 2 5 17 5 1)) ∧
    (0 < (points 17 2 5 1 5 16).regs.p.toInt ∧ Canon (points 17 2 5 1 5 16) ∧
      (points 17 2 5 1 5 16).regs.px.toInt = (points 17 2 5 1 5 16).regs.qx.toInt ∧
      (points 17 2 5 1 5 16).regs.py.toInt ≠ (points 17 2 5 1 5 16).regs.qy.toInt) := by decide

/-- Its last two clauses: a doubling and an addition without an inverse, and each with one. The coordinates 0 and
p - 1 are at the ends of their range. -/
theorem witness_padd_slope :
    (Canon (points 17 2 0 0 0 0) ∧ ¬(2 ≤ (17 : Int) ∧ Int.gcd 17 ((2 * 0) % 17) = 1)) ∧
    (Canon (points 12 1 1 1 3 2) ∧ ¬(2 ≤ (12 : Int) ∧ Int.gcd 12 ((3 - 1) % 12) = 1)) ∧
    (Canon (points 17 2 16 16 16 16) ∧ 2 ≤ (17 : Int) ∧ Int.gcd 17 ((2 * 16) % 17) = 1) ∧
    (Canon (points 17 2 0 6 16 13) ∧ 2 ≤ (17 : Int) ∧ Int.gcd 17 ((16 - 0) % 17) = 1) := by decide

/-- DoublingWithoutInverse: py = 0, p = 1, p = 2, and p = 9 with py = 3. -/
theorem witness_doubling :
    (Canon (points 17 2 5 0 5 0) ∧ (points 17 2 5 0 5 0).regs.py = 0) ∧
    (Canon (points 1 2 0 0 0 0) ∧ (points 1 2 0 0 0 0).regs.p.toInt = 1) ∧
    (Canon (points 2 2 1 1 1 1) ∧ (points 2 2 1 1 1 1).regs.p.toInt = 2) ∧
    (Canon (points 9 2 1 3 1 3) ∧ Int.gcd (points 9 2 1 3 1 3).regs.p.toInt (2 * (points 9 2 1 3 1 3).regs.py.toInt) ≠ 1) :=
  by decide

/-- PaddStaysOnTheCurve: (5, 1) and (6, 3) are on y² = x³ + 2x + 2 modulo 17, and PADD of them completes with OK. -/
theorem witness_on_curve :
    ((1 * 1) % 17 = ((5 * 5 * 5 + 2 * 5 + 2) % 17 : Int) ∧ (3 * 3) % 17 = ((6 * 6 * 6 + 2 * 6 + 2) % 17 : Int)) ∧
    (paddTest 17 2 5 1 6 3).map (fun r => r.1) = some .ok := by decide

theorem witness_tbuild_issue : small.busy = false := rfl

/-- TbuildChecks: P = 0, and a generator that is not canonical. -/
theorem witness_tbuild_checks :
    idle.regs.p.toInt ≤ 0 ∧ 0 < (points 17 2 5 17 0 0).regs.p.toInt ∧ ¬Canon (points 17 2 5 17 0 0) := by decide

/-- TBUILD.B in flight on `small`. -/
def building : Ecmau 64 := small.issue 0x120

/-- `building` with room for N_TAB entries a table. -/
def buildingIn (nTab : Nat) : Ecmau 64 := { building with cfg := config nTab }

theorem building_inv (nTab : Nat) (h : nTab = 5 ∨ nTab = 256) : Inv (buildingIn nTab) := by
  refine ⟨by rcases h with rfl | rfl <;> decide, rfl, fun _ => rfl, fun t => ?_, fun t _ => (by cases t <;> rfl), trivial⟩
  cases t <;>
    exact ⟨fun _ => ⟨rfl, rfl, rfl, rfl⟩, fun h => (by cases h), fun h => (by cases h), fun h => (by cases h),
      fun h => (by cases h), fun h => (by cases h), fun h => (by cases h)⟩

/-- TbuildFillsItsTable and TbuildInvalidatesAtIssue: TBUILD.B in flight. With N_TAB = 256 it completes with OK, with
N_TAB = 5 it does not. -/
theorem witness_tbuild :
    Inv (buildingIn 256) ∧ Inv (buildingIn 5) ∧ (buildingIn 5).command = some (.ok (tbuildOf .B)) ∧
    (buildTest .B (buildingIn 256)).map (fun r => r.1) = some .ok ∧
    (buildTest .B (buildingIn 5)).map (fun r => r.1) = some .tableOverflow :=
  ⟨building_inv _ (.inr rfl), building_inv _ (.inl rfl), by decide, by decide, by decide⟩

/-- TbuildClosesItsSubgroup: 6·(0, 1) = (0, 2) on `small`, at the cap: k = 6 = 2·3. -/
theorem witness_tbuild_closes :
    WorkOk building ∧ building.command = some (.ok (tbuildOf .B)) ∧ building.cfg.nTab = 256 ∧
    (0 < building.regs.p.toInt ∧ (6 : Int) ≤ 2 * building.regs.p.toInt) ∧
    multiple building.regs.p.toInt building.regs.a.toInt { x := building.regs.px.toInt, y := building.regs.py.toInt } 6 =
      some { x := 0, y := 2 } ∧
    paddCore building.regs.p.toInt building.regs.a.toInt { x := 0, y := 2 }
      { x := building.regs.px.toInt, y := building.regs.py.toInt } = .identity :=
  ⟨trivial, by decide, rfl, by decide, by decide, by decide⟩

/-- BuildEndsByTheMultiples: a build that closes, one that finds no inverse, one that overflows. Whether one diverges
is not known: 95_test_vectors.md 2.3 found none. -/
theorem witness_build_ends :
    (1 ≤ 256 ∧ 0 < (3 : Int)) ∧
    build 256 3 2 { x := 0, y := 1 } =
      .closed 7 [⟨0, 1⟩, ⟨1, 1⟩, ⟨2, 2⟩, ⟨2, 1⟩, ⟨1, 2⟩, ⟨0, 2⟩] ∧
    build 256 17 1 { x := 0, y := 0 } = .failed .noInverse ∧
    build 5 3 2 { x := 0, y := 1 } = .failed .tableOverflow := by decide

/-- TlookupReadsItsTable: an invalid table; K = 0 and K = n out of range; K = 1 and K = n - 1 in range. -/
theorem witness_tlookup :
    (small.table .A).valid = false ∧ ((lookupAt .A 0).table .A).valid = true ∧ ((lookupAt .A 0).table .A).order.toNat = 7 ∧
    ¬(1 ≤ (lookupAt .A 0).regs.k.toInt) ∧ ¬((lookupAt .A 7).regs.k.toInt ≤ 7 - 1) ∧
    1 ≤ (lookupAt .A 1).regs.k.toInt ∧ (lookupAt .A 6).regs.k.toInt ≤ 7 - 1 := by decide

/-- The chain of R47 on the table of `smallBuilt`, entry by entry. -/
theorem small_chain : ∀ k : Nat, 2 ≤ k → (k : Int) ≤ 7 - 1 →
    paddCore 3 2 (entryPoint (tableEntry .A ((smallBuilt .A).table .A) (k - 1)))
      (entryPoint (tableEntry .A ((smallBuilt .A).table .A) 1)) =
      .sum (entryPoint (tableEntry .A ((smallBuilt .A).table .A) k)) := by
  intro k h1 h2
  obtain rfl | rfl | rfl | rfl | rfl : k = 2 ∨ k = 3 ∨ k = 4 ∨ k = 5 ∨ k = 6 := by omega
  all_goals rfl

/-- The tables of `smallBuilt` are as the invariant says. -/
theorem small_tables : ∀ t, TableOk (smallBuilt .A) t := by
  intro t
  cases t with
  | A => exact ⟨fun h => (by cases h), fun _ => by decide, fun _ => rfl, fun _ => rfl, fun _ => small_chain,
      fun _ => by decide, fun _ => by decide⟩
  | B => exact ⟨fun _ => by decide, fun h => (by cases h), fun h => (by cases h), fun h => (by cases h),
      fun h => (by cases h), fun h => (by cases h), fun h => (by cases h)⟩

/-- A state with a valid table meets the invariant. -/
theorem small_inv : Inv (smallBuilt .A) :=
  ⟨by decide, by decide, fun h => (by cases h), small_tables, fun t h => (by cases t <;> cases h), trivial⟩

/-- LookupIsScalarMultiplication and StepKeepsTheInvariant: a state with a valid table that meets the invariant, and
K = 1 and K = n - 1. -/
theorem witness_inv :
    Inv (smallBuilt .A) ∧ ((smallBuilt .A).table .A).valid = true ∧
    (1 ≤ (1 : Word 64).toInt ∧ (6 : Word 64).toInt ≤ ((smallBuilt .A).table .A).order.toNat - 1) ∧
    ∃ t : Ecmau 64, step (smallBuilt .A).pack = .next t.pack :=
  ⟨small_inv, rfl, by decide, _, rfl⟩

theorem witness_step_runs :
    (busyNop.inflight = some 0 ∧ decode (0 : Word 64) = .ok .nop ∧ busyNop.turns = [] ∧
      ({ busyNop with turns := [.complete, .host] } : Ecmau 64).turns = .complete :: [.host]) ∧
    32 ≤ State.reset.width ∧ 32 ≤ (unitWith 32 (DataRegs.reset 32)).pack.width ∧
    decodeTableWord 32 0x121 = some .tlookupB := by decide

theorem witness_step_illegal :
    (idle.issue 0x101).inflight = some 0x101 ∧ decode (0x101 : Word 64) = .error .tableBit ∧
    (idle.issue 0x101).turns = [] ∧
    ({ idle.issue 0x101 with turns := [.complete] } : Ecmau 64).turns = .complete :: [] := by decide

/-- StepTakesTurns: the host with a write, a read and nothing to do; the unit with a turn and nothing in flight. -/
theorem witness_turns :
    (let s : Ecmau 64 := { idle with turns := [.host], events := [.regWrite 0x09 3] }
     s.turns = .host :: [] ∧ s.events = .regWrite 0x09 3 :: []) ∧
    (let s : Ecmau 64 := { idle with turns := [.host], events := [.regRead 0] }
     s.turns = .host :: [] ∧ s.events = .regRead 0 :: []) ∧
    (idle.turns = [] ∧ idle.inflight = none ∧ idle.events = []) ∧
    (let s : Ecmau 64 := { idle with turns := [.complete, .work] }
     s.turns = .complete :: [.work] ∧ s.inflight = none) := by decide

/-- A unit with MINV of 5 modulo 12 in flight, and the host about to write X. -/
def busyMinv : Ecmau 64 := { (scalars 64 12 5 0).issue 4 with events := [.regWrite 0x09 3], turns := [.host] }

theorem busyMinv_inv : Inv busyMinv := by
  refine ⟨by decide, by decide, fun _ => rfl, fun t => ?_, fun t h => (by cases t <;> rfl), trivial⟩
  cases t <;>
    exact ⟨fun _ => by decide, fun h => (by cases h), fun h => (by cases h), fun h => (by cases h),
      fun h => (by cases h), fun h => (by cases h), fun h => (by cases h)⟩

theorem witness_work_turns : Inv busyMinv ∧ busyMinv.command = some (.ok .minv) := ⟨busyMinv_inv, by decide⟩

/-- OperandsAreFixedInFlight: the host writes X while MINV is in flight. -/
theorem witness_operands_fixed :
    Inv busyMinv ∧ (∃ t : Ecmau 64, step busyMinv.pack = .next t.pack) ∧ busyMinv.busy = true ∧
    busyMinv.unitCompletes = false ∧ ¬busyMinv.resets := by
  refine ⟨busyMinv_inv, ⟨_, rfl⟩, rfl, rfl, ?_⟩
  rintro (h | ⟨v, h, -⟩) <;> cases h

/-- ErrIsSticky and CodeChangesAtCompletionOnly: a completion that sets ERR and changes CODE, and a STATUS write that
clears ERR. -/
theorem witness_err :
    (∃ t : Ecmau 64, step (idle.issue 1).pack = .next t.pack ∧ (idle.issue 1).unitCompletes = true ∧
      (idle.issue 1).err = false ∧ t.err = true ∧ t.code ≠ (idle.issue 1).code) ∧
    ∃ t : Ecmau 64, step ({ idle with err := true, events := [.regWrite 0x04 4] } : Ecmau 64).pack = .next t.pack ∧
      t.err = false :=
  ⟨⟨_, rfl, rfl, rfl, by decide, by decide⟩, _, rfl, by decide⟩

/-- TablesChangeByTbuildOnly: the completion that makes table B valid, and the write of P that invalidates table A. -/
theorem witness_tables_change :
    ((building.table .B).valid = false ∧
      (nextOf (step building.pack)).map (fun t => (t.unit.table .B).valid) = some true) ∧
    ∃ t : Ecmau 64, step ({ smallBuilt .A with events := [.regWrite 0x10 3] } : Ecmau 64).pack = .next t.pack ∧
      t.table .A ≠ (smallBuilt .A).table .A :=
  ⟨by decide, _, rfl, by decide⟩

/-- OnlyBusAccessesStop: both stops are reached. -/
theorem witness_stops :
    idle.cfg.wellFormed 64 = true ∧
    step ({ idle with events := [.busRead 4 4] } : Ecmau 64).pack = .fault .busError ∧
    step ({ idle with events := [.busWrite 512 [0]] } : Ecmau 64).pack = .refused .outsideWindow :=
  ⟨by decide, rfl, rfl⟩

theorem witness_reset : (0x2 : Word 64).getLsbD 1 = true ∧ (0x3 : RegIndex).val ≤ 0x3F := by decide

/-- StartsMeetTheInvariant: a start at the reference width, and one at W = 32 with accesses to come. -/
theorem witness_starts :
    State.reset.starts ∧
    ({ unitWith 32 (DataRegs.reset 32) with events := [.regRead 0], turns := [.host] } : Ecmau 32).pack.starts :=
  ⟨⟨64, Config.reference, [], [], by decide, rfl⟩, 32, Config.reference, [.regRead 0], [.host], by decide, rfl⟩

/-- ValidTablesHoldTheirSubgroup: a run in which the host writes P, A and (PX, PY) and issues TBUILD.A. -/
def buildRun : Ecmau 64 :=
  { idle with events := [.regWrite 0x10 3, .regWrite 0x11 2, .regWrite 0x15 1, .regWrite 0x05 0x20] }

theorem witness_reachable : ∃ s, Reachable s ∧ (s.unit.table .A).valid = true := by
  have h0 : Reachable buildRun.pack := .start _ ⟨64, Config.reference, buildRun.events, [], by decide, rfl⟩
  have h1 := Reachable.step _ _ h0 (by rfl)
  have h2 := Reachable.step _ _ h1 (by rfl)
  have h3 := Reachable.step _ _ h2 (by rfl)
  have h4 := Reachable.step _ _ h3 (by rfl)
  have h5 := Reachable.step _ _ h4 (by rfl)
  exact ⟨_, h5, by decide⟩

/-- StepKeepsTheParameters: a step. -/
theorem witness_step : ∃ t, step ({ idle with events := [.hardReset] } : Ecmau 64).pack = .next t := ⟨_, rfl⟩

/-- PseudoInstructionsExpand: an idle unit, N positive, and Y above its lowest value and at it. -/
theorem witness_pseudo :
    (scalars 64 1 0 0x8000000000000001).busy = false ∧
    (scalars 64 1 0 0x8000000000000001).regs.y.toInt ≠ -2 ^ (64 - 1) ∧
    0 < (scalars 64 1 0 0x8000000000000001).regs.n.toInt ∧
    (scalars 64 1 0 0x8000000000000000).regs.y.toInt = -2 ^ (64 - 1) ∧
    (scalars 32 1 0 0x80000000).regs.y.toInt = -2 ^ (32 - 1) ∧
    decode (0x101 : Word 64) = .error .tableBit := by decide

end Sys2Proof.Tests
end

section
/-! The parameters and the host's accesses: what each operation keeps of them (00_scope.md R8, R9; 20_memory.md R66,
R68; 60_exceptions.md R211). The width needs no lemma of this kind: it is the argument of the type, and `step_pack` says
that a step keeps it. -/

namespace Sys2Proof.Machine

variable {W : Nat}

/-- `t` has the parameters of `s` and the same accesses of the host still to come. -/
structure KeepsCfgAndEvents (s t : Ecmau W) : Prop where
  cfg : t.cfg = s.cfg
  events : t.events = s.events

/-- A completion, whatever it writes, is no change of parameters or accesses. -/
theorem Completes.keepsCfgAndEvents {s t : Ecmau W} {c : ResultCode} {regs : DataRegs W} {tabA tabB : Table W}
    (h : Completes s t c regs tabA tabB) : KeepsCfgAndEvents s t :=
  ⟨h.cfg, h.events⟩

theorem toReset_keepsCfgAndEvents (s : Ecmau W) : KeepsCfgAndEvents s s.toReset := ⟨rfl, rfl⟩

theorem writeCtrl_keepsCfgAndEvents (s : Ecmau W) (v : Word W) : KeepsCfgAndEvents s (s.writeCtrl v) := by
  obtain ⟨_, h⟩ | ⟨_, h⟩ := writeCtrl_cases s v
  · exact h ▸ toReset_keepsCfgAndEvents s
  · exact h ▸ ⟨rfl, rfl⟩

theorem regWrite_keepsCfgAndEvents (s : Ecmau W) (i : RegIndex) (v : Word W) :
    KeepsCfgAndEvents s (s.regWrite i v) := by
  obtain h | ⟨_, h⟩ | ⟨_, h⟩ | ⟨_, _, h⟩ | ⟨_, regs, _, _, h⟩ | ⟨_, _, regs, h⟩ := regWrite_cases s i v
  · exact h ▸ ⟨rfl, rfl⟩
  · exact h ▸ writeCtrl_keepsCfgAndEvents s v
  · exact h ▸ ⟨rfl, rfl⟩
  · exact h ▸ ⟨s.issue_cfg v, s.issue_events v⟩
  · exact h ▸ ⟨rfl, rfl⟩
  · exact h ▸ ⟨by simp, by simp⟩

/-- What an event does to the unit changes neither: that the event is used up is `hostTurn`'s doing. -/
theorem hostEvent_keepsCfgAndEvents {e : Event W} {s t : Ecmau W} (h : hostEvent e s = .next t) :
    KeepsCfgAndEvents s t := by
  obtain ⟨_, _, rfl⟩ | ⟨i, v, _, rfl⟩ | ⟨_, _, rfl⟩ := hostEvent_cases h
  · exact ⟨rfl, rfl⟩
  · exact regWrite_keepsCfgAndEvents s i v
  · exact toReset_keepsCfgAndEvents s

theorem workTurn_keepsCfgAndEvents (s : Ecmau W) : KeepsCfgAndEvents s s.workTurn := by
  obtain ⟨_, h⟩ := workTurn_eq s
  exact h ▸ ⟨rfl, rfl⟩

theorem ExecEnds.keepsCfgAndEvents {i : Instr} {s t : Ecmau W} (h : ExecEnds i s t) : KeepsCfgAndEvents s t := by
  cases h with
  | bare c _ h => exact h ▸ (complete_completes s c).keepsCfgAndEvents
  | nop _ h => exact h ▸ (complete_completes s .ok).keepsCfgAndEvents
  | scalar _ r h => exact h ▸ (complete_regs_completes s _ .ok).keepsCfgAndEvents
  | point _ x y h => exact h ▸ (complete_regs_completes s _ .ok).keepsCfgAndEvents
  | build sel _ n es _ _ _ h => exact h ▸ (complete_table_completes s sel _ .ok).keepsCfgAndEvents

theorem unitTurn_keepsCfgAndEvents {s t : Ecmau W} (h : unitTurn s.pack = .next t.pack) : KeepsCfgAndEvents s t := by
  obtain ⟨_, hu⟩ | ⟨_, _, _, _, hu⟩ | ⟨_, _, _, _, _, hu, _, hends⟩ := unitTurn_cases s
  all_goals
    rw [hu] at h
    cases h
  · exact ⟨rfl, rfl⟩
  · exact (complete_completes s .illegal).keepsCfgAndEvents
  · exact hends.keepsCfgAndEvents

/-- A step keeps the parameters, and takes at most the first of the host's accesses (20_memory.md R68). -/
theorem step_cfg_events {s t : Ecmau W} (h : step s.pack = .next t.pack) :
    t.cfg = s.cfg ∧ (t.events = s.events ∨ ∃ e, s.events = e :: t.events) := by
  obtain ⟨_, _, rfl⟩ | ⟨_, _, rfl⟩ | ⟨_, _, hu⟩ | ⟨e, es, _, _, hs, he⟩ := step_cases h
  · exact ⟨rfl, .inl rfl⟩
  · have hk := workTurn_keepsCfgAndEvents s.turned
    exact ⟨hk.cfg, .inl hk.events⟩
  · have hk := unitTurn_keepsCfgAndEvents hu
    exact ⟨hk.cfg, .inl hk.events⟩
  · have hk := hostEvent_keepsCfgAndEvents he
    exact ⟨hk.cfg, .inr ⟨e, by rw [hs, hk.events]⟩⟩

end Sys2Proof.Machine
end

section
open Sys2Proof.Machine

/-- Settles O59: the width by `step_pack`, the rest by the four things a step can do. -/
theorem stepKeepsTheParameters : Obligations.StepKeepsTheParameters := by
  intro W s t h
  obtain ⟨u, rfl⟩ := step_pack h
  exact ⟨u, rfl, step_cfg_events h⟩

end

section
/-! The loops of MINV and TBUILD keep the invariants of their working values, and a build that closes leaves them at
its end (40_modular.md R104, 42_table.md R152). -/

namespace Sys2Proof.Machine

variable {W : Nat}

/-- The first working values of MINV are as R104 says. -/
theorem startMinv_ok {n : Int} (hn : 0 < n) (x : Int) : MinvWorkOk n x (startMinv n x) where
  nonneg := cmod_nonneg hn x
  below := cmod_lt hn x
  bounded := le_rfl
  live := .inl rfl
  bezout0 := by simp [startMinv]
  bezout1 := by simp [startMinv, cmod_eq_emod hn]
  gcd := by rw [startMinv, cmod_eq_emod hn, Int.gcd_comm, Int.gcd_emod, Int.gcd_comm]

/-- One division step keeps the congruences and the gcd (R104). -/
theorem minvPass_ok {n x : Int} {w : MinvWork} (h : MinvWorkOk n x w) (h2 : 2 ≤ w.r1) :
    MinvWorkOk n x (minvPass w) where
  nonneg := (minvPass_r1_bounds (by omega)).1
  below := (minvPass_r1_bounds (by omega)).2
  bounded := h.below.le.trans h.bounded
  live := .inr h2
  bezout0 := h.bezout1
  bezout1 := by
    have h0 : w.t0 * x ≡ w.r0 [ZMOD n] := h.bezout0
    have h1 : w.t1 * x ≡ w.r1 [ZMOD n] := h.bezout1
    have hp := h0.sub (h1.mul_left (w.r0.fdiv w.r1))
    rwa [← mul_assoc, ← sub_mul] at hp
  gcd := by rw [minvPass_r1 (by omega), minvPass_r0, Int.gcd_comm, Int.gcd_emod, h.gcd]

/-- A pass that closes the build adds the generator to the last entry and finds the identity (R152). -/
theorem buildPass_closed {nTab : Nat} {p a n : Int} {g : Point} {w : BuildWork} {es : List Point}
    (h : buildPass nTab p a g w = .ended (.closed n es)) :
    n = w.order + 1 ∧ es = w.entries ∧ paddCore p a w.cur g = .identity := by
  unfold buildPass at h
  simp only at h
  split at h
  · cases h
  · split at h
    · cases h
    · cases h
      exact ⟨rfl, rfl, by assumption⟩
    · split at h <;> cases h

/-- A build that closes does so at working values that the invariant of its loop holds of. -/
theorem buildLoop_closed {nTab : Nat} {p a n : Int} {g : Point} {es : List Point} {f : Nat} {w : BuildWork}
    (hw : BuildWorkOk nTab p a g w) (h : buildLoop nTab p a g f w = .closed n es) :
    ∃ w', BuildWorkOk nTab p a g w' ∧ n = w'.order + 1 ∧ es = w'.entries ∧ paddCore p a w'.cur g = .identity := by
  induction f generalizing w with
  | zero => cases h
  | succ f ih =>
    unfold buildLoop at h
    split at h
    · next w' hm => exact ih (buildPass_ok hw hm) h
    · next e he =>
      subst h
      exact ⟨w, hw, buildPass_closed he⟩

/-- The entries of a table filled with the points of a build are the multiples of its generator. -/
theorem entryPoint_tableEntry {nTab : Nat} {p a : Int} {g : Point} {w : BuildWork} (hw : BuildWorkOk nTab p a g w)
    (hp : 0 < p) (hpW : p ≤ 2 ^ W) (hg : canonical p g = true) (sel : TableSel) {tab : Table W}
    (he : tab.entries = w.entries.map Point.toEntry) {k : Nat} (h1 : 1 ≤ k) (hk : k ≤ w.entries.length) :
    multiple p a g k = some (entryPoint (tableEntry sel tab k)) := by
  obtain ⟨j, rfl⟩ : ∃ j, k = j + 1 := ⟨k - 1, by omega⟩
  have hm := hw.multiples (j + 1) h1 hk
  rw [Nat.add_sub_cancel, List.getElem?_eq_getElem hk] at hm
  have hj : j < w.entries.length := hk
  have ht : tableEntry sel tab (j + 1) = (w.entries[j]).toEntry := by simp [tableEntry, he, hj]
  rw [ht, entryPoint_toEntry hpW (multiple_canonical hp hg hm.symm), hm]

end Sys2Proof.Machine
end

section
/-! Every step keeps the invariant: what it says of each part of the state is kept by each operation. -/

namespace Sys2Proof.Machine

variable {W : Nat}

/-! ### Parts of the invariant -/

/-- N_TAB is positive, and the order of a full table is a value of W bits (00_scope.md R9). -/
theorem nTab_bounds {c : Config} (h : c.wellFormed W = true) : 1 ≤ c.nTab ∧ (c.nTab : Int) + 1 < 2 ^ W := by
  simp only [Config.wellFormed, widthAllowed, Config.nTabAllowed, Bool.and_eq_true, decide_eq_true_eq] at h
  obtain ⟨⟨⟨hW, h1, h2⟩, -⟩, -⟩ := h
  have h3 : (2 : Int) ≤ 2 ^ (W - 1) := le_self_pow₀ (by norm_num) (by omega)
  have h4 : (c.nTab : Int) ≤ 2 ^ (W - 1) - 1 := by
    have : 1 ≤ 2 ^ (W - 1) := Nat.one_le_two_pow
    zify [this] at h2
    exact h2
  rw [two_pow_succ_pred (by omega)]
  omega

/-- A table that is not valid and lists nothing is as R41 says. -/
theorem TableOk.of_not_valid {s : Ecmau W} {sel : TableSel} (hv : (s.table sel).valid = false)
    (h0 : (s.table sel).order = 0 ∧ (s.table sel).gx = 0 ∧ (s.table sel).gy = 0 ∧ (s.table sel).entries = []) :
    TableOk s sel := by
  constructor <;> intro h
  · exact h0
  all_goals cases hv.symm.trans h

theorem TableOk.of_invalidate {s : Ecmau W} {sel : TableSel} {tab : Table W} (h : s.table sel = tab.invalidate) :
    TableOk s sel :=
  .of_not_valid (by rw [h]; rfl) (by rw [h]; exact ⟨rfl, rfl, rfl, rfl⟩)

/-- What holds of a table rests on the table, the parameters, and the registers P and A. -/
theorem TableOk.congr {s t : Ecmau W} {sel : TableSel} (h : TableOk s sel) (htab : t.table sel = s.table sel)
    (hcfg : t.cfg = s.cfg) (hp : t.regs.p = s.regs.p) (ha : t.regs.a = s.regs.a) : TableOk t sel := by
  have hP : t.opP = s.opP := congrArg sval hp
  have hA : t.opA = s.opA := congrArg sval ha
  obtain ⟨h1, h2, h3, h4, h5, h6, h7⟩ := h
  constructor <;> simpa only [htab, hcfg, hP, hA]

/-- A table that a completed build fills is as R47 says. -/
theorem TableOk.of_build {s : Ecmau W} {sel : TableSel} {w : BuildWork} (hcfg : s.cfg.wellFormed W = true)
    (hw : BuildWorkOk s.cfg.nTab s.opP s.opA s.opPoint1 w) (hp : 0 < s.opP) (hg : canonical s.opP s.opPoint1 = true)
    (hid : paddCore s.opP s.opA w.cur s.opPoint1 = .identity)
    {epoch : Nat} (htab : s.table sel =
      { valid := true, order := bitsW (w.order + 1), gx := bitsW s.opPoint1.x, gy := bitsW s.opPoint1.y,
        entries := w.entries.map Point.toEntry, epoch := epoch }) : TableOk s sel := by
  obtain ⟨hv, ho, hgx, hgy, he⟩ : (s.table sel).valid = true ∧ (s.table sel).order = bitsW (w.order + 1) ∧
      (s.table sel).gx = bitsW s.opPoint1.x ∧ (s.table sel).gy = bitsW s.opPoint1.y ∧
      (s.table sel).entries = w.entries.map Point.toEntry := by rw [htab]; exact ⟨rfl, rfl, rfl, rfl, rfl⟩
  have hpos := hw.positive
  have hfits := hw.fits
  have hlen := hw.listed
  have hpW : s.opP ≤ 2 ^ W := (sval_lt_two_pow s.regs.p).le
  have hou : uval (s.table sel).order = w.order + 1 := by
    have := (nTab_bounds hcfg).2
    rw [ho, uval_bitsW (by omega) (by omega)]
  have hon : ((s.table sel).order.toNat : Int) = w.order + 1 := hou
  have entry {k : Nat} (h1 : 1 ≤ k) (hk : k ≤ w.entries.length) :
      multiple s.opP s.opA s.opPoint1 k = some (entryPoint (tableEntry sel (s.table sel) k)) :=
    entryPoint_tableEntry hw hp hpW hg sel he h1 hk
  have hfirst : entryPoint (tableEntry sel (s.table sel) 1) = s.opPoint1 :=
    (Option.some.inj (entry le_rfl (by omega))).symm
  have hG : ((s.table sel).gx, (s.table sel).gy) = tableEntry sel (s.table sel) 1 := by
    rw [hgx, hgy, ← toEntry_entryPoint (tableEntry sel (s.table sel) 1), hfirst]
    rfl
  refine ⟨fun h => (by cases hv.symm.trans h), fun _ => by omega, fun _ => by simp only [he, List.length_map]; omega,
    fun _ => hG, fun _ k h2 hk => ?_, fun _ => ⟨hp, by rwa [hG, hfirst]⟩, fun _ => ?_⟩
  · obtain ⟨j, rfl⟩ : ∃ j, k = j + 1 := ⟨k - 1, by omega⟩
    obtain ⟨b, hb, hadd⟩ := multiple_pred (by omega) (entry (k := j + 1) (by omega) (by omega))
    rw [entry (by omega) (by omega)] at hb
    rw [hfirst, Nat.add_sub_cancel, Option.some.inj hb, hadd]
  · have hlast : (s.table sel).order.toNat - 1 = w.order.toNat := by omega
    have hcur := hw.running
    rw [entry (by omega) (by omega)] at hcur
    rw [hlast, Option.some.inj hcur, hfirst, hid]

/-- With nothing in flight no working values are held (10_state.md R43). -/
theorem WorkOk.work_eq_idle {s : Ecmau W} (h : WorkOk s) (hi : s.inflight = none) : s.work = .idle := by
  have hc : s.command = none := by simp [Ecmau.command, hi]
  unfold WorkOk at h
  split at h
  · assumption
  · cases hc.symm.trans h.1
  · obtain ⟨⟨_, h⟩, -⟩ := h
    cases hc.symm.trans h

/-- Where no working values are held there is nothing to say of them. -/
theorem WorkOk.of_idle {s : Ecmau W} (h : s.work = .idle) : WorkOk s := by simp [WorkOk, h]

/-- Working values from which a build may go on: those the state holds, or the first ones. -/
theorem WorkOk.buildWork_ok {s : Ecmau W} (h : WorkOk s) (hcfg : s.cfg.wellFormed W = true) (hp : 0 < s.opP) :
    BuildWorkOk s.cfg.nTab s.opP s.opA s.opPoint1 s.buildWork := by
  have hstart := startBuild_ok (a := s.opA) (g := s.opPoint1) (nTab_bounds hcfg).1 hp
  unfold Ecmau.buildWork
  split
  · exact hstart
  · exact hstart
  · next w hw =>
    simp only [WorkOk, hw] at h
    exact h.2.2.2

/-! ### The invariant across an operation -/

/-- The invariant rests on the parameters, BUSY, DONE, the data registers, the tables and the hidden state, and a
cleared DONE does no harm. -/
theorem Inv.congr {s t : Ecmau W} (h : Inv s) (hcfg : t.cfg = s.cfg) (hbusy : t.busy = s.busy)
    (hdone : s.done = false → t.done = false) (hregs : t.regs = s.regs) (htab : ∀ sel, t.table sel = s.table sel)
    (hin : t.inflight = s.inflight) (hwork : t.work = s.work) : Inv t := by
  have hcmd : t.command = s.command := by simp only [Ecmau.command, hin]
  refine ⟨hcfg ▸ h.params, by rw [hbusy, hin, h.busy], fun hb => hdone (h.done (hbusy ▸ hb)),
    fun sel => (h.tables sel).congr (htab sel) hcfg (by rw [hregs]) (by rw [hregs]),
    fun sel hc => htab sel ▸ h.building sel (hcmd ▸ hc), ?_⟩
  have hw := h.work
  simp only [WorkOk, Ecmau.opN, Ecmau.opX, Ecmau.opP, Ecmau.opA, Ecmau.opPoint1, hwork, hcmd, hregs, hcfg] at hw ⊢
  exact hw

/-- With nothing in flight the invariant speaks of the parameters and the tables alone. -/
theorem Inv.of_idle {t : Ecmau W} (hcfg : t.cfg.wellFormed W = true) (hbusy : t.busy = false)
    (hin : t.inflight = none) (hwork : t.work = .idle) (htab : ∀ sel, TableOk t sel) : Inv t :=
  ⟨hcfg, by simp [hbusy, hin], fun h => (by cases hbusy.symm.trans h), htab,
    fun sel h => (by simp [Ecmau.command, hin] at h), .of_idle hwork⟩

theorem Inv.inflight_eq_none {s : Ecmau W} (h : Inv s) (hb : s.busy = false) : s.inflight = none := by
  simpa [hb] using h.busy

theorem reset_inv (c : Config) (hc : c.wellFormed W = true) (es : List (Event W)) (ts : List Turn) :
    Inv ({ Ecmau.reset W c with events := es, turns := ts } : Ecmau W) := by
  refine .of_idle hc rfl rfl rfl fun sel => ?_
  cases sel <;> exact .of_not_valid rfl ⟨rfl, rfl, rfl, rfl⟩

theorem toReset_inv {s : Ecmau W} (h : Inv s) : Inv s.toReset :=
  .of_idle h.params rfl rfl rfl fun sel => .of_invalidate (s.toReset_table sel)

/-- Every table is as it was, or was just invalidated by the TBUILD issued (42_table.md R151). -/
theorem issue_table_cases (s : Ecmau W) (v : Word W) (sel : TableSel) :
    ((s.issue v).table sel = s.table sel ∧ decode v ≠ .ok (tbuildOf sel)) ∨
      (s.issue v).table sel = (s.table sel).invalidate := by
  rw [s.issue_table v sel]
  obtain ⟨h, hd⟩ | ⟨t, hd, h⟩ := s.issueInvalidate_cases v <;> rw [h]
  · exact .inl ⟨rfl, hd sel⟩
  · cases t <;> cases sel <;> simp [Ecmau.invalidate, Ecmau.setTable, hd, tbuildOf]

theorem issue_inv {s : Ecmau W} (h : Inv s) (v : Word W) : Inv (s.issue v) := by
  refine ⟨by simpa using h.params, by simp, fun _ => by simp, fun sel => ?_, fun sel hc => ?_, .of_idle (by simp)⟩
  · obtain ⟨ht, -⟩ | ht := issue_table_cases s v sel
    · exact (h.tables sel).congr ht (by simp) (by simp) (by simp)
    · exact .of_invalidate ht
  · have hd : decode v = .ok (tbuildOf sel) := by simpa [Ecmau.command] using hc
    obtain ⟨-, hn⟩ | ht := issue_table_cases s v sel
    · exact absurd hd hn
    · rw [ht, Table.invalidate_valid]

theorem storeCurve_table (s : Ecmau W) (regs : DataRegs W) (sel : TableSel) :
    ((({ s with regs := regs } : Ecmau W).invalidate .A).invalidate .B).table sel = (s.table sel).invalidate := by
  cases sel <;> rfl

theorem regWrite_inv {s : Ecmau W} (h : Inv s) (i : RegIndex) (v : Word W) : Inv (s.regWrite i v) := by
  obtain hw | ⟨-, hw⟩ | ⟨-, hw⟩ | ⟨-, -, hw⟩ | ⟨hb, regs, hp, ha, hw⟩ | ⟨hb, -, regs, hw⟩ := regWrite_cases s i v <;>
    rw [hw]
  · exact h.congr rfl rfl id rfl s.dropWrite_table rfl rfl
  · obtain ⟨-, hc⟩ | ⟨-, hc⟩ := writeCtrl_cases s v <;> rw [hc]
    · exact toReset_inv h
    · exact h.congr rfl rfl id rfl (s.table_with_ie _) rfl rfl
  · exact h.congr rfl rfl (fun hd => by simp [hd]) rfl (s.ackStatus_table v) rfl rfl
  · exact issue_inv h v
  · have hi := h.inflight_eq_none hb
    exact .of_idle h.params hb hi (h.work.work_eq_idle hi) fun sel =>
      (h.tables sel).congr (s.table_with_regs regs sel) rfl hp ha
  · have hi := h.inflight_eq_none hb
    exact .of_idle (by simpa using h.params) (by simpa using hb) (by simpa using hi)
      (by simpa using h.work.work_eq_idle hi) fun sel => .of_invalidate (storeCurve_table s regs sel)

theorem hostEvent_inv {e : Event W} {s t : Ecmau W} (h : Inv s) (he : hostEvent e s = .next t) : Inv t := by
  obtain ⟨-, l, rfl⟩ | ⟨i, v, -, rfl⟩ | ⟨-, -, rfl⟩ := hostEvent_cases he
  · exact h.congr rfl rfl id rfl (s.table_with_answers l) rfl rfl
  · exact regWrite_inv h i v
  · exact toReset_inv h

/-- Other working values keep the invariant when they are as it says of them. -/
theorem Inv.with_work {s : Ecmau W} (h : Inv s) {w : Work} (hw : WorkOk ({ s with work := w } : Ecmau W)) :
    Inv ({ s with work := w } : Ecmau W) :=
  ⟨h.params, h.busy, h.done, fun sel => (h.tables sel).congr (s.table_with_work w sel) rfl rfl rfl,
    fun sel hc => s.table_with_work w sel ▸ h.building sel hc, hw⟩

theorem workMinv_inv {s : Ecmau W} (h : Inv s) (hc : s.command = some (.ok .minv)) : Inv s.workMinv := by
  unfold Ecmau.workMinv
  split
  · exact h
  · next hn =>
    have hn : 0 < s.opN := not_le.mp hn
    have hstart : Inv ({ s with work := .minv (startMinv s.opN s.opX) } : Ecmau W) :=
      h.with_work ⟨hc, hn, startMinv_ok hn _⟩
    split
    · exact hstart
    · exact hstart
    · next w hw =>
      split
      · exact h
      · have hwork := h.work
        simp only [WorkOk, hw] at hwork
        exact h.with_work ⟨hc, hn, minvPass_ok hwork.2.2 (by omega)⟩

theorem workBuild_inv {s : Ecmau W} (h : Inv s) {sel : TableSel} (hc : s.command = some (.ok (tbuildOf sel))) :
    Inv s.workBuild := by
  unfold Ecmau.workBuild
  split
  · exact h
  · next hp =>
    have hp : 0 < s.opP := not_le.mp hp
    split
    · exact h
    · next hg =>
      have hg : canonical s.opP s.opPoint1 = true := by simpa using hg
      have hok {w : BuildWork} (hw : BuildWorkOk s.cfg.nTab s.opP s.opA s.opPoint1 w) :
          Inv ({ s with work := .build w } : Ecmau W) := h.with_work ⟨⟨sel, hc⟩, hp, hg, hw⟩
      have hstart := startBuild_ok (a := s.opA) (g := s.opPoint1) (nTab_bounds h.params).1 hp
      split
      · exact hok hstart
      · exact hok hstart
      · next w hw =>
        split
        · next w' hm =>
          have hwork := h.work
          simp only [WorkOk, hw] at hwork
          exact hok (buildPass_ok hwork.2.2.2 hm)
        · exact h

theorem workTurn_inv {s : Ecmau W} (h : Inv s) : Inv s.workTurn := by
  unfold Ecmau.workTurn
  split
  · exact h
  · exact h
  · next i hc =>
    cases i with
    | minv => exact workMinv_inv h hc
    | tbuildA => exact workBuild_inv (sel := .A) h hc
    | tbuildB => exact workBuild_inv (sel := .B) h hc
    | nop | mod | madd | mmul | padd | tlookupA | tlookupB => exact h

/-- A completion that leaves P, A and the tables as they were keeps the invariant. -/
theorem Completes.inv {s t : Ecmau W} {c : ResultCode} {regs : DataRegs W} (h : Inv s)
    (hc : Completes s t c regs s.tabA s.tabB) (hp : regs.p = s.regs.p) (ha : regs.a = s.regs.a) : Inv t := by
  refine .of_idle (hc.cfg ▸ h.params) hc.busy hc.inflight hc.work fun sel =>
    (h.tables sel).congr ?_ hc.cfg (hc.regs ▸ hp) (hc.regs ▸ ha)
  cases sel
  · exact hc.tabA
  · exact hc.tabB

/-- The completion of a build that closes keeps the invariant: its table is as R47 says, the other as it was. -/
theorem completeBuild_inv {s : Ecmau W} (h : Inv s) {sel : TableSel} {n : Int} {es : List Point}
    (hb : finishBuild s.cfg.nTab s.opP s.opA s.opPoint1 s.buildWork = .closed n es) (hp : 0 < s.opP)
    (hg : canonical s.opP s.opPoint1 = true) : Inv (s.completeBuild sel (.closed n es)) := by
  obtain ⟨w, hw, rfl, rfl, hid⟩ := buildLoop_closed (h.work.buildWork_ok h.params hp) hb
  have hbuilt : TableOk (s.completeBuild sel (.closed (w.order + 1) w.entries)) sel := by
    cases sel <;> exact .of_build h.params hw hp hg hid rfl
  have hother : TableOk (s.completeBuild sel (.closed (w.order + 1) w.entries)) (otherTable sel) := by
    refine (h.tables (otherTable sel)).congr ?_ ?_ ?_ ?_ <;> simp [Ecmau.completeBuild]
  refine .of_idle ?_ rfl rfl rfl fun sel' => ?_
  · simpa [Ecmau.completeBuild] using h.params
  · obtain rfl | rfl : sel' = sel ∨ sel' = otherTable sel := by cases sel <;> cases sel' <;> simp [otherTable]
    · exact hbuilt
    · exact hother

theorem ExecEnds.inv {i : Instr} {s t : Ecmau W} (h : Inv s) (he : ExecEnds i s t) : Inv t := by
  cases he with
  | bare c _ ht => exact ht ▸ (complete_completes s c).inv h rfl rfl
  | nop _ ht => exact ht ▸ (complete_completes s .ok).inv h rfl rfl
  | scalar _ r ht => exact ht ▸ (complete_regs_completes s _ .ok).inv h rfl rfl
  | point _ x y ht => exact ht ▸ (complete_regs_completes s _ .ok).inv h rfl rfl
  | build sel _ n es hb hp hg ht => exact ht ▸ completeBuild_inv h hb hp hg

theorem unitTurn_inv {s t : Ecmau W} (h : Inv s) (hu : unitTurn s.pack = .next t.pack) : Inv t := by
  obtain ⟨-, hs⟩ | ⟨_, _, -, -, hs⟩ | ⟨_, _, _, -, -, hs, -, he⟩ := unitTurn_cases s <;> rw [hs] at hu <;> cases hu
  · exact h
  · exact (complete_completes s .illegal).inv h rfl rfl
  · exact he.inv h

theorem turned_inv {s : Ecmau W} (h : Inv s) : Inv s.turned :=
  h.congr rfl rfl id rfl (s.table_with_turns _) rfl rfl

/-- Every step keeps the invariant, by the four things a step can do. -/
theorem step_inv {s t : Ecmau W} (h : Inv s) (hst : step s.pack = .next t.pack) : Inv t := by
  have ht := turned_inv h
  obtain ⟨-, -, rfl⟩ | ⟨-, -, rfl⟩ | ⟨-, -, hu⟩ | ⟨e, es, -, -, -, he⟩ := step_cases hst
  · exact ht
  · exact workTurn_inv ht
  · exact unitTurn_inv ht hu
  · exact hostEvent_inv (ht.congr (t := { s.turned with events := es }) rfl rfl id rfl
      (s.turned.table_with_events es) rfl rfl) he

/-- The invariant holds on every run: it holds at the start and every step keeps it. -/
theorem Reachable.inv {s : State} (h : Reachable s) : Inv s.unit := by
  induction h with
  | start s hs =>
    obtain ⟨W, c, es, ts, hc, rfl⟩ := hs
    exact reset_inv c hc es ts
  | step s t _ hst ih =>
    obtain ⟨u, rfl⟩ := step_pack (s := s.unit) hst
    exact step_inv ih hst

end Sys2Proof.Machine
end

section
open Sys2Proof Sys2Proof.Machine

/-- Settles O57: a step of the machine is a step of its ECMAU (`step_pack`), which keeps the invariant (`step_inv`). -/
theorem stepKeepsTheInvariant : Obligations.StepKeepsTheInvariant := by
  intro s t h hst
  obtain ⟨u, rfl⟩ := step_pack (s := s.unit) hst
  exact step_inv h hst

/-- Settles O58: the invariant holds of every reachable state, and its operands are the registers' integer values. -/
theorem validTablesHoldTheirSubgroup : Obligations.ValidTablesHoldTheirSubgroup := by
  intro s sel hs t hv
  have ht := hs.inv.tables sel
  obtain ⟨h2, hn⟩ : 2 ≤ (t.order.toNat : Int) ∧ (t.order.toNat : Int) ≤ s.unit.cfg.nTab + 1 := ht.bounds hv
  refine ⟨by omega, by omega, (ht.first hv).symm, fun k hk hkn => ?_⟩
  rw [← sval_eq_toInt, ← sval_eq_toInt]
  have hle : (k : Int) ≤ (t.order.toNat : Int) - 1 := by omega
  exact ht.chain hv k hk hle

/-- Settles O56: `State.reset` is one of the starts, and each start is a reset state. -/
theorem startsMeetTheInvariant : Obligations.StartsMeetTheInvariant := by
  refine ⟨reset_inv Config.reference (by decide) [] [], ?_⟩
  rintro s ⟨W, c, es, ts, hc, rfl⟩
  exact reset_inv c hc es ts

end

section
/-! The register window (10_state.md R20 to R45): the registers by kind, and what a read and a write of each do. -/

namespace Sys2Proof.Machine

variable {W : Nat}

/-! ### The map -/

theorem regRead_of_unmapped {i : RegIndex} (h : regAt i = none) (s : Ecmau W) : s.regRead i = 0 := by
  simp [Ecmau.regRead, h]

theorem regWrite_of_unmapped {i : RegIndex} (h : regAt i = none) (s : Ecmau W) (v : Word W) :
    s.regWrite i v = s.dropWrite := by
  simp [Ecmau.regWrite, h]

@[simp] theorem regRead_regIndex (s : Ecmau W) (reg : Reg) : s.regRead (regIndex reg) = s.readReg reg := by
  simp [Ecmau.regRead]

@[simp] theorem regWrite_regIndex (s : Ecmau W) (reg : Reg) (v : Word W) :
    s.regWrite (regIndex reg) v = s.writeReg reg v := by
  simp [Ecmau.regWrite]

/-- The RW data registers a write to which leaves the tables alone (R38, R40). -/
def plainOperands : List Reg := [.n, .x, .y, .px, .py, .qx, .qy, .k]

/-- The RW data registers a write to which invalidates the tables (R39, R42). -/
def curveOperands : List Reg := [.p, .a, .b]

/-! ### Words read -/

theorem bitsW_natCast (n : Nat) : (bitsW (n : Int) : Word W) = BitVec.ofNat W n := by
  have h : ((n : Int) % 2 ^ W).toNat = n % 2 ^ W := by norm_cast
  apply BitVec.eq_of_toNat_eq
  rw [bitsW, h, BitVec.toNat_ofNat, BitVec.toNat_ofNat, Nat.mod_mod]

theorem ctrlWord_eq (s : Ecmau W) : s.ctrlWord = if s.ie then 1 else 0 := by
  cases h : s.ie <;> apply BitVec.eq_of_toNat_eq <;> simp [Ecmau.ctrlWord, h]

/-- SRST and the reserved bits of CTRL read 0 (R26). -/
theorem ctrlWord_getLsbD (s : Ecmau W) {k : Nat} (h : k ≠ 0) : s.ctrlWord.getLsbD k = false := by
  simp [Ecmau.ctrlWord, BitVec.getLsbD_ofBool, h]

/-- A bit of STATUS, found by its place in the fields of R29. -/
theorem statusWord_getLsbD (s : Ecmau W) {k : Nat} (hk : k < 14) (hW : 32 ≤ W) :
    s.statusWord.getLsbD k =
      ([s.busy, s.done, s.err, s.werr, false, false, false, false, s.code.toBits.getLsbD 0, s.code.toBits.getLsbD 1,
        s.code.toBits.getLsbD 2, s.code.toBits.getLsbD 3, s.tabA.valid, s.tabB.valid])[k] := by
  have hkW : k < W := by omega
  simp only [Ecmau.statusWord, BitVec.getLsbD_setWidth, hkW, BitVec.getLsbD_append, BitVec.getLsbD_ofBool]
  interval_cases k <;> simp

/-- The bits of STATUS above VALID_B read 0 (R29). -/
theorem statusWord_reserved (s : Ecmau W) {k : Nat} (h : 14 ≤ k) : s.statusWord.getLsbD k = false := by
  rw [Ecmau.statusWord, BitVec.getLsbD_setWidth, BitVec.getLsbD_of_ge _ _ (by omega), Bool.and_false]

/-- The field CODE of STATUS (R29, R34). -/
theorem statusWord_code (s : Ecmau W) (hW : 32 ≤ W) : s.statusWord.toNat / 2 ^ 8 % 2 ^ 4 = s.code.toBits.toNat := by
  rw [← Nat.shiftRight_eq_div_pow, ← BitVec.extractLsb'_toNat]
  congr 1
  apply BitVec.eq_of_getLsbD_eq
  intro k hk
  rw [BitVec.getLsbD_extractLsb', statusWord_getLsbD s (by omega) hW]
  interval_cases k <;> rfl

/-! ### Words written -/

/-- A write to a read-only register stores nothing (R21). -/
theorem writeReg_of_ro {reg : Reg} (h : regAccess reg = .ro) (s : Ecmau W) (v : Word W) :
    s.writeReg reg v = s.dropWrite := by
  cases reg <;> simp only [regAccess, reduceCtorEq] at h <;> rfl

/-- While a command is in flight a write to CMD or a data register stores nothing (R44). -/
theorem writeReg_of_busy {reg : Reg} (h : reg ∈ .cmd :: plainOperands ++ curveOperands) {s : Ecmau W}
    (hb : s.busy = true) (v : Word W) : s.writeReg reg v = s.dropWrite := by
  fin_cases h <;> simp [Ecmau.writeReg, Ecmau.writeCmd, Ecmau.storeData, Ecmau.storeCurve, hb]

theorem storeData_idle {s : Ecmau W} (hb : s.busy = false) (regs : DataRegs W) :
    s.storeData regs = { s with regs := regs } := by
  simp [Ecmau.storeData, hb]

theorem storeCurve_idle {s : Ecmau W} (hb : s.busy = false) (regs : DataRegs W) :
    s.storeCurve regs = { s with regs := regs, tabA := s.tabA.invalidate, tabB := s.tabB.invalidate } := by
  simp [Ecmau.storeCurve, hb, Ecmau.invalidate, Ecmau.setTable]

theorem writeCmd_idle {s : Ecmau W} (hb : s.busy = false) (v : Word W) : s.writeCmd v = s.issue v := by
  simp [Ecmau.writeCmd, hb]

/-- The state after a write to a data register of the idle unit: the register, and for P, A and B the tables. -/
theorem writeReg_operand {reg : Reg} (h : reg ∈ plainOperands ++ curveOperands) {s : Ecmau W} (hb : s.busy = false)
    (v : Word W) : ∃ (regs : DataRegs W) (tabA tabB : Table W),
      s.writeReg reg v = { s with regs := regs, tabA := tabA, tabB := tabB } := by
  fin_cases h <;> simp only [Ecmau.writeReg, storeData_idle hb, storeCurve_idle hb] <;> exact ⟨_, _, _, rfl⟩

/-- The register written reads back as the value (R21). -/
theorem readReg_writeReg_same {reg : Reg} (h : reg ∈ plainOperands ++ curveOperands) {s : Ecmau W}
    (hb : s.busy = false) (v : Word W) : (s.writeReg reg v).readReg reg = v := by
  fin_cases h <;> simp only [Ecmau.writeReg, storeData_idle hb, storeCurve_idle hb] <;> rfl

/-- The registers that a write to an operand `reg` may change: itself, STATUS and those of the tables. -/
theorem readReg_writeReg_other {reg reg' : Reg} (h : reg ∈ plainOperands ++ curveOperands) {s : Ecmau W}
    (hb : s.busy = false) (v : Word W) (hne : reg' ≠ reg) (hstatus : reg' ≠ .status)
    (htable : (regIndex reg').val < 0x20) : (s.writeReg reg v).readReg reg' = s.readReg reg' := by
  cases reg' with
  | status => exact absurd rfl hstatus
  | orderA | gxA | gyA | orderB | gxB | gyB => exact absurd htable (by decide)
  | id | width | tabdepth | ctrl | cmd | n | x | y | r | p | a | b | px | py | qx | qy | rx | ry | k =>
    fin_cases h <;> simp only [ne_eq, reduceCtorEq, not_true_eq_false, not_false_eq_true] at hne <;>
      simp only [Ecmau.writeReg, storeData_idle hb, storeCurve_idle hb] <;> rfl

/-- A write to an operand other than P, A and B leaves both tables as they were, busy or not (R42). -/
theorem writeReg_plain_tables {reg : Reg} (h : reg ∈ plainOperands) (s : Ecmau W) (v : Word W) :
    (s.writeReg reg v).tabA = s.tabA ∧ (s.writeReg reg v).tabB = s.tabB := by
  have hstore (regs : DataRegs W) : (s.storeData regs).tabA = s.tabA ∧ (s.storeData regs).tabB = s.tabB := by
    obtain hd | ⟨-, hd⟩ := storeData_cases s regs <;> rw [hd] <;> exact ⟨rfl, rfl⟩
  fin_cases h <;> exact hstore _

/-- A stored write to P, A or B invalidates both tables (R42). -/
theorem writeReg_curve_tables {reg : Reg} (h : reg ∈ curveOperands) {s : Ecmau W} (hb : s.busy = false)
    (v : Word W) : (s.writeReg reg v).tabA = s.tabA.invalidate ∧ (s.writeReg reg v).tabB = s.tabB.invalidate := by
  fin_cases h <;> simp only [Ecmau.writeReg, storeCurve_idle hb, and_self]

/-- WERR after a write to CMD or a data register: set where it is dropped (R33). -/
theorem writeReg_operand_werr {reg : Reg} (h : reg ∈ .cmd :: plainOperands ++ curveOperands) (s : Ecmau W)
    (v : Word W) : (s.writeReg reg v).werr = (s.werr || s.busy) := by
  cases hb : s.busy
  · fin_cases h <;> simp [Ecmau.writeReg, writeCmd_idle hb, storeData_idle hb, storeCurve_idle hb]
  · simp [writeReg_of_busy h hb]

/-- WERR after a write to CTRL: a soft reset clears it (R28). -/
theorem writeCtrl_werr (s : Ecmau W) (v : Word W) : (s.writeCtrl v).werr = (s.werr && !v.getLsbD 1) := by
  obtain ⟨hv, h⟩ | ⟨hv, h⟩ := writeCtrl_cases s v <;> simp [h, hv]

/-- The issue of a word in full: INFLIGHT, the flags, and for TBUILD.t the invalidation of table t (R181). -/
theorem issue_eq (s : Ecmau W) (v : Word W) :
    s.issue v = { s with
      inflight := some v, busy := true, done := false, work := .idle
      tabA := if decode v = .ok .tbuildA then s.tabA.invalidate else s.tabA
      tabB := if decode v = .ok .tbuildB then s.tabB.invalidate else s.tabB } := by
  unfold Ecmau.issue
  obtain ⟨h, hn⟩ | ⟨t, hd, h⟩ := s.issueInvalidate_cases v
  · have hA : decode v ≠ .ok .tbuildA := hn .A
    have hB : decode v ≠ .ok .tbuildB := hn .B
    simp [h, hA, hB]
  · cases t <;> simp [h, hd, tbuildOf, Ecmau.invalidate, Ecmau.setTable]

end Sys2Proof.Machine
end

section
open Sys2Proof Sys2Proof.Machine

/-- Settles O5: no register has any of these indices. -/
theorem unmappedIndices : Obligations.UnmappedIndices := by
  intro W s i v hi
  have unmapped : ∀ i : RegIndex, (i.val ∈ [0x06, 0x07, 0x0C, 0x0D, 0x0E, 0x0F, 0x13, 0x1B, 0x1C, 0x1D, 0x1E, 0x1F, 0x23]
      ∨ 0x27 ≤ i.val) → regAt i = none := by decide
  exact ⟨regRead_of_unmapped (unmapped i hi) s, regWrite_of_unmapped (unmapped i hi) s v⟩

/-- Settles O7: each index reads its register, the constants and CTRL by the lemmas on their words. -/
theorem windowReadsItsRegisters : Obligations.WindowReadsItsRegisters := by
  intro W s
  exact ⟨rfl, bitsW_natCast W, bitsW_natCast s.cfg.nTab, ctrlWord_eq s, rfl, rfl, rfl, rfl, rfl, rfl, rfl, rfl, rfl, rfl,
    rfl, rfl, rfl, rfl, rfl, rfl, rfl, rfl, rfl, rfl, rfl⟩

/-- Settles O6: the constants fit W bits (`32 ≤ W`). -/
theorem constantRegisters : Obligations.ConstantRegisters := by
  intro W s hW
  have h32 : 2 ^ 32 ≤ 2 ^ W := Nat.pow_le_pow_right (by norm_num) hW
  have hid : (s.regRead 0x00).toNat = 0x45430100 := by
    change (BitVec.ofNat W 0x45430100).toNat = 0x45430100
    rw [BitVec.toNat_ofNat, Nat.mod_eq_of_lt (by omega)]
  have hwidth : (s.regRead 0x01).toNat = W := by
    change (bitsW W : Word W).toNat = W
    rw [bitsW_natCast, BitVec.toNat_ofNat, Nat.mod_eq_of_lt Nat.lt_two_pow_self]
  have htab (h : s.cfg.nTab < 2 ^ (W - 1)) : (s.regRead 0x02).toNat = s.cfg.nTab := by
    have hle : 2 ^ (W - 1) ≤ 2 ^ W := Nat.pow_le_pow_right (by norm_num) (Nat.sub_le W 1)
    change (bitsW s.cfg.nTab : Word W).toNat = s.cfg.nTab
    rw [bitsW_natCast, BitVec.toNat_ofNat, Nat.mod_eq_of_lt (h.trans_le hle)]
  refine ⟨hid, ?_, ?_, ?_, ?_, hwidth, htab⟩ <;> apply BitVec.eq_of_toNat_eq <;>
    rw [BitVec.extractLsb'_toNat, hid] <;> simp

/-- Settles O8, field by field of the STATUS word. -/
theorem statusBits : Obligations.StatusBits := by
  intro W s hW
  have bit {k : Nat} (hk : k < 14) := statusWord_getLsbD s hk hW
  have hcode := statusWord_code s hW
  refine ⟨bit (by decide), bit (by decide), bit (by decide), bit (by decide), hcode.trans (by cases s.code <;> rfl),
    hcode.symm, bit (by decide), bit (by decide), fun k hk => ?_⟩
  obtain ⟨h4, h8⟩ | h14 := hk
  · refine (bit (by omega)).trans ?_
    interval_cases k <;> rfl
  · exact statusWord_reserved s h14

/-- Settles O12, by what a write to CTRL can do. -/
theorem ctrlWrites : Obligations.CtrlWrites := by
  intro W s v
  have hw : s.regWrite 0x03 v = s.writeCtrl v := rfl
  rw [hw]
  refine ⟨fun hv => ?_, fun hv => ?_, fun k hk => ctrlWord_getLsbD s hk⟩ <;>
    obtain ⟨hv', h⟩ | ⟨hv', h⟩ := writeCtrl_cases s v
  · cases hv.symm.trans hv'
  · exact h
  · exact h ▸ ⟨rfl, ctrlWord_eq s.toReset⟩
  · cases hv.symm.trans hv'

/-- Settles O13: the model's `a && !b` is the clear of bit a by bit b. -/
theorem statusWritesClear : Obligations.StatusWritesClear := by
  intro W s v
  have clear (a b : Bool) : (if b then false else a) = (a && !b) := by cases b <;> simp
  simp only [clear]
  rfl

/-- Settles O11: the first indices are those of read-only registers, the others drop every write while busy. -/
theorem droppedWritesStoreNothing : Obligations.DroppedWritesStoreNothing := by
  intro W s i v h
  have readOnly : ∀ i : RegIndex, i.val ∈ [0x00, 0x01, 0x02, 0x0B, 0x18, 0x19, 0x20, 0x21, 0x22, 0x24, 0x25, 0x26] →
      ∃ reg ∈ mappedRegs, regAccess reg = .ro ∧ i = regIndex reg := by decide
  have operand : ∀ i : RegIndex,
      i.val ∈ [0x05, 0x08, 0x09, 0x0A, 0x10, 0x11, 0x12, 0x14, 0x15, 0x16, 0x17, 0x1A] →
      ∃ reg ∈ .cmd :: plainOperands ++ curveOperands, i = regIndex reg := by decide
  obtain hi | ⟨hb, hi⟩ := h
  · obtain ⟨reg, -, hro, rfl⟩ := readOnly i hi
    exact (regWrite_regIndex s reg v).trans (writeReg_of_ro hro s v)
  · obtain ⟨reg, hreg, rfl⟩ := operand i hi
    exact (regWrite_regIndex s reg v).trans (writeReg_of_busy hreg hb v)

/-- Settles O14: the index is an operand's, and every other index below the tables' is unmapped or another register's. -/
theorem dataRegistersReadBack : Obligations.DataRegistersReadBack := by
  intro W s i v hb hi
  have operand : ∀ i : RegIndex, i.val ∈ [0x08, 0x09, 0x0A, 0x10, 0x11, 0x12, 0x14, 0x15, 0x16, 0x17, 0x1A] →
      ∃ reg ∈ plainOperands ++ curveOperands, i = regIndex reg := by decide
  obtain ⟨reg, hreg, rfl⟩ := operand i hi
  rw [regWrite_regIndex, regRead_regIndex]
  refine ⟨readReg_writeReg_same hreg hb v, fun j hj hlt hst => ?_, ?_⟩
  · cases hr : regAt j with
    | none => rw [regRead_of_unmapped hr, regRead_of_unmapped hr]
    | some reg' =>
      obtain rfl := regAt_eq_some hr
      rw [regRead_regIndex, regRead_regIndex]
      exact readReg_writeReg_other hreg hb v (fun h => hj (h ▸ rfl)) (fun h => hst (h ▸ rfl)) hlt
  · obtain ⟨regs, tabA, tabB, h⟩ := writeReg_operand hreg hb v
    rw [h]
    exact ⟨rfl, hb, rfl⟩

/-- Settles O15: the first indices are those of P, A and B, the others those of the operands that no table rests on. -/
theorem curveWritesInvalidate : Obligations.CurveWritesInvalidate := by
  have curve : ∀ i : RegIndex, i.val ∈ [0x10, 0x11, 0x12] → ∃ reg ∈ curveOperands, i = regIndex reg := by decide
  have plain : ∀ i : RegIndex, i.val ∈ [0x08, 0x09, 0x0A, 0x14, 0x15, 0x16, 0x17, 0x1A] →
      ∃ reg ∈ plainOperands, i = regIndex reg := by decide
  refine ⟨fun W s i v hb hi => ?_, fun W s i v hi => ?_⟩
  · obtain ⟨reg, hreg, rfl⟩ := curve i hi
    exact regWrite_regIndex s reg v ▸ writeReg_curve_tables hreg hb v
  · obtain ⟨reg, hreg, rfl⟩ := plain i hi
    exact regWrite_regIndex s reg v ▸ writeReg_plain_tables hreg s v

/-- Settles O16: dropped while busy, and otherwise the issue of the word. -/
theorem cmdWritesIssue : Obligations.CmdWritesIssue := by
  intro W s v
  exact ⟨rfl, fun hb => writeReg_of_busy (reg := .cmd) (by decide) hb v,
    fun hb => (writeCmd_idle hb v).trans (issue_eq s v)⟩

end

section
/-! What a step does to the flags, CODE, the operands and the tables, by its cause (10_state.md R32 to R34, R43, R44);
and that the commands do not read B (R39). -/

namespace Sys2Proof.Machine

variable {W : Nat}

/-! ### One step by its cause -/

/-- The ways in which a step from `s` can answer `t`, with the cause in the terms of the claims. -/
inductive StepEnds (s t : Ecmau W) : Prop where
  /-- The unit or an idle agent has the turn, and at most the working values and the schedule change. -/
  | hidden (hc : s.unitCompletes = false) (ts : List Turn) (w : Work) (h : t = { s with turns := ts, work := w })
  /-- The command in flight completes. -/
  | completion (hc : s.unitCompletes = true) (regs : DataRegs W) (tabA tabB : Table W)
      (h : Completes s.turned t t.code regs tabA tabB)
  /-- The host reads, or makes an access that no register sees. -/
  | read (hc : s.unitCompletes = false) (ts : List Turn) (es : List (Event W)) (l : List (Answer W))
      (h : t = { s with turns := ts, events := es, answers := l })
  /-- The host writes a register. -/
  | write (hc : s.unitCompletes = false) (i : RegIndex) (v : Word W) (hw : s.actingWrite = some (i, v))
      (ts : List Turn) (es : List (Event W)) (h : t = ({ s with turns := ts, events := es } : Ecmau W).regWrite i v)
  /-- A hardware reset arrives. -/
  | reset (hc : s.unitCompletes = false) (hr : s.resets) (ts : List Turn) (es : List (Event W))
      (h : t = ({ s with turns := ts, events := es } : Ecmau W).toReset)

/-- The end of a command is a completion with its result code. -/
theorem ExecEnds.completes {i : Instr} {s t : Ecmau W} (h : ExecEnds i s t) :
    ∃ (regs : DataRegs W) (tabA tabB : Table W), Completes s t t.code regs tabA tabB := by
  cases h with
  | bare c _ ht => exact ht ▸ ⟨_, _, _, complete_completes s c⟩
  | nop _ ht => exact ht ▸ ⟨_, _, _, complete_completes s .ok⟩
  | scalar _ r ht => exact ht ▸ ⟨_, _, _, complete_regs_completes s _ .ok⟩
  | point _ x y ht => exact ht ▸ ⟨_, _, _, complete_regs_completes s _ .ok⟩
  | build sel _ n es _ _ _ ht => exact ht ▸ ⟨_, _, _, complete_table_completes s sel _ .ok⟩

theorem inflight_of_unitCompletes {s : Ecmau W} (h : s.unitCompletes = true) : s.inflight ≠ none := by
  unfold Ecmau.unitCompletes at h
  split at h
  · cases h
  · cases h
  · exact Option.isSome_iff_ne_none.mp h
  · exact Option.isSome_iff_ne_none.mp h

theorem unitTurn_completes {s t : Ecmau W} (hi : s.inflight ≠ none) (h : unitTurn s.pack = .next t.pack) :
    ∃ (regs : DataRegs W) (tabA tabB : Table W), Completes s t t.code regs tabA tabB := by
  obtain ⟨hn, -⟩ | ⟨_, _, -, -, hs⟩ | ⟨_, _, _, -, -, hs, -, he⟩ := unitTurn_cases s
  · exact absurd hn hi
  · rw [hs] at h
    cases h
    exact ⟨_, _, _, complete_completes s .illegal⟩
  · rw [hs] at h
    cases h
    exact he.completes

theorem actingWrite_of_actingEvent {s : Ecmau W} {e : Event W} (h : s.actingEvent = some e) :
    s.actingWrite = registerWrite s.cfg e := by
  simp [Ecmau.actingWrite, h]

/-- Every step that answers a next state is one of these. -/
theorem stepEnds_of_step {s t : Ecmau W} (h : step s.pack = .next t.pack) : StepEnds s t := by
  obtain ⟨-, hc, rfl⟩ | ⟨-, hc, rfl⟩ | ⟨-, hc, hu⟩ | ⟨e, es, ha, hc, -, he⟩ := step_cases h
  · exact .hidden hc _ s.work rfl
  · obtain ⟨w, hw⟩ := workTurn_eq s.turned
    exact .hidden hc _ w hw
  · have hi : s.turned.inflight ≠ none := inflight_of_unitCompletes (s := s) hc
    obtain ⟨regs, tabA, tabB, ht⟩ := unitTurn_completes hi hu
    exact .completion hc regs tabA tabB ht
  · have hwrite := actingWrite_of_actingEvent ha
    obtain ⟨-, l, rfl⟩ | ⟨i, v, hw, rfl⟩ | ⟨rfl, -, rfl⟩ := hostEvent_cases he
    · exact .read hc _ es l rfl
    · exact .write hc i v (hwrite.trans hw) _ es rfl
    · exact .reset hc (.inl ha) _ es rfl

/-- A soft reset is a reset of the step that writes CTRL (R231). -/
theorem resets_of_write {s : Ecmau W} {v : Word W} (hw : s.actingWrite = some (0x03, v)) (hv : v.getLsbD 1 = true) :
    s.resets :=
  .inr ⟨v, hw, hv⟩

/-! ### What a host write leaves -/

/-- A host write changes CODE only by a soft reset (R34). -/
theorem regWrite_code (s : Ecmau W) (i : RegIndex) (v : Word W) :
    (s.regWrite i v).code = s.code ∨ (i = 0x03 ∧ v.getLsbD 1 = true ∧ (s.regWrite i v).code = .ok) := by
  obtain hw | ⟨hi, hw⟩ | ⟨-, hw⟩ | ⟨-, -, hw⟩ | ⟨-, regs, -, -, hw⟩ | ⟨-, -, regs, hw⟩ := regWrite_cases s i v <;>
    rw [hw]
  · exact .inl rfl
  · obtain ⟨hv, hc⟩ | ⟨-, hc⟩ := writeCtrl_cases s v <;> rw [hc]
    · exact .inr ⟨hi, hv, rfl⟩
    · exact .inl rfl
  · exact .inl rfl
  · exact .inl (s.issue_code v)
  · exact .inl rfl
  · exact .inl (by simp)

/-- A host write changes ERR only by clearing it: a write to STATUS with bit 2 set, or a soft reset (R32, R36). -/
theorem regWrite_err (s : Ecmau W) (i : RegIndex) (v : Word W) :
    (s.regWrite i v).err = s.err ∨
      ((s.regWrite i v).err = false ∧ ((i = 0x03 ∧ v.getLsbD 1 = true) ∨ (i = 0x04 ∧ v.getLsbD 2 = true))) := by
  obtain hw | ⟨hi, hw⟩ | ⟨hi, hw⟩ | ⟨-, -, hw⟩ | ⟨-, regs, -, -, hw⟩ | ⟨-, -, regs, hw⟩ := regWrite_cases s i v <;>
    rw [hw]
  · exact .inl rfl
  · obtain ⟨hv, hc⟩ | ⟨-, hc⟩ := writeCtrl_cases s v <;> rw [hc]
    · exact .inr ⟨rfl, .inl ⟨hi, hv⟩⟩
    · exact .inl rfl
  · cases hv : v.getLsbD 2
    · exact .inl (by simp [hv])
    · exact .inr ⟨by simp [hv], .inr ⟨hi, rfl⟩⟩
  · exact .inl (s.issue_err v)
  · exact .inl rfl
  · exact .inl (by simp)

/-- What a step does to ERR: an error completion sets it, a STATUS write with bit 2 set or a reset clears it. -/
theorem StepEnds.err_cases {s t : Ecmau W} (h : StepEnds s t) :
    (s.unitCompletes = true ∧ t.err = (s.err || decide (2 ≤ t.code.toBits.toNat))) ∨
    (s.unitCompletes = false ∧ t.err = s.err) ∨
    (s.unitCompletes = false ∧ t.err = false ∧
      (s.resets ∨ ∃ v : Word W, s.actingWrite = some (0x04, v) ∧ v.getLsbD 2 = true)) := by
  cases h with
  | hidden hc ts w ht => exact .inr (.inl ⟨hc, ht ▸ rfl⟩)
  | completion hc regs tabA tabB ht => exact .inl ⟨hc, ht.err⟩
  | read hc ts es l ht => exact .inr (.inl ⟨hc, ht ▸ rfl⟩)
  | write hc i v hw ts es ht =>
    subst ht
    obtain he | ⟨he, ⟨rfl, hv⟩ | ⟨rfl, hv⟩⟩ := regWrite_err ({ s with turns := ts, events := es } : Ecmau W) i v
    · exact .inr (.inl ⟨hc, he⟩)
    · exact .inr (.inr ⟨hc, he, .inl (resets_of_write hw hv)⟩)
    · exact .inr (.inr ⟨hc, he, .inr ⟨v, hw, hv⟩⟩)
  | reset hc hr ts es ht => exact .inr (.inr ⟨hc, ht ▸ rfl, .inl hr⟩)

/-- `t` has the operands, the tables, the command in flight and the CODE of `s`, BUSY with it, and neither DONE nor ERR
newly set (R44). -/
structure KeepsCommand (s t : Ecmau W) : Prop where
  regs : t.regs = s.regs
  tabA : t.tabA = s.tabA
  tabB : t.tabB = s.tabB
  inflight : t.inflight = s.inflight
  code : t.code = s.code
  busy : t.busy = s.busy
  done : s.done = false → t.done = false
  err : t.err = (s.err && t.err)

/-- While BUSY = 1 a host write that is no soft reset keeps the command in flight and all it works on (R44). -/
theorem regWrite_keepsCommand {s : Ecmau W} (hb : s.busy = true) {i : RegIndex} {v : Word W}
    (hr : ¬(i = 0x03 ∧ v.getLsbD 1 = true)) : KeepsCommand s (s.regWrite i v) := by
  have hb' : s.busy ≠ false := by simp [hb]
  obtain hw | ⟨hi, hw⟩ | ⟨-, hw⟩ | ⟨-, h, -⟩ | ⟨h, -⟩ | ⟨h, -⟩ := regWrite_cases s i v
  · exact hw ▸ ⟨rfl, rfl, rfl, rfl, rfl, rfl, id, by simp⟩
  · obtain ⟨hv, -⟩ | ⟨-, hc⟩ := writeCtrl_cases s v
    · exact absurd ⟨hi, hv⟩ hr
    · exact hw ▸ hc ▸ ⟨rfl, rfl, rfl, rfl, rfl, rfl, id, by simp⟩
  · exact hw ▸ ⟨rfl, rfl, rfl, rfl, rfl, rfl, fun h => by simp [h], by simp⟩
  · exact absurd h hb'
  · exact absurd h hb'
  · exact absurd h hb'

/-! ### The hidden state and register B -/

/-- A register reads the same whatever the working values are (R43). -/
theorem regRead_with_work (s : Ecmau W) (w : Work) (i : RegIndex) :
    ({ s with work := w } : Ecmau W).regRead i = s.regRead i := by
  cases hr : regAt i with
  | none => rw [regRead_of_unmapped hr, regRead_of_unmapped hr]
  | some reg =>
    obtain rfl := regAt_eq_some hr
    rw [regRead_regIndex, regRead_regIndex]
    cases reg <;> rfl

/-- The ECMAU with another value in B. -/
def Ecmau.withB (s : Ecmau W) (b : Word W) : Ecmau W := { s with regs := { s.regs with b := b } }

theorem Ecmau.withB_opN (s : Ecmau W) (b : Word W) : (s.withB b).opN = s.opN := rfl
theorem Ecmau.withB_opP (s : Ecmau W) (b : Word W) : (s.withB b).opP = s.opP := rfl
theorem Ecmau.withB_opA (s : Ecmau W) (b : Word W) : (s.withB b).opA = s.opA := rfl
theorem Ecmau.withB_opK (s : Ecmau W) (b : Word W) : (s.withB b).opK = s.opK := rfl
theorem Ecmau.withB_opPoint1 (s : Ecmau W) (b : Word W) : (s.withB b).opPoint1 = s.opPoint1 := rfl
theorem Ecmau.withB_opPoint2 (s : Ecmau W) (b : Word W) : (s.withB b).opPoint2 = s.opPoint2 := rfl
theorem Ecmau.withB_cfg (s : Ecmau W) (b : Word W) : (s.withB b).cfg = s.cfg := rfl
theorem Ecmau.withB_buildWork (s : Ecmau W) (b : Word W) : (s.withB b).buildWork = s.buildWork := rfl
theorem Ecmau.withB_table (s : Ecmau W) (b : Word W) (t : TableSel) : (s.withB b).table t = s.table t := by
  cases t <;> rfl

theorem scalar_withB (s : Ecmau W) (b : Word W) (f : Int → Option Int) : (s.withB b).scalar f = (s.scalar f).withB b := by
  unfold Ecmau.scalar
  rw [s.withB_opN b]
  split
  · rfl
  · split <;> rfl

theorem padd_withB (s : Ecmau W) (b : Word W) : (s.withB b).padd = s.padd.withB b := by
  unfold Ecmau.padd
  rw [s.withB_opP b, s.withB_opA b, s.withB_opPoint1 b, s.withB_opPoint2 b]
  split
  · rfl
  · split
    · rfl
    · cases paddCore s.opP s.opA s.opPoint1 s.opPoint2 <;> rfl

theorem tbuild_withB (s : Ecmau W) (b : Word W) (t : TableSel) : (s.withB b).tbuild t = (s.tbuild t).withB b := by
  unfold Ecmau.tbuild
  rw [s.withB_opP b, s.withB_opA b, s.withB_opPoint1 b, s.withB_cfg b, s.withB_buildWork b]
  split
  · rfl
  · split
    · rfl
    · cases finishBuild s.cfg.nTab s.opP s.opA s.opPoint1 s.buildWork with
      | closed n es => cases t <;> rfl
      | failed c => rfl

theorem tlookup_withB (s : Ecmau W) (b : Word W) (t : TableSel) : (s.withB b).tlookup t = (s.tlookup t).withB b := by
  unfold Ecmau.tlookup
  rw [s.withB_table b t, s.withB_opK b]
  split
  · rfl
  · split <;> rfl

/-- Every command completes with another value in B as it does without, but for B (R39). -/
theorem exec_withB (s : Ecmau W) (i : Instr) (b : Word W) :
    ∃ t : Ecmau W, exec i s.pack = .next t.pack ∧ exec i (s.withB b).pack = .next (t.withB b).pack := by
  have next {u v : Ecmau W} (h : u = v) :
      (.next u.pack : Host.Outcome State Fault Refusal) = .next v.pack := h ▸ rfl
  cases i with
  | nop => exact ⟨_, rfl, rfl⟩
  | mod | madd | mmul | minv => exact ⟨_, rfl, next (scalar_withB s b _)⟩
  | padd => exact ⟨_, rfl, next (padd_withB s b)⟩
  | tbuildA => exact ⟨_, rfl, next (tbuild_withB s b .A)⟩
  | tbuildB => exact ⟨_, rfl, next (tbuild_withB s b .B)⟩
  | tlookupA => exact ⟨_, rfl, next (tlookup_withB s b .A)⟩
  | tlookupB => exact ⟨_, rfl, next (tlookup_withB s b .B)⟩

end Sys2Proof.Machine
end

section
open Sys2Proof Sys2Proof.Machine

/-- Settles O10: WERR after a write by the kind of its register, and no other step but a reset changes WERR. -/
theorem werrRecordsDroppedWrites : Obligations.WerrRecordsDroppedWrites := by
  refine ⟨fun W s i v => ?_, fun W s t h hn hr => ?_⟩
  · cases hreg : regAt i with
    | none =>
      have unmapped : ∀ i : RegIndex, regAt i = none → i.val ≠ 0x04 ∧ i.val ≠ 0x03 ∧
          i.val ∉ [0x05, 0x08, 0x09, 0x0A, 0x10, 0x11, 0x12, 0x14, 0x15, 0x16, 0x17, 0x1A] := by decide
      obtain ⟨h4, h3, hm⟩ := unmapped i hreg
      rw [if_neg h4, if_neg h3, if_neg hm, regWrite_of_unmapped hreg, Ecmau.dropWrite_werr]
    | some reg =>
      obtain rfl := regAt_eq_some hreg
      rw [regWrite_regIndex]
      cases reg with
      | status => rfl
      | ctrl => exact writeCtrl_werr s v
      | cmd | n | x | y | p | a | b | px | py | qx | qy | k => exact writeReg_operand_werr (by decide) s v
      | id | width | tabdepth | r | rx | ry | orderA | gxA | gyA | orderB | gxB | gyB => rfl
  · cases stepEnds_of_step h with
    | hidden _ ts w ht => rw [ht]
    | completion _ regs tabA tabB ht => exact ht.werr
    | read _ ts es l ht => rw [ht]
    | write _ i v hw => cases hn.symm.trans hw
    | reset _ hres => exact absurd hres hr

/-- Settles O34, command by command (`exec_withB`). -/
theorem noCommandReadsB : Obligations.NoCommandReadsB := fun _ s i b => exec_withB s i b

/-- Settles O46: a work turn changes the working values alone (`workTurn_eq`), and no register reads them. -/
theorem workTurnsAreInvisible : Obligations.WorkTurnsAreInvisible := by
  intro W s
  obtain ⟨w, hw⟩ := workTurn_eq s
  exact ⟨⟨w, hw⟩, hw ▸ ⟨fun i => (regRead_with_work s w i).symm, rfl⟩⟩

/-- Settles O48: of the steps left, only a host write touches what the claim names, and while busy it is dropped. -/
theorem operandsAreFixedInFlight : Obligations.OperandsAreFixedInFlight := by
  intro W s t hinv h hb hc hr
  have hkeep : KeepsCommand s t := by
    cases stepEnds_of_step h with
    | hidden _ ts w ht => exact ht ▸ ⟨rfl, rfl, rfl, rfl, rfl, rfl, id, by simp⟩
    | completion hc' => cases hc.symm.trans hc'
    | read _ ts es l ht => exact ht ▸ ⟨rfl, rfl, rfl, rfl, rfl, rfl, id, by simp⟩
    | write _ i v hw ts es ht =>
      have hsoft : ¬(i = 0x03 ∧ v.getLsbD 1 = true) := fun ⟨hi, hv⟩ => by
        subst hi
        exact hr (resets_of_write hw hv)
      have hk := ht ▸ regWrite_keepsCommand (s := { s with turns := ts, events := es }) hb hsoft
      exact ⟨hk.regs, hk.tabA, hk.tabB, hk.inflight, hk.code, hk.busy, hk.done, hk.err⟩
    | reset _ hres => exact absurd hres hr
  exact ⟨hkeep.regs, hkeep.tabA, hkeep.tabB, hkeep.inflight, hkeep.code, hkeep.busy.trans hb,
    hkeep.done (hinv.done hb), hkeep.err⟩

/-- Settles O49, by what a step does to ERR. -/
theorem errIsSticky : Obligations.ErrIsSticky := by
  intro W s t h
  obtain ⟨hc, he⟩ | ⟨hc, he⟩ | ⟨hc, he, hcause⟩ := (stepEnds_of_step h).err_cases
  · refine ⟨fun _ => he, fun h0 h1 => ⟨hc, ?_⟩, fun h1 h0 => ?_⟩
    · simpa [h0, h1] using he
    · simp [h1, h0] at he
  · refine ⟨fun h => ?_, fun h0 h1 => ?_, fun h1 h0 => ?_⟩
    · cases hc.symm.trans h
    · simp [h0, h1] at he
    · simp [h0, h1] at he
  · refine ⟨fun h => ?_, fun _ h1 => ?_, fun _ _ => hcause⟩
    · cases hc.symm.trans h
    · cases he.symm.trans h1

/-- Settles O50: a step changes CODE only by a completion or a reset. -/
theorem codeChangesAtCompletionOnly : Obligations.CodeChangesAtCompletionOnly := by
  refine ⟨fun W s t h hne => ?_, fun W c => rfl, rfl⟩
  cases stepEnds_of_step h with
  | hidden _ ts w ht => exact absurd (ht ▸ rfl) hne
  | completion hc => exact .inl hc
  | read _ ts es l ht => exact absurd (ht ▸ rfl) hne
  | write _ i v hw ts es ht =>
    subst ht
    obtain hcode | ⟨rfl, hv, hcode⟩ := regWrite_code ({ s with turns := ts, events := es } : Ecmau W) i v
    · exact absurd hcode hne
    · exact .inr ⟨resets_of_write hw hv, hcode⟩
  | reset _ hr ts es ht => exact .inr ⟨hr, ht ▸ rfl⟩

end

section
/-! The host's accesses (20_memory.md R60 to R66): what a bus access does by what it reaches, the bytes of a register, and
that what reads returned is no part of the unit's view. -/

namespace Sys2Proof.Machine

variable {W : Nat}

/-! ### Accesses by what they reach -/

/-- A bus read of one whole register at its own offset gives its bytes (R63). -/
theorem hostEvent_busRead_own {s : Ecmau W} (hp : 0 < s.cfg.bus.registerBytes) (i : RegIndex) :
    hostEvent (.busRead (s.cfg.unitBase + s.cfg.bus.registerBytes * i.val) s.cfg.bus.registerBytes) s =
      .next (s.answerBusRead i) := by
  simp only [hostEvent, busTarget_own s.cfg hp i]

/-- The bytes of a register value are as many as the binding gives a register. -/
theorem bytesOfWord_length (b : BusBinding) (v : Word W) : (bytesOfWord b v).length = b.registerBytes := by
  simp [bytesOfWord]

/-- A bus write of a value's bytes at a register's own offset is the register's write of that value (R62, R63). -/
theorem hostEvent_busWrite_own {s : Ecmau W} (h : s.cfg.wellFormed W = true) (i : RegIndex) (v : Word W) :
    hostEvent (.busWrite (s.cfg.unitBase + s.cfg.bus.registerBytes * i.val) (bytesOfWord s.cfg.bus v)) s =
      .next (s.regWrite i v) := by
  obtain ⟨hp, hb⟩ := registerBytes_pos h
  simp only [hostEvent, bytesOfWord_length, busTarget_own s.cfg hp i, wordOfBytes_bytesOfWord _ hb]

/-- An access to the window that is not one whole register at its own offset is a fault, read or write (R63). -/
theorem hostEvent_of_busError {s : Ecmau W} {addr len : Nat} (h : busTarget s.cfg addr len = .busError) :
    hostEvent (.busRead addr len) s = .fault .busError ∧
      ∀ bytes : List Byte, bytes.length = len → hostEvent (.busWrite addr bytes) s = .fault .busError := by
  refine ⟨by simp only [hostEvent, h], ?_⟩
  rintro bytes rfl
  simp only [hostEvent, h]

/-- An access outside the window is refused, read or write (R61). -/
theorem hostEvent_of_outside {s : Ecmau W} {addr len : Nat} (h : busTarget s.cfg addr len = .outside) :
    hostEvent (.busRead addr len) s = .refused .outsideWindow ∧
      ∀ bytes : List Byte, bytes.length = len → hostEvent (.busWrite addr bytes) s = .refused .outsideWindow := by
  refine ⟨by simp only [hostEvent, h], ?_⟩
  rintro bytes rfl
  simp only [hostEvent, h]

/-- What the reads returned shows in no register and not on the interrupt line (R65). -/
theorem sameView_with_answers (s : Ecmau W) (l : List (Answer W)) : SameView s { s with answers := l } :=
  ⟨fun _ => rfl, rfl⟩

/-! ### The bytes of a register value -/

/-- The byte at byte offset j of a register is the eight bits of its value at that byte's rank. -/
theorem bytesOfWord_getElem?_toNat (b : BusBinding) (v : Word W) {j : Nat} (hj : j < b.registerBytes) :
    ∃ x, (bytesOfWord b v)[j]? = some x ∧ x.toNat = v.toNat / 2 ^ (8 * byteRank b j) % 256 :=
  ⟨_, bytesOfWord_getElem? b v j hj, by rw [BitVec.extractLsb'_toNat, Nat.shiftRight_eq_div_pow]⟩

/-- In little-endian order a byte's rank is its offset. -/
theorem byteRank_of_littleEndian {b : BusBinding} (h : b.order = .littleEndian) (j : Nat) : byteRank b j = j := by
  simp only [byteRank, h]

/-- In big-endian order the bus words of a register count from the last, and the bytes within one from the first. -/
theorem byteRank_of_bigEndian {b : BusBinding} (h : b.order = .bigEndian) (m : Nat) {k : Nat} (hk : k < b.busWordBytes) :
    byteRank b (m * b.busWordBytes + k) =
      (b.registerBytes / b.busWordBytes - 1 - m) * b.busWordBytes + k := by
  have hdiv : (m * b.busWordBytes + k) / b.busWordBytes = m := by
    rw [Nat.mul_comm, Nat.mul_add_div (Nat.zero_lt_of_lt hk), Nat.div_eq_of_lt hk, Nat.add_zero]
  simp only [byteRank, h, hdiv, Nat.mul_add_mod', Nat.mod_eq_of_lt hk]

/-- Byte k of bus word m lies within the register. -/
theorem busWord_offset_lt {b : BusBinding} {m k : Nat} (hm : m < b.registerBytes / b.busWordBytes)
    (hk : k < b.busWordBytes) : m * b.busWordBytes + k < b.registerBytes :=
  calc m * b.busWordBytes + k < (m + 1) * b.busWordBytes := by rw [Nat.succ_mul]; omega
    _ ≤ b.registerBytes / b.busWordBytes * b.busWordBytes := Nat.mul_le_mul_right _ hm
    _ ≤ b.registerBytes := Nat.div_mul_le_self _ _

/-- The reference binding takes every width up to 64 (R63: "this needs `W <= 64`"). -/
theorem reference_allowed_iff (W : Nat) : BusBinding.reference.allowed W = true ↔ W ≤ 64 := by
  simp only [BusBinding.allowed, Bool.and_eq_true, decide_eq_true_eq]
  simp [BusBinding.reference]

end Sys2Proof.Machine
end

section
open Sys2Proof Sys2Proof.Machine

/-- Settles O9: a read changes the answers alone, which the unit's view does not hold (`sameView_with_answers`), and a
register's bytes give the register back (`wordOfBytes_bytesOfWord`). -/
theorem readsHaveNoSideEffect : Obligations.ReadsHaveNoSideEffect := by
  refine ⟨fun W s i => ?_, fun W s i v => rfl, fun W s i h => ?_⟩
  · have hv := sameView_with_answers s (.word (s.regRead i) :: s.answers)
    exact ⟨_, rfl, rfl, hv, fun j => (hv.1 j).symm⟩
  · obtain ⟨hp, hb⟩ := registerBytes_pos h
    exact ⟨_, _, hostEvent_busRead_own hp i, rfl, wordOfBytes_bytesOfWord _ hb _, sameView_with_answers s _⟩

/-- Settles O18, by what each access reaches (`busTarget_own`, `busTarget_other`, `busTarget_outside`) and by the rank of
each byte of a register. -/
theorem busBinding : Obligations.BusBinding := by
  refine ⟨fun W s i v h => ?_, fun W b v _ => ⟨bytesOfWord_length b v, fun hle j hj => ?_, fun hbe m k hm hk => ?_⟩,
    fun W s addr len _ => ?_, fun W s addr len h => hostEvent_of_outside (busTarget_outside s.cfg addr len h),
    rfl, rfl, reference_allowed_iff⟩
  · exact ⟨hostEvent_busWrite_own h i v, hostEvent_busRead_own (registerBytes_pos h).1 i⟩
  · have hx := bytesOfWord_getElem?_toNat b v hj
    rwa [byteRank_of_littleEndian hle] at hx
  · have hx := bytesOfWord_getElem?_toNat b v (busWord_offset_lt hm hk)
    rwa [byteRank_of_bigEndian hbe m hk] at hx
  · exact fun hlo hhi hown => hostEvent_of_busError (busTarget_other s.cfg addr len hlo hhi hown)

end

section
/-! The decoder and the encoder (30_encoding.md R80 to R86): both are tied to the number of each command's word, so a word
is read as a command exactly where it is that command's word. -/

namespace Sys2Proof.Machine

variable {W : Nat}

/-- The number of each command's word (R82). -/
def commandNumber : Instr → Nat
  | .nop => 0x0
  | .mod => 0x1
  | .madd => 0x2
  | .mmul => 0x3
  | .minv => 0x4
  | .padd => 0x10
  | .tbuildA => 0x20
  | .tbuildB => 0x120
  | .tlookupA => 0x21
  | .tlookupB => 0x121

/-- The numbers of the table are those of its ten commands. -/
theorem mem_table_iff (n : Nat) :
    n ∈ [0x0, 0x1, 0x2, 0x3, 0x4, 0x10, 0x20, 0x120, 0x21, 0x121] ↔ ∃ i, n = commandNumber i := by
  constructor
  · intro h
    have hmap : n ∈ List.map commandNumber
        [.nop, .mod, .madd, .mmul, .minv, .padd, .tbuildA, .tbuildB, .tlookupA, .tlookupB] := h
    obtain ⟨i, -, hi⟩ := List.mem_map.mp hmap
    exact ⟨i, hi.symm⟩
  · rintro ⟨i, rfl⟩
    cases i <;> decide

/-! ### Encoding -/

/-- The encoder assembles the number of the table, at every width (R82: "zero-extended to W bits"). -/
theorem encode_toNat (h : 32 ≤ W) (i : Instr) : (encode W i).toNat = commandNumber i := by
  cases i <;> exact assembleFields_toNat h _ _

theorem encode_eq_ofNat (h : 32 ≤ W) (i : Instr) : encode W i = BitVec.ofNat W (commandNumber i) := by
  rw [← encode_toNat h i, BitVec.ofNat_toNat, BitVec.setWidth_eq]

theorem eq_encode_iff (h : 32 ≤ W) (v : Word W) (i : Instr) : v = encode W i ↔ v.toNat = commandNumber i := by
  rw [← encode_toNat h i, BitVec.toNat_inj]

/-! ### Decoding -/

/-- OP and T name a command only where they are those of its word (R83, R85). -/
theorem decodeOp_ok {op : Nat} {t : Bool} {i : Instr} (h : decodeOp op t = .ok i) :
    op + 2 ^ 8 * t.toNat = commandNumber i := by
  unfold decodeOp at h
  -- in each row T is 0 or 1, and `i` is the command the row answers, if any
  split at h <;> cases t <;> cases h <;> rfl

/-- The OP and the T of a command's number name the command. -/
theorem decodeOp_commandNumber (i : Instr) :
    decodeOp (commandNumber i % 2 ^ 8) ((commandNumber i).testBit 8) = .ok i := by
  cases i <;> rfl

theorem commandNumber_lt (i : Instr) : commandNumber i < 2 ^ 9 := by cases i <;> decide

/-- A number below `2^9` is its OP and its T (R80). -/
theorem op_add_tableBit {n : Nat} (h : n < 2 ^ 9) : n % 2 ^ 8 + 2 ^ 8 * (n.testBit 8).toNat = n := by
  rw [Nat.toNat_testBit]
  omega

/-- The decoder on the number of a word: RSV and HI must be 0, and OP and T name the command (R85). -/
theorem decode_eq (v : Word W) :
    decode v = if 2 ^ 9 ≤ v.toNat then .error .reservedBits else decodeOp (v.toNat % 2 ^ 8) (v.toNat.testBit 8) := by
  rw [decode, BitVec.extractLsb'_toNat, Nat.shiftRight_zero, BitVec.testBit_toNat]

/-- R82: "A word decodes to exactly one row of this table, or it is illegal": the row is the one of its number. -/
theorem decode_eq_ok_iff (v : Word W) (i : Instr) : decode v = .ok i ↔ v.toNat = commandNumber i := by
  rw [decode_eq]
  constructor
  · intro h
    split at h
    · cases h
    · next hlt => rw [← decodeOp_ok h, op_add_tableBit (by omega)]
  · intro h
    have hlt := commandNumber_lt i
    rw [h, if_neg (by omega), decodeOp_commandNumber]

theorem decode_encode (h : 32 ≤ W) (i : Instr) : decode (encode W i) = .ok i :=
  (decode_eq_ok_iff _ i).mpr (encode_toNat h i)

/-- The decoder rejects exactly the words whose number is none of the table's. -/
theorem decode_error_iff (v : Word W) :
    (∃ e, decode v = .error e) ↔ v.toNat ∉ [0x0, 0x1, 0x2, 0x3, 0x4, 0x10, 0x20, 0x120, 0x21, 0x121] := by
  rw [mem_table_iff]
  cases hd : decode v with
  | error e =>
    refine iff_of_true ⟨e, rfl⟩ ?_
    rintro ⟨i, hi⟩
    cases hd.symm.trans ((decode_eq_ok_iff v i).mpr hi)
  | ok i =>
    refine iff_of_false ?_ (not_not.mpr ⟨i, (decode_eq_ok_iff v i).mp hd⟩)
    rintro ⟨e, he⟩
    cases he

/-- The three conditions of R85 on a word's number: it is none of the table's. -/
theorem not_mem_table_iff (n : Nat) :
    n ∉ [0x0, 0x1, 0x2, 0x3, 0x4, 0x10, 0x20, 0x120, 0x21, 0x121] ↔
      (n / 2 ^ 9 ≠ 0 ∨ n % 256 ∉ [0x00, 0x01, 0x02, 0x03, 0x04, 0x10, 0x20, 0x21] ∨
        (n.testBit 8 = true ∧ n % 256 ∉ [0x20, 0x21])) := by
  simp only [List.mem_cons, List.not_mem_nil, or_false, Nat.testBit_eq_decide_div_mod_eq, decide_eq_true_eq]
  omega

end Sys2Proof.Machine
end

section
open Sys2Proof Sys2Proof.Machine

/-- Settles O2: decoding and encoding are both by the number of the word (`decode_eq_ok_iff`, `eq_encode_iff`). -/
theorem decodeAcceptsExactlyTheTable : Obligations.DecodeAcceptsExactlyTheTable := by
  intro W hW
  have word := encode_eq_ofNat hW
  refine ⟨⟨word .nop, word .mod, word .madd, word .mmul, word .minv, word .padd, word .tbuildA, word .tbuildB,
    word .tlookupA, word .tlookupB⟩, fun v => ⟨?_, ?_⟩⟩
  · have decode_iff (i : Instr) : v = encode W i ↔ decode v = .ok i :=
      (eq_encode_iff hW v i).trans (decode_eq_ok_iff v i).symm
    simp only [ne_eq, decode_iff]
    cases decode v with
    | ok i => exact .inl ⟨i, rfl, rfl, fun j hj => by cases hj; rfl⟩
    | error e => exact .inr ⟨fun i => nofun, e, rfl⟩
  · rw [mem_table_iff]
    exact exists_congr fun i => eq_encode_iff hW v i

/-- Settles O3: a word with bit 9 or above set is at least `2^9`. -/
theorem reservedBitsMakeIllegal : Obligations.ReservedBitsMakeIllegal := by
  intro W v k hk hbit
  have hle : 2 ^ 9 ≤ v.toNat :=
    (Nat.pow_le_pow_right (by decide) hk).trans (Nat.ge_two_pow_of_testBit (BitVec.testBit_toNat v ▸ hbit))
  exact ⟨.reservedBits, (decode_eq v).trans (if_pos hle)⟩

/-- Settles O1: each word is the encoding of its command. -/
theorem tableWordsDecode : Obligations.TableWordsDecode := by
  intro W hW
  have row (i : Instr) : decode (BitVec.ofNat W (commandNumber i)) = .ok i := encode_eq_ofNat hW i ▸ decode_encode hW i
  exact ⟨row .nop, row .mod, row .madd, row .mmul, row .minv, row .padd, row .tbuildA, row .tbuildB, row .tlookupA,
    row .tlookupB⟩

end

section
/-! An illegal command word, from its issue to its completion (30_encoding.md R85, 43_control.md R182); and the command in
flight after an issue. -/

namespace Sys2Proof.Machine

variable {W : Nat}

theorem issue_command (s : Ecmau W) (v : Word W) : (s.issue v).command = some (decode v) := by
  simp [Ecmau.command]

/-- The unit completes a legal word by its command's meaning (R183). -/
theorem unitTurn_of_legal {s : Ecmau W} {i : Instr} (h : s.command = some (.ok i)) :
    unitTurn s.pack = exec i s.pack := by
  simp only [unitTurn, h]

/-- The unit completes an illegal word with ILLEGAL alone (R182). -/
theorem unitTurn_of_illegal {s : Ecmau W} {e : Illegal} (h : s.command = some (.error e)) :
    unitTurn s.pack = .next (s.complete .illegal).pack := by
  simp only [unitTurn, h, Ecmau.completeIllegal, Ecmau.raise_eq]

/-- The issue of an illegal word touches no table (R181). -/
theorem issue_of_illegal {v : Word W} {e : Illegal} (h : decode v = .error e) (s : Ecmau W) :
    s.issue v = { s with inflight := some v, busy := true, done := false, work := .idle } := by
  simp [issue_eq, h]

/-- What every register but STATUS reads is the parameters, CTRL, the data registers and the tables (10_state.md R20). -/
theorem regRead_congr {s t : Ecmau W} (hcfg : t.cfg = s.cfg) (hie : t.ie = s.ie) (hregs : t.regs = s.regs)
    (hA : t.tabA = s.tabA) (hB : t.tabB = s.tabB) {i : RegIndex} (hi : i ≠ 0x04) : t.regRead i = s.regRead i := by
  cases hr : regAt i with
  | none => rw [regRead_of_unmapped hr, regRead_of_unmapped hr]
  | some reg =>
    obtain rfl := regAt_eq_some hr
    rw [regRead_regIndex, regRead_regIndex]
    cases reg with
    | status => exact absurd rfl hi
    | ctrl => simp only [Ecmau.readReg, Ecmau.ctrlWord, hie]
    | id | width | tabdepth | cmd | n | x | y | r | p | a | b | px | py | qx | qy | rx | ry | k | orderA | gxA | gyA
    | orderB | gxB | gyB => simp only [Ecmau.readReg, hcfg, hregs, hA, hB]

end Sys2Proof.Machine
end

section
open Sys2Proof Sys2Proof.Machine

/-- Settles O4: the conditions are those of the word's number (`not_mem_table_iff`), and an illegal word is issued without
touching a table and completes with ILLEGAL alone. -/
theorem illegalWordsComplete : Obligations.IllegalWordsComplete := by
  refine ⟨fun W v => ?_, fun W s v e hd hb => ?_⟩
  · rw [decode_error_iff, not_mem_table_iff, BitVec.testBit_toNat]
  · have hissue : s.regWrite 0x05 v = s.issue v := writeCmd_idle hb v
    rw [hissue]
    have hturn := unitTurn_of_illegal ((issue_command s v).trans (congrArg some hd))
    have herr : ((s.issue v).complete .illegal).err = true := Bool.or_true _
    refine ⟨issue_of_illegal hd s, _, hturn, complete_completes _ .illegal, rfl, herr, fun i hi => ?_⟩
    rw [issue_of_illegal hd s]
    exact regRead_congr (s := s) (t := Ecmau.complete _ _) rfl rfl rfl rfl rfl hi

end

section
/-! The host's statements (30_encoding.md R95) where a program is about to run them: a read, a write, a command and WAIT,
and the copy of one register to another that the pseudo-instructions are made of (R96). -/

namespace Sys2Proof.Machine

variable {W : Nat}

/-! ### The position in the program -/

/-- The host runs, and what is left of its program is `rest`. -/
structure HostAt (h : HostCpu W) (rest : List HostStmt) : Prop where
  running : h.tag = none
  left : h.prog.drop h.pc = rest

theorem startHost_at (W : Nat) (lines : List HostLine) : HostAt (startHost W lines) (expandProgram lines) := ⟨rfl, rfl⟩

section
variable {h : HostCpu W} {st : HostStmt} {rest : List HostStmt}

/-- The statement the host runs next. -/
theorem HostAt.current (ht : HostAt h (st :: rest)) : h.prog[h.pc]? = some st := by
  rw [← List.head?_drop, ht.left, List.head?_cons]

/-- A host that has made an access is where it was (R97: the trace is a listing). -/
theorem HostAt.note (ht : HostAt h rest) (e : Event W) : HostAt (h.note e) rest := ⟨ht.running, ht.left⟩

theorem HostAt.setVar (ht : HostAt h rest) (v : Nat) (z : Int) : HostAt (h.setVar v z) rest := ⟨ht.running, ht.left⟩

theorem HostAt.next (ht : HostAt h (st :: rest)) : HostAt h.next rest :=
  ⟨ht.running, by rw [HostCpu.next, ← List.tail_drop, ht.left, List.tail_cons]⟩

end

/-! ### Integers that a write takes -/

theorem bitsW_eq_ofInt (z : Int) : (bitsW z : Word W) = BitVec.ofInt W z := by
  apply BitVec.eq_of_toNat_eq
  have hlt := Int.emod_lt_of_pos z (show (0 : Int) < 2 ^ W by positivity)
  rw [bitsW, BitVec.toNat_ofNat, BitVec.toNat_ofInt, Nat.mod_eq_of_lt]
  · norm_cast
  · zify
    rwa [Int.toNat_of_nonneg (Int.emod_nonneg z (by positivity))]

/-- The negative of a signed value above the lowest is one that W bits hold (00_scope.md R12). -/
theorem toInt_bitsW_neg_sval (hW : 32 ≤ W) {w : Word W} (hw : sval w ≠ -2 ^ (W - 1)) :
    (bitsW (-sval w) : Word W).toInt = -w.toInt := by
  have hlow := sval_lower w
  have hupp := sval_upper w
  rw [bitsW_eq_ofInt, BitVec.toInt_ofInt_eq_self (by omega) (by omega) (by omega), sval_eq_toInt]

/-- A host write of a number within the bounds of R95. -/
theorem hostWrite_of_range (h : HostCpu W) (s : Ecmau W) (i : RegIndex) {z : Int} (h0 : -2 ^ (W - 1) ≤ z)
    (h1 : z < 2 ^ W) :
    hostWrite h s i z = .ok ((h.note (.regWrite i (bitsW z))).next, s.regWrite i (bitsW z)) :=
  if_pos ⟨h0, h1⟩

/-- The number of any word is within those bounds. -/
theorem hostWrite_uval (h : HostCpu W) (s : Ecmau W) (i : RegIndex) (v : Word W) :
    hostWrite h s i (uval v) = .ok ((h.note (.regWrite i v)).next, s.regWrite i v) := by
  have hlow : (-2 ^ (W - 1) : Int) ≤ 0 := neg_nonpos.mpr (by positivity)
  rw [hostWrite_of_range h s i (hlow.trans (uval_nonneg v)) (uval_upper v), bitsW_uval]

/-! ### One statement -/

section
variable {h : HostCpu W} {rest : List HostStmt}

/-- The variable just set has its value. -/
theorem evalExpr_hostRead (h : HostCpu W) (s : Ecmau W) (i : RegIndex) (v : Nat) (f : Word W → Int) :
    evalExpr (hostRead h s i v f).vars (.var v) = .ok (f (s.regRead i)) := by
  simp [hostRead, HostCpu.next, HostCpu.setVar, evalExpr]

/-- `RD` (R95). -/
theorem HostAt.rd {v : Nat} {i : RegIndex} (ht : HostAt h (.rd v i :: rest)) (s : Ecmau W) :
    ∃ h', hostStatement h s = .ok (h', s) ∧ HostAt h' rest ∧
      evalExpr h'.vars (.var v) = .ok (uval (s.regRead i)) := by
  refine ⟨hostRead h s i v uval, ?_, ((ht.note _).setVar _ _).next, evalExpr_hostRead h s i v uval⟩
  simp only [hostStatement, ht.running, ht.current]

/-- `RDS` (R95). -/
theorem HostAt.rds {v : Nat} {i : RegIndex} (ht : HostAt h (.rds v i :: rest)) (s : Ecmau W) :
    ∃ h', hostStatement h s = .ok (h', s) ∧ HostAt h' rest ∧
      evalExpr h'.vars (.var v) = .ok (sval (s.regRead i)) := by
  refine ⟨hostRead h s i v sval, ?_, ((ht.note _).setVar _ _).next, evalExpr_hostRead h s i v sval⟩
  simp only [hostStatement, ht.running, ht.current]

/-- `WR` of a word's number (R95). -/
theorem HostAt.wr {i : RegIndex} {e : HostExpr} {v : Word W} (ht : HostAt h (.wr i e :: rest))
    (he : evalExpr h.vars e = .ok (uval v)) (s : Ecmau W) :
    ∃ h', hostStatement h s = .ok (h', s.regWrite i v) ∧ HostAt h' rest := by
  refine ⟨_, ?_, (ht.note (.regWrite i v)).next⟩
  simp only [hostStatement, ht.running, ht.current, he, hostWrite_uval]

/-- The write of MSUB, at a value above the lowest (R96). -/
theorem HostAt.wrNeg {i : RegIndex} {v : Nat} {w : Word W} (ht : HostAt h (.wrNeg i v :: rest))
    (he : evalExpr h.vars (.var v) = .ok (sval w)) (hw : sval w ≠ -2 ^ (W - 1)) (s : Ecmau W) :
    ∃ h', hostStatement h s = .ok (h', s.regWrite i (bitsW (-sval w))) ∧ HostAt h' rest := by
  have hlow := sval_lower w
  have hupp := sval_upper w
  have hpow : (2 : Int) ^ (W - 1) ≤ 2 ^ W := two_pow_pred_le
  have hwrite := hostWrite_of_range h s i (z := -sval w) (by omega) (by omega)
  refine ⟨_, ?_, (ht.note (.regWrite i (bitsW (-sval w)))).next⟩
  simp only [hostStatement, ht.running, ht.current, he, if_neg hw, hwrite]

/-- The write of MSUB, at the lowest value: the host program stops (R96; log 16). -/
theorem HostAt.wrNeg_lowest {i : RegIndex} {v : Nat} {z : Int} (ht : HostAt h (.wrNeg i v :: rest))
    (he : evalExpr h.vars (.var v) = .ok z) (hz : z = -2 ^ (W - 1)) (s : Ecmau W) :
    hostStatement h s = .error .msubUndefined := by
  simp only [hostStatement, ht.running, ht.current, he, if_pos hz]

/-- `CMD <number>` on an idle unit issues the word (R95). -/
theorem HostAt.cmd {v : Word W} (ht : HostAt h (.cmd v.toNat :: rest)) {s : Ecmau W} (hb : s.busy = false) :
    ∃ h', hostStatement h s = .ok (h', s.issue v) ∧ HostAt h' rest := by
  have hwrite := hostWrite_uval h s (regIndex .cmd) v
  have hissue : s.regWrite (regIndex .cmd) v = s.issue v := writeCmd_idle hb v
  rw [hissue, uval] at hwrite
  refine ⟨_, ?_, (ht.note (.regWrite (regIndex .cmd) v)).next⟩
  simp only [hostStatement, ht.running, ht.current, hwrite]

/-- `CMD <mnemonic>` on an idle unit puts the command in flight (R82, R95). -/
theorem HostAt.mnemonic {i : Instr} (ht : HostAt h (commandStmt i :: rest)) (hW : 32 ≤ W) {s : Ecmau W}
    (hb : s.busy = false) :
    ∃ h' s', hostStatement h s = .ok (h', s') ∧ s'.regs = s.regs ∧ s'.command = some (.ok i) := by
  have hstmt : commandStmt i = .cmd (encode W i).toNat := by
    rw [commandStmt, encode_toNat hW, encode_toNat (by decide)]
  rw [hstmt] at ht
  obtain ⟨h', hs, -⟩ := ht.cmd hb
  exact ⟨h', _, hs, s.issue_regs _, by rw [issue_command, decode_encode hW]⟩

/-- The bit of STATUS that WAIT reads (10_state.md R29, R30). -/
theorem regRead_status_bit0 (hW : 32 ≤ W) (s : Ecmau W) : (s.regRead (regIndex .status)).getLsbD 0 = s.busy :=
  statusWord_getLsbD s (k := 0) (by decide) hW

/-- `WAIT` stays while BUSY = 1 (R95). -/
theorem HostAt.wait_busy (ht : HostAt h (.wait :: rest)) (hW : 32 ≤ W) {s : Ecmau W} (hb : s.busy = true) :
    ∃ h', hostStatement h s = .ok (h', s) ∧ h'.pc = h.pc ∧ HostAt h' (.wait :: rest) := by
  refine ⟨h.note (.regRead (regIndex .status)), ?_, rfl, ht.note _⟩
  simp only [hostStatement, ht.running, ht.current, regRead_status_bit0 hW, hb, if_true]

/-- `WAIT` goes on once BUSY = 0 (R95). -/
theorem HostAt.wait_idle (ht : HostAt h (.wait :: rest)) (hW : 32 ≤ W) {s : Ecmau W} (hb : s.busy = false) :
    ∃ h', hostStatement h s = .ok (h', s) ∧ h'.pc = h.pc + 1 := by
  refine ⟨(h.note (.regRead (regIndex .status))).next, ?_, rfl⟩
  simp only [hostStatement, ht.running, ht.current, regRead_status_bit0 hW, hb, Bool.false_eq_true, if_false]

/-- A stored write to an operand issues nothing. -/
theorem regWrite_operand_idle {reg : Reg} (hreg : reg ∈ plainOperands ++ curveOperands) {s : Ecmau W}
    (hb : s.busy = false) (v : Word W) : (s.regWrite (regIndex reg) v).busy = false := by
  obtain ⟨regs, tabA, tabB, hw⟩ := writeReg_operand hreg hb v
  rw [regWrite_regIndex, hw]
  exact hb

/-- `RD t, src` and `WR dst, t` copy a register to an operand of the idle unit (R96). -/
theorem HostAt.copy {t : Nat} {src dst : Reg} (ht : HostAt h (.rd t (regIndex src) :: .wr (regIndex dst) (.var t) :: rest))
    (hdst : dst ∈ plainOperands ++ curveOperands) {s : Ecmau W} (hb : s.busy = false) :
    ∃ h1 h2 s2, hostStatement h s = .ok (h1, s) ∧ hostStatement h1 s = .ok (h2, s2) ∧ HostAt h2 rest ∧
      s2 = s.writeReg dst (s.readReg src) ∧ s2.busy = false := by
  obtain ⟨h1, hs1, ht1, he⟩ := ht.rd s
  obtain ⟨h2, hs2, ht2⟩ := ht1.wr he s
  exact ⟨h1, h2, _, hs1, hs2, ht2, by simp, regWrite_operand_idle hdst hb _⟩

/-- `RDS t, Y` and `WR Y, -t` negate Y on the idle unit, above its lowest value (R96). -/
theorem HostAt.negateY {t : Nat} (ht : HostAt h (.rds t (regIndex .y) :: .wrNeg (regIndex .y) t :: rest)) {s : Ecmau W}
    (hb : s.busy = false) (hy : sval s.regs.y ≠ -2 ^ (W - 1)) :
    ∃ h1 h2 s2, hostStatement h s = .ok (h1, s) ∧ hostStatement h1 s = .ok (h2, s2) ∧ HostAt h2 rest ∧
      s2.busy = false ∧ s2.regs = { s.regs with y := bitsW (-sval s.regs.y) } := by
  obtain ⟨h1, hs1, ht1, he⟩ := ht.rds s
  obtain ⟨h2, hs2, ht2⟩ := ht1.wrNeg he hy s
  exact ⟨h1, h2, _, hs1, hs2, ht2, regWrite_operand_idle (by decide) hb _, congrArg Ecmau.regs (storeData_idle hb _)⟩

end

/-! ### The command that MSUB ends with -/

/-- A scalar command whose modulus is positive and whose value is found writes it (40_modular.md R100). -/
theorem scalar_of_some {s : Ecmau W} {f : Int → Option Int} {y : Int} (hn : 0 < s.opN) (hf : f s.opN = some y) :
    s.scalar f = ({ s with regs := { s.regs with r := bitsW y } } : Ecmau W).complete .ok := by
  obtain ⟨hle, -⟩ | ⟨-, hnone, -⟩ | ⟨z, -, hsome, h⟩ := scalar_cases s f
  · omega
  · cases hf.symm.trans hnone
  · cases hf.symm.trans hsome
    exact h

/-- A residue of a register's value fits a register (R102). -/
theorem toNat_bitsW_cmod {v : Word W} (hv : 0 < sval v) (x : Int) :
    ((bitsW (cmod (sval v) x) : Word W).toNat : Int) = x % v.toInt := by
  have hlt := (cmod_lt hv x).trans (sval_lt_two_pow v)
  rw [← sval_eq_toInt, ← cmod_eq_emod hv]
  exact uval_bitsW (cmod_nonneg hv x) hlt

/-- MADD in flight, with a positive modulus, completes with `(X + Y) mod N` in R (R106). -/
theorem unitTurn_madd {s : Ecmau W} (hc : s.command = some (.ok .madd)) (hn : 0 < s.regs.n.toInt) :
    ∃ u : Ecmau W, unitTurn s.pack = .next u.pack ∧ u.code = .ok ∧
      (u.regs.r.toNat : Int) = (s.regs.x.toInt + s.regs.y.toInt) % s.regs.n.toInt := by
  have hn' : 0 < s.opN := hn.trans_eq (sval_eq_toInt s.regs.n).symm
  have hexec : exec .madd s.pack = .next (s.scalar fun n => some (cmod n (s.opX + s.opY))).pack := rfl
  have hscalar := scalar_of_some (f := fun n => some (cmod n (s.opX + s.opY))) hn' rfl
  refine ⟨_, (unitTurn_of_legal hc).trans hexec, ?_, ?_⟩
  · rw [hscalar, Ecmau.complete_code]
  · rw [hscalar, Ecmau.complete_regs, ← sval_eq_toInt s.regs.x, ← sval_eq_toInt s.regs.y]
    exact toNat_bitsW_cmod hn' _

end Sys2Proof.Machine
end

section
open Sys2Proof Sys2Proof.Machine

/-- Settles O60, statement by statement of each expansion: PDBL and MSQR by the copies they make (`HostAt.copy`), MSUB by
the negation of Y (`HostAt.negateY`), and RUN by the issue of its word. -/
theorem pseudoInstructionsExpand : Obligations.PseudoInstructionsExpand := by
  refine ⟨fun W s t hW hb => ?_, fun W s t hW hb hy hn => ?_, fun W s t hW hy => ?_, fun W s t hW hb => ?_,
    fun W s v hW hb => ?_⟩
  · obtain ⟨h1, h2, s2, hs1, hs2, ht2, hw2, hb2⟩ := (startHost_at W [.pdbl t]).copy (by decide) hb
    obtain ⟨h3, h4, s4, hs3, hs4, ht4, hw4, hb4⟩ := ht2.copy (by decide) hb2
    obtain ⟨h5, s5, hs5, hr5, hc5⟩ := ht4.mnemonic hW hb4
    have hr2 : s2.regs = { s.regs with qx := s.regs.px } := congrArg Ecmau.regs (hw2.trans (storeData_idle hb _))
    have hr4 : s4.regs = { s2.regs with qy := s2.regs.py } := congrArg Ecmau.regs (hw4.trans (storeData_idle hb2 _))
    exact ⟨h1, h2, h3, h4, h5, s2, s4, s5, hs1, hs2, hs3, hs4, hs5, by rw [hr5, hr4, hr2], hc5⟩
  · rw [← sval_eq_toInt] at hy
    obtain ⟨h1, h2, s2, hs1, hs2, ht2, hb2, hr2⟩ := (startHost_at W [.msub t]).negateY hb hy
    obtain ⟨h3, s3, hs3, hr3, hc3⟩ := ht2.mnemonic hW hb2
    have hneg := toInt_bitsW_neg_sval hW hy
    rw [hr2] at hr3
    obtain ⟨u, hu, hcode, hr⟩ := unitTurn_madd hc3 (by rwa [hr3])
    rw [hr3, hneg, ← sub_eq_add_neg] at hr
    exact ⟨h1, h2, h3, s2, s3, u, hs1, hs2, by rw [hr2, hneg], hs3, hc3, hu, hcode, hr⟩
  · obtain ⟨h1, hs1, ht1, he⟩ := (startHost_at W [.msub t]).rds s
    exact ⟨h1, hs1, ht1.wrNeg_lowest he ((sval_eq_toInt _).trans hy) s⟩
  · obtain ⟨h1, h2, s2, hs1, hs2, ht2, hw2, hb2⟩ := (startHost_at W [.msqr t]).copy (by decide) hb
    obtain ⟨h3, s3, hs3, hr3, hc3⟩ := ht2.mnemonic hW hb2
    have hr2 : s2.regs = { s.regs with y := s.regs.x } := congrArg Ecmau.regs (hw2.trans (storeData_idle hb _))
    exact ⟨h1, h2, h3, s2, s3, hs1, hs2, hs3, hr3.trans hr2, hc3⟩
  · obtain ⟨h1, hs1, ht1⟩ := (startHost_at W [.run v.toNat]).cmd hb
    obtain ⟨h2, hs2, hpc, ht2⟩ := ht1.wait_busy hW (s.issue_busy v)
    have hc := issue_command s v
    exact ⟨h1, h2, _, hs1, hc, fun e he => ⟨_, unitTurn_of_illegal (he ▸ hc), rfl⟩, hs2, hpc,
      fun u hu => ht2.wait_idle hW hu⟩

end

section
/-! The scalar commands (40_modular.md): the value each one forms, what the commands do with it, and the loop of MINV at
its end. -/

namespace Sys2Proof.Machine

variable {W : Nat}

/-! ### Command words at every width -/

/-- The word of a command with OP `op` and T `t`, cut to the width (R80). -/
theorem assembleFields_eq_ofNat (W : Nat) (op : BitVec 8) (t : BitVec 1) :
    assembleFields ({ op := op, t := t, rsv := 0, hi := 0 } : CommandFields W) =
      BitVec.ofNat W (t.toNat * 2 ^ 8 + op.toNat) := by
  apply BitVec.eq_of_toNat_eq
  simp only [assembleFields, BitVec.toNat_setWidth, BitVec.toNat_append, BitVec.ofNat_eq_ofNat, BitVec.toNat_ofNat,
    Nat.zero_mod, Nat.zero_shiftLeft, Nat.zero_or]
  rw [← Nat.shiftLeft_add_eq_or_of_lt op.isLt, Nat.shiftLeft_eq]

/-- The encoder gives the number of the table at every width, also below the one R8 asks for. -/
theorem encode_eq_ofNat_commandNumber (W : Nat) (i : Instr) : encode W i = BitVec.ofNat W (commandNumber i) := by
  cases i <;> exact assembleFields_eq_ofNat W _ _

/-! ### What the scalar commands share (R100) -/

theorem opN_eq_toInt (s : Ecmau W) : s.opN = s.regs.n.toInt := sval_eq_toInt _

theorem opX_eq_toInt (s : Ecmau W) : s.opX = s.regs.x.toInt := sval_eq_toInt _

theorem opY_eq_toInt (s : Ecmau W) : s.opY = s.regs.y.toInt := sval_eq_toInt _

/-- The value that a scalar command forms for the modulus `n`, none for NO_INVERSE and for the other commands
(R105 to R108). -/
def Ecmau.scalarValue (s : Ecmau W) : Instr → Int → Option Int
  | .mod, n => some (cmod n s.opX)
  | .madd, n => some (cmod n (s.opX + s.opY))
  | .mmul, n => some (cmod n (s.opX * s.opY))
  | .minv, n => finishMinv n s.minvWork
  | .nop, _ | .padd, _ | .tbuildA, _ | .tbuildB, _ | .tlookupA, _ | .tlookupB, _ => none

/-- A scalar command is `Ecmau.scalar` of the value it forms. -/
theorem exec_scalar {i : Instr} (hi : i ∈ [Instr.mod, .madd, .mmul, .minv]) (s : Ecmau W) :
    exec i s.pack = .next (s.scalar (s.scalarValue i)).pack := by
  fin_cases hi <;> rfl

/-- With N not positive no value is formed (R100). -/
theorem scalar_of_nonpos {s : Ecmau W} (hn : s.regs.n.toInt ≤ 0) (f : Int → Option Int) :
    CompletesBare s (s.scalar f) .badModulus := by
  have hle : s.opN ≤ 0 := (opN_eq_toInt s).trans_le hn
  have h : s.scalar f = s.complete .badModulus := if_pos hle
  exact h ▸ complete_completes s .badModulus

/-- With N positive and no value the command fails and keeps R (R108). -/
theorem scalar_of_none {s : Ecmau W} {f : Int → Option Int} (hn : 0 < s.opN) (hf : f s.opN = none) :
    CompletesBare s (s.scalar f) .noInverse := by
  have h : s.scalar f = s.complete .noInverse := by
    rw [Ecmau.scalar, if_neg (not_le.mpr hn), hf, Ecmau.raise_eq]
  exact h ▸ complete_completes s .noInverse

/-- With N positive the residue of an exact integer is written to R, whole (R102, R105 to R107). -/
theorem scalar_of_residue {s : Ecmau W} {f : Int → Option Int} {z : Int} (hn : 0 < s.opN)
    (hf : f s.opN = some (cmod s.opN z)) :
    ∃ r : Word W, Completes s (s.scalar f) .ok { s.regs with r := r } s.tabA s.tabB ∧
      (r.toNat : Int) = z % s.regs.n.toInt := by
  rw [scalar_of_some hn hf]
  exact ⟨_, complete_regs_completes s _ .ok, toNat_bitsW_cmod hn z⟩

/-- A command that forms the residue of the exact integer `z` writes it to R, or completes with BAD_MODULUS. -/
theorem exec_of_residue {i : Instr} (hi : i ∈ [Instr.mod, .madd, .mmul, .minv]) {s : Ecmau W} {z : Int}
    (hz : ∀ n, s.scalarValue i n = some (cmod n z)) :
    (0 < s.regs.n.toInt →
      ∃ (t : Ecmau W) (r : Word W), exec i s.pack = .next t.pack ∧
        Completes s t .ok { s.regs with r := r } s.tabA s.tabB ∧ (r.toNat : Int) = z % s.regs.n.toInt) ∧
    (s.regs.n.toInt ≤ 0 → ∃ t : Ecmau W, exec i s.pack = .next t.pack ∧ CompletesBare s t .badModulus) := by
  refine ⟨fun hn => ?_, fun hn => ⟨_, exec_scalar hi s, scalar_of_nonpos hn _⟩⟩
  rw [← opN_eq_toInt] at hn
  obtain ⟨r, hc, hr⟩ := scalar_of_residue hn (hz s.opN)
  exact ⟨_, r, exec_scalar hi s, hc, hr⟩

/-! ### The loop of MINV (R103, R104) -/

/-- The division step with the division that rounds down as Lean's `/`, for a remainder that is not negative. -/
theorem minvPass_eq {w : MinvWork} (h : 0 ≤ w.r1) :
    minvPass w =
      { r0 := w.r1, r1 := w.r0 - w.r0 / w.r1 * w.r1, t0 := w.t1, t1 := w.t0 - w.r0 / w.r1 * w.t1 } := by
  simp only [minvPass, Int.fdiv_eq_ediv_of_nonneg _ h]

/-- The loop tests the remainder for 1, then for 0, then makes a division step: the bound on its passes does not show
(log 14). -/
theorem finishMinv_eq (n : Int) {w : MinvWork} (h : 0 ≤ w.r1) :
    finishMinv n w =
      if w.r1 = 1 then some (cmod n w.t1) else if w.r1 = 0 then none else finishMinv n (minvPass w) := by
  rw [finishMinv, minvLoop]
  split
  · rfl
  · split
    · rfl
    · obtain ⟨h0, hlt⟩ := minvPass_r1_bounds (w := w) (by omega)
      exact minvLoop_eq_finishMinv n _ _ h0 (by omega)

/-- The loop ends at working values as R104 says, with remainder 1 and their coefficient or with remainder 0. -/
theorem minvLoop_ends {n x : Int} {f : Nat} {w : MinvWork} (hw : MinvWorkOk n x w) (hf : w.r1.toNat < f) :
    ∃ w', MinvWorkOk n x w' ∧
      ((w'.r1 = 1 ∧ minvLoop n f w = some (cmod n w'.t1)) ∨ (w'.r1 = 0 ∧ minvLoop n f w = none)) := by
  induction f generalizing w with
  | zero => omega
  | succ f ih =>
    have hnonneg := hw.nonneg
    rw [minvLoop]
    split
    · next h1 => exact ⟨w, hw, .inl ⟨h1, rfl⟩⟩
    · split
      · next h0 => exact ⟨w, hw, .inr ⟨h0, rfl⟩⟩
      · obtain ⟨_, hlt⟩ := minvPass_r1_bounds (w := w) (by omega)
        exact ih (minvPass_ok hw (by omega)) (by omega)

/-- At remainder 1 the gcd is 1, n is at least 2, and the coefficient is the inverse (R104). -/
theorem MinvWorkOk.inverse {n x : Int} {w : MinvWork} (hw : MinvWorkOk n x w) (h1 : w.r1 = 1) :
    2 ≤ n ∧ Int.gcd n x = 1 ∧ (w.t1 * x) % n = 1 := by
  have hlt := hw.below
  have hle := hw.bounded
  have hgcd := hw.gcd
  have hbez := hw.bezout1
  rw [h1] at hlt hgcd hbez
  refine ⟨by omega, by rw [← hgcd, Int.gcd_one_right], ?_⟩
  rw [hbez, Int.emod_eq_of_lt (by omega) (by omega)]

/-- At remainder 0 the gcd is r0, which is n or at least 2: there is no inverse (R104; 90_conflicts.md C2). -/
theorem MinvWorkOk.no_inverse {n x : Int} {w : MinvWork} (hw : MinvWorkOk n x w) (h0 : w.r1 = 0) :
    ¬(2 ≤ n ∧ Int.gcd n x = 1) := by
  rintro ⟨hn, hg⟩
  have hlive := hw.live
  have hgcd := hw.gcd
  rw [h0, Int.gcd_zero_right, hg] at hgcd
  omega

/-- Working values from which MINV may go on: those the state holds, or the first ones. -/
theorem WorkOk.minvWork_ok {s : Ecmau W} (h : WorkOk s) (hn : 0 < s.opN) : MinvWorkOk s.opN s.opX s.minvWork := by
  have hstart := startMinv_ok hn s.opX
  unfold Ecmau.minvWork
  split
  · exact hstart
  · next w hw =>
    simp only [WorkOk, hw] at h
    exact h.2.2
  · exact hstart

/-- MINV, with N positive, ends its loop with the inverse in R or, where there is none, with NO_INVERSE (R108). -/
theorem scalar_minv_cases {s : Ecmau W} (hw : WorkOk s) (hn : 0 < s.opN) :
    (2 ≤ s.regs.n.toInt ∧ Int.gcd s.regs.n.toInt s.regs.x.toInt = 1 ∧
      ∃ r : Word W, Completes s (s.scalar (s.scalarValue .minv)) .ok { s.regs with r := r } s.tabA s.tabB ∧
        (r.toNat : Int) < s.regs.n.toInt ∧ (s.regs.x.toInt * r.toNat) % s.regs.n.toInt = 1) ∨
    (¬(2 ≤ s.regs.n.toInt ∧ Int.gcd s.regs.n.toInt s.regs.x.toInt = 1) ∧
      CompletesBare s (s.scalar (s.scalarValue .minv)) .noInverse) := by
  simp only [← opN_eq_toInt, ← opX_eq_toInt]
  obtain ⟨w, hok, ⟨h1, hf⟩ | ⟨h0, hf⟩⟩ := minvLoop_ends (hw.minvWork_ok hn) (Nat.lt_succ_self _)
  · obtain ⟨hn2, hg, hinv⟩ := hok.inverse h1
    obtain ⟨r, hc, hr⟩ := scalar_of_residue (f := s.scalarValue .minv) hn hf
    rw [← opN_eq_toInt] at hr
    refine .inl ⟨hn2, hg, r, hc, hr ▸ Int.emod_lt_of_pos _ hn, ?_⟩
    rw [hr, Int.mul_comm, Int.mul_emod, Int.emod_emod, ← Int.mul_emod, hinv]
  · exact .inr ⟨hok.no_inverse h0, scalar_of_none (f := s.scalarValue .minv) hn hf⟩

/-! ### What the scalar commands read (R109) -/

/-- The value is formed from X, for MADD and MMUL from Y, and for MINV from its working values. -/
theorem scalarValue_congr {s u : Ecmau W} {i : Instr} (hx : s.regs.x = u.regs.x)
    (hy : i ∈ [Instr.madd, .mmul] → s.regs.y = u.regs.y) (hw : s.minvWork = u.minvWork) :
    s.scalarValue i = u.scalarValue i := by
  funext n
  cases i with
  | madd | mmul => simp only [Ecmau.scalarValue, Ecmau.opX, Ecmau.opY, hx, hy (by decide)]
  | mod | minv => simp only [Ecmau.scalarValue, Ecmau.opX, hx, hw]
  | nop | padd | tbuildA | tbuildB | tlookupA | tlookupB => rfl

/-- The result code and the R written come from N and the value alone. -/
theorem scalar_congr {s u : Ecmau W} (hn : s.regs.n = u.regs.n) (f : Int → Option Int) :
    (s.scalar f).code = (u.scalar f).code ∧
      ((s.scalar f).code = .ok → (s.scalar f).regs.r = (u.scalar f).regs.r) := by
  have hN : s.opN = u.opN := congrArg sval hn
  simp only [Ecmau.scalar, hN]
  split
  · exact ⟨rfl, nofun⟩
  · split
    · exact ⟨rfl, nofun⟩
    · exact ⟨rfl, fun _ => rfl⟩

end Sys2Proof.Machine
end

section
open Sys2Proof Sys2Proof.Machine

/-- Settles O22: the four commands are `Ecmau.scalar`, which tests N first. -/
theorem scalarBadModulus : Obligations.ScalarBadModulus :=
  fun _ s _ hi hn => ⟨_, exec_scalar hi s, scalar_of_nonpos hn _⟩

/-- Settles O23: MOD forms the residue of X (`exec_of_residue`). -/
theorem modReduces : Obligations.ModReduces := by
  refine ⟨fun W => encode_eq_ofNat_commandNumber W .mod, fun W s => ?_⟩
  rw [← opX_eq_toInt]
  exact exec_of_residue (by decide) fun n => rfl

/-- Settles O24: MADD forms the residue of the exact sum (`exec_of_residue`). -/
theorem maddAdds : Obligations.MaddAdds := by
  refine ⟨fun W => encode_eq_ofNat_commandNumber W .madd, fun W s => ?_⟩
  rw [← opX_eq_toInt, ← opY_eq_toInt]
  exact exec_of_residue (by decide) fun n => rfl

/-- Settles O25: MMUL forms the residue of the exact product (`exec_of_residue`). -/
theorem mmulMultiplies : Obligations.MmulMultiplies := by
  refine ⟨fun W => encode_eq_ofNat_commandNumber W .mmul, fun W s => ?_⟩
  rw [← opX_eq_toInt, ← opY_eq_toInt]
  exact exec_of_residue (by decide) fun n => rfl

/-- Settles O26: the loop ends with remainder 1 exactly where there is an inverse (`scalar_minv_cases`), and an inverse
modulo `n >= 2` is not 0. -/
theorem minvInverts : Obligations.MinvInverts := by
  have exec_minv {W : Nat} (s : Ecmau W) := exec_scalar (i := .minv) (by decide) s
  refine ⟨fun W => encode_eq_ofNat_commandNumber W .minv, fun W s hn => ⟨_, exec_minv s, scalar_of_nonpos hn _⟩,
    fun W s hw hn => ?_⟩
  rw [← opN_eq_toInt] at hn
  obtain ⟨hn2, hg, r, hc, hlt, hinv⟩ | ⟨hno, hc⟩ := scalar_minv_cases hw hn
  · refine ⟨fun _ => ⟨_, r, exec_minv s, hc, ?_, by omega, hinv⟩, fun h => absurd ⟨hn2, hg⟩ h⟩
    refine Nat.one_le_iff_ne_zero.mpr fun h0 => ?_
    simp [h0] at hinv
  · exact ⟨fun h => absurd h hno, fun _ => ⟨_, exec_minv s, hc⟩⟩

/-- Settles O27: the loop by one test after another (`finishMinv_eq`), and its value is a residue. -/
theorem modinvIsItsLoop : Obligations.ModinvIsItsLoop := by
  refine ⟨fun n x hn => ?_, fun n w hn h0 => ?_, fun n x y hn hy => ?_⟩
  · rw [modinv, startMinv, cmod_eq_emod hn]
  · rw [finishMinv_eq n h0, cmod_eq_emod hn, minvPass_eq h0]
  · obtain ⟨w, -, ⟨-, hf⟩ | ⟨-, hf⟩⟩ := minvLoop_ends (startMinv_ok hn x) (Nat.lt_succ_self _)
    · cases hy.symm.trans hf
      exact ⟨cmod_nonneg hn _, cmod_lt hn _⟩
    · cases hy.symm.trans hf

/-- Settles O28: the invariant of the loop is kept (`minvPass_ok`), and the remainder is below the divisor. -/
theorem minvPassKeepsBezout : Obligations.MinvPassKeepsBezout :=
  fun _ _ _ _ hw h2 => ⟨minvPass_ok hw h2, (minvPass_r1_bounds (by omega)).2⟩

end

section
/-! The status bits BUSY, DONE, ERR, WERR and CODE, which no command reads (10_state.md R46). -/

namespace Sys2Proof.Machine

variable {W : Nat}

/-- The ECMAU with other values in BUSY, DONE, ERR, WERR and CODE. -/
def Ecmau.withStatus (s : Ecmau W) (busy done err werr : Bool) (code : ResultCode) : Ecmau W :=
  { s with busy := busy, done := done, err := err, werr := werr, code := code }

/-- The state that a completion leaves, had ERR and WERR been `err` and `werr` before it (R32, R33). -/
def Ecmau.completedFrom (t : Ecmau W) (err werr : Bool) : Ecmau W := { t with err := errAfter err t.code, werr := werr }

section
variable (s : Ecmau W) (busy done err werr : Bool) (code : ResultCode)

theorem withStatus_opN : (s.withStatus busy done err werr code).opN = s.opN := rfl
theorem withStatus_opP : (s.withStatus busy done err werr code).opP = s.opP := rfl
theorem withStatus_opA : (s.withStatus busy done err werr code).opA = s.opA := rfl
theorem withStatus_opK : (s.withStatus busy done err werr code).opK = s.opK := rfl
theorem withStatus_opPoint1 : (s.withStatus busy done err werr code).opPoint1 = s.opPoint1 := rfl
theorem withStatus_opPoint2 : (s.withStatus busy done err werr code).opPoint2 = s.opPoint2 := rfl
theorem withStatus_cfg : (s.withStatus busy done err werr code).cfg = s.cfg := rfl
theorem withStatus_buildWork : (s.withStatus busy done err werr code).buildWork = s.buildWork := rfl
theorem withStatus_table (t : TableSel) : (s.withStatus busy done err werr code).table t = s.table t := by
  cases t <;> rfl

theorem scalar_withStatus (f : Int → Option Int) :
    (s.withStatus busy done err werr code).scalar f = (s.scalar f).completedFrom err werr := by
  unfold Ecmau.scalar
  rw [withStatus_opN]
  split
  · rfl
  · split <;> rfl

theorem padd_withStatus :
    (s.withStatus busy done err werr code).padd = s.padd.completedFrom err werr := by
  unfold Ecmau.padd
  rw [withStatus_opP, withStatus_opA, withStatus_opPoint1, withStatus_opPoint2]
  split
  · rfl
  · split
    · rfl
    · cases paddCore s.opP s.opA s.opPoint1 s.opPoint2 <;> rfl

theorem tbuild_withStatus (t : TableSel) :
    (s.withStatus busy done err werr code).tbuild t = (s.tbuild t).completedFrom err werr := by
  unfold Ecmau.tbuild
  rw [withStatus_opP, withStatus_opA, withStatus_opPoint1, withStatus_cfg, withStatus_buildWork]
  split
  · rfl
  · split
    · rfl
    · cases finishBuild s.cfg.nTab s.opP s.opA s.opPoint1 s.buildWork with
      | closed n es => cases t <;> rfl
      | failed c => rfl

theorem tlookup_withStatus (t : TableSel) :
    (s.withStatus busy done err werr code).tlookup t = (s.tlookup t).completedFrom err werr := by
  unfold Ecmau.tlookup
  rw [withStatus_table, withStatus_opK]
  split
  · rfl
  · split <;> rfl

/-- Every command completes with other values in the status bits as it does without, but for ERR and WERR (R46). -/
theorem exec_withStatus (i : Instr) : ∃ t : Ecmau W, exec i s.pack = .next t.pack ∧
    exec i (s.withStatus busy done err werr code).pack = .next (t.completedFrom err werr).pack := by
  have next {u v : Ecmau W} (h : u = v) :
      (.next u.pack : Host.Outcome State Fault Refusal) = .next v.pack := h ▸ rfl
  cases i with
  | nop => exact ⟨_, rfl, rfl⟩
  | mod | madd | mmul | minv => exact ⟨_, rfl, next (scalar_withStatus s busy done err werr code _)⟩
  | padd => exact ⟨_, rfl, next (padd_withStatus s busy done err werr code)⟩
  | tbuildA => exact ⟨_, rfl, next (tbuild_withStatus s busy done err werr code .A)⟩
  | tbuildB => exact ⟨_, rfl, next (tbuild_withStatus s busy done err werr code .B)⟩
  | tlookupA => exact ⟨_, rfl, next (tlookup_withStatus s busy done err werr code .A)⟩
  | tlookupB => exact ⟨_, rfl, next (tlookup_withStatus s busy done err werr code .B)⟩

end

end Sys2Proof.Machine
end

section
/-! The registers that a command writes, and that it leaves every other as it was (40_modular.md R109,
42_table.md R158). -/

namespace Sys2Proof.Machine

variable {W : Nat}

/-- The registers of table t (10_state.md R41). -/
def tableRegs : TableSel → List Reg
  | .A => [.orderA, .gxA, .gyA]
  | .B => [.orderB, .gxB, .gyB]

/-- The registers that a command writes where it completes with OK (R105 to R108, R131, R152, R160, R184). -/
def resultRegs : Instr → List Reg
  | .nop => []
  | .mod | .madd | .mmul | .minv => [.r]
  | .padd | .tlookupA | .tlookupB => [.rx, .ry]
  | .tbuildA => tableRegs .A
  | .tbuildB => tableRegs .B

theorem resultRegs_tbuildOf (sel : TableSel) : resultRegs (tbuildOf sel) = tableRegs sel := by cases sel <;> rfl

/-- Two states whose registers read the same but for those of a list read the same at every other index. -/
theorem regRead_eq_or_mem {s t : Ecmau W} {l : List Reg} (h : ∀ reg, reg ∉ l → t.readReg reg = s.readReg reg)
    (j : RegIndex) : t.regRead j = s.regRead j ∨ ∃ reg ∈ l, j = regIndex reg := by
  cases hr : regAt j with
  | none => exact .inl (by rw [regRead_of_unmapped hr, regRead_of_unmapped hr])
  | some reg =>
    obtain rfl := regAt_eq_some hr
    by_cases hl : reg ∈ l
    · exact .inr ⟨reg, hl, rfl⟩
    · exact .inl (by rw [regRead_regIndex, regRead_regIndex, h reg hl])

/-- There are two tables (00_scope.md R10). -/
theorem eq_otherTable_of_ne {sel sel' : TableSel} (h : sel ≠ sel') : sel = otherTable sel' := by
  revert h
  cases sel <;> cases sel' <;> decide

/-! ### One register after one write -/

/-- A completion shows in STATUS alone (R183). -/
theorem readReg_complete (s : Ecmau W) (c : ResultCode) {reg : Reg} (h : reg ≠ .status) :
    (s.complete c).readReg reg = s.readReg reg := by
  cases reg with
  | status => exact absurd rfl h
  | id | width | tabdepth | ctrl | cmd | n | x | y | r | p | a | b | px | py | qx | qy | rx | ry | k | orderA
  | gxA | gyA | orderB | gxB | gyB => rfl

theorem readReg_with_r (s : Ecmau W) (r : Word W) {reg : Reg} (h : reg ∉ [Reg.r]) :
    ({ s with regs := { s.regs with r := r } } : Ecmau W).readReg reg = s.readReg reg := by
  cases reg with
  | r => exact absurd (by decide) h
  | id | width | tabdepth | ctrl | status | cmd | n | x | y | p | a | b | px | py | qx | qy | rx | ry | k
  | orderA | gxA | gyA | orderB | gxB | gyB => rfl

theorem readReg_with_rx_ry (s : Ecmau W) (x y : Word W) {reg : Reg} (h : reg ∉ [Reg.rx, .ry]) :
    ({ s with regs := { s.regs with rx := x, ry := y } } : Ecmau W).readReg reg = s.readReg reg := by
  cases reg with
  | rx | ry => exact absurd (by decide) h
  | id | width | tabdepth | ctrl | status | cmd | n | x | y | r | p | a | b | px | py | qx | qy | k | orderA
  | gxA | gyA | orderB | gxB | gyB => rfl

theorem readReg_setTable (s : Ecmau W) (sel : TableSel) (tab : Table W) {reg : Reg} (h : reg ≠ .status)
    (ht : reg ∉ tableRegs sel) : (s.setTable sel tab).readReg reg = s.readReg reg := by
  cases sel with
  | A =>
    cases reg with
    | status => exact absurd rfl h
    | orderA | gxA | gyA => exact absurd (by decide) ht
    | id | width | tabdepth | ctrl | cmd | n | x | y | r | p | a | b | px | py | qx | qy | rx | ry | k | orderB
    | gxB | gyB => rfl
  | B =>
    cases reg with
    | status => exact absurd rfl h
    | orderB | gxB | gyB => exact absurd (by decide) ht
    | id | width | tabdepth | ctrl | cmd | n | x | y | r | p | a | b | px | py | qx | qy | rx | ry | k | orderA
    | gxA | gyA => rfl

/-! ### What the end of a command leaves -/

theorem ExecEnds.readReg {i : Instr} {s t : Ecmau W} (h : ExecEnds i s t) {reg : Reg}
    (hreg : reg ∉ .status :: resultRegs i) : t.readReg reg = s.readReg reg := by
  obtain ⟨hst, hres⟩ := not_or.mp (mt List.mem_cons.mpr hreg)
  cases h with
  | bare c _ ht => rw [ht, readReg_complete s c hst]
  | nop _ ht => rw [ht, readReg_complete s .ok hst]
  | scalar hi r ht =>
    have hr : resultRegs i = [.r] := by fin_cases hi <;> rfl
    rw [ht, readReg_complete _ .ok hst, readReg_with_r s r (hr ▸ hres)]
  | point hi x y ht =>
    have hr : resultRegs i = [.rx, .ry] := by fin_cases hi <;> rfl
    rw [ht, readReg_complete _ .ok hst, readReg_with_rx_ry s x y (hr ▸ hres)]
  | build sel hi n es _ _ _ ht =>
    rw [hi, resultRegs_tbuildOf] at hres
    rw [ht, readReg_complete _ .ok hst, readReg_setTable s sel _ hst hres]

/-- Only TBUILD.t changes table t (R158). -/
theorem ExecEnds.table {i : Instr} {s t : Ecmau W} (h : ExecEnds i s t) {sel : TableSel} (hi : i ≠ tbuildOf sel) :
    t.table sel = s.table sel := by
  cases h with
  | bare c _ ht => rw [ht, Ecmau.complete_table]
  | nop _ ht => rw [ht, Ecmau.complete_table]
  | scalar _ r ht => rw [ht, Ecmau.complete_table, Ecmau.table_with_regs]
  | point _ x y ht => rw [ht, Ecmau.complete_table, Ecmau.table_with_regs]
  | build sel' hi' n es _ _ _ ht =>
    obtain rfl := eq_otherTable_of_ne fun hs : sel = sel' => hi (hs ▸ hi')
    rw [ht, Ecmau.complete_table, Ecmau.setTable_table_other]

/-- An error or IDENTITY writes no register and no table (60_exceptions.md R201). -/
theorem ExecEnds.bare_of_code_ne_ok {i : Instr} {s t : Ecmau W} (h : ExecEnds i s t) (hc : t.code ≠ .ok) :
    t.regs = s.regs ∧ ∀ sel, t.table sel = s.table sel := by
  cases h with
  | bare c _ ht => exact ht ▸ ⟨rfl, s.complete_table c⟩
  | nop _ ht => exact absurd (ht ▸ rfl) hc
  | scalar _ r ht => exact absurd (ht ▸ rfl) hc
  | point _ x y ht => exact absurd (ht ▸ rfl) hc
  | build _ _ n es _ _ _ ht => exact absurd (ht ▸ rfl) hc

end Sys2Proof.Machine
end

section
open Sys2Proof Sys2Proof.Machine

/-- Settles O29: a scalar command is `Ecmau.scalar` of a value that its operands give (`scalarValue_congr`), and the
status bits reach ERR and WERR alone (`exec_withStatus`). -/
theorem scalarReadsItsOperandsOnly : Obligations.ScalarReadsItsOperandsOnly := by
  refine ⟨fun W s u i hi hn hx hy hw => ?_, fun W s i busy done err werr code =>
    exec_withStatus s busy done err werr code i⟩
  obtain ⟨hcode, hr⟩ := scalar_congr hn (s.scalarValue i)
  have hu := exec_scalar hi u
  rw [← scalarValue_congr hx hy hw] at hu
  exact ⟨_, _, exec_scalar hi s, hu, hcode, hr⟩

/-- Settles O20, by what the end of a command can be (`exec_ends`): the registers that differ are STATUS and the
command's results. -/
theorem commandFrame : Obligations.CommandFrame := by
  intro W s i
  obtain ⟨t, hexec, hends⟩ := exec_ends i s
  obtain ⟨regs, tabA, tabB, hc⟩ := hends.completes
  refine ⟨t, hexec, fun j => ?_, fun sel => hends.table, hends.bare_of_code_ne_ok, hc.ie, hc.werr, hc.cfg, hc.events,
    hc.answers, hc.turns⟩
  obtain h | ⟨reg, hreg, rfl⟩ := regRead_eq_or_mem (fun reg => hends.readReg) j
  · exact .inl h
  · refine .inr ?_
    clear hexec hends
    revert reg
    cases i <;> decide

end

section
/-! The group law (41_point.md): PADD by its checks, the slope and its inverse, and the sum of two points read modulo p,
where it is symmetric in the points and stays on their curve. -/

namespace Sys2Proof.Machine

variable {W : Nat}

/-! ### Residues as elements of ZMod p -/

theorem emod_eq_emod_iff_cast {p : Int} (hp : 0 < p) (x y : Int) :
    x % p = y % p ↔ (x : ZMod p.toNat) = (y : ZMod p.toNat) := by
  rw [ZMod.intCast_eq_intCast_iff, Int.ModEq, Int.toNat_of_nonneg hp.le]

theorem cast_cmod {p : Int} (hp : 0 < p) (x : Int) : ((cmod p x : Int) : ZMod p.toNat) = (x : ZMod p.toNat) := by
  rw [← emod_eq_emod_iff_cast hp, cmod_eq_emod hp, Int.emod_emod]

/-- A coordinate in `[0, p)` is known by its residue. -/
theorem eq_of_cast_eq {p x y : Int} (hx : 0 ≤ x ∧ x < p) (hy : 0 ≤ y ∧ y < p)
    (h : (x : ZMod p.toNat) = (y : ZMod p.toNat)) : x = y := by
  rwa [← emod_eq_emod_iff_cast (by omega), Int.emod_eq_of_lt hx.1 hx.2, Int.emod_eq_of_lt hy.1 hy.2] at h

theorem canonical_ext {p : Int} {c d : Point} (hc : canonical p c = true) (hd : canonical p d = true)
    (hx : (c.x : ZMod p.toNat) = (d.x : ZMod p.toNat)) (hy : (c.y : ZMod p.toNat) = (d.y : ZMod p.toNat)) : c = d := by
  obtain ⟨hcx, hcy⟩ := (canonical_iff p c).mp hc
  obtain ⟨hdx, hdy⟩ := (canonical_iff p d).mp hd
  exact Point.mk.injEq .. ▸ ⟨eq_of_cast_eq hcx hdx hx, eq_of_cast_eq hcy hdy hy⟩

theorem gcd_cmod {p : Int} (hp : 0 < p) (x : Int) : Int.gcd p (cmod p x) = Int.gcd p x := by
  rw [cmod_eq_emod hp, Int.gcd_comm, Int.gcd_emod, Int.gcd_comm]

/-- `modinv` gives the inverse where there is one, in `[0, p)`, and fails everywhere else (40_modular.md R103, R104). -/
theorem modinv_cases {p : Int} (hp : 0 < p) (x : Int) :
    (¬(2 ≤ p ∧ Int.gcd p x = 1) ∧ modinv p x = none) ∨
    ((2 ≤ p ∧ Int.gcd p x = 1) ∧ ∃ y, 0 ≤ y ∧ y < p ∧ (x * y) % p = 1 ∧ modinv p x = some y) := by
  obtain ⟨w, hok, ⟨h1, hf⟩ | ⟨h0, hf⟩⟩ := minvLoop_ends (startMinv_ok hp x) (Nat.lt_succ_self _)
  · obtain ⟨h2, hg, hinv⟩ := hok.inverse h1
    refine .inr ⟨⟨h2, hg⟩, _, cmod_nonneg hp _, cmod_lt hp _, ?_, hf⟩
    rw [cmod_eq_emod hp, Int.mul_emod, Int.emod_emod, ← Int.mul_emod, Int.mul_comm, hinv]
  · exact .inl ⟨hok.no_inverse h0, hf⟩

/-! ### The slope and the third point (R130) -/

/-- The numerator of the slope, before it is reduced: of the tangent for points with one x, else of the chord. -/
def slopeNum (a : Int) (c1 c2 : Point) : Int := if c1.x = c2.x then 3 * c1.x * c1.x + a else c2.y - c1.y

/-- The denominator of the slope, before it is reduced. -/
def slopeDen (c1 c2 : Point) : Int := if c1.x = c2.x then 2 * c1.y else c2.x - c1.x

/-- The third point of the line of slope `m` through two points. -/
def thirdPoint (p m : Int) (c1 c2 : Point) : Point where
  x := cmod p (m * m - c1.x - c2.x)
  y := cmod p (m * (c1.x - cmod p (m * m - c1.x - c2.x)) - c1.y)

/-- Two points with one x and different y add to the identity (R132). -/
theorem paddCore_of_opposite (p a : Int) {c1 c2 : Point} (hx : c1.x = c2.x) (hy : c1.y ≠ c2.y) :
    paddCore p a c1 c2 = .identity := by
  rw [paddCore, if_pos hx, if_neg hy]

/-- Every other pair has a slope. -/
theorem paddCore_of_slope (p a : Int) {c1 c2 : Point} (h : c1.x = c2.x → c1.y = c2.y) :
    paddCore p a c1 c2 = slopePoint p (cmod p (slopeNum a c1 c2)) (cmod p (slopeDen c1 c2)) c1 c2 := by
  unfold paddCore slopeNum slopeDen
  split
  · next hx => rw [if_pos (h hx)]
  · rfl

/-- The third point where the denominator has an inverse, NO_INVERSE where it has none. -/
theorem slopePoint_cases {p : Int} (hp : 0 < p) (num den : Int) (c1 c2 : Point) :
    (¬(2 ≤ p ∧ Int.gcd p den = 1) ∧ slopePoint p num den c1 c2 = .noInverse) ∨
    ((2 ≤ p ∧ Int.gcd p den = 1) ∧ ∃ inv, 0 ≤ inv ∧ inv < p ∧ (den * inv) % p = 1 ∧
      slopePoint p num den c1 c2 = .sum (thirdPoint p (cmod p (num * inv)) c1 c2)) := by
  obtain ⟨hno, hm⟩ | ⟨hyes, inv, h0, hlt, hinv, hm⟩ := modinv_cases hp den
  · exact .inl ⟨hno, by rw [slopePoint, hm]⟩
  · exact .inr ⟨hyes, inv, h0, hlt, hinv, by rw [slopePoint, hm]; rfl⟩

/-- `c` is, modulo p, the third point of a line of slope `num / den` through `c1` and `c2`, for a `den` that has the
inverse `inv`. -/
structure IsThirdPoint (p num den : Int) (c1 c2 c : Point) (m inv : ZMod p.toNat) : Prop where
  inverse : (den : ZMod p.toNat) * inv = 1
  slope : m * (den : ZMod p.toNat) = (num : ZMod p.toNat)
  x : (c.x : ZMod p.toNat) = m * m - (c1.x : ZMod p.toNat) - (c2.x : ZMod p.toNat)
  y : (c.y : ZMod p.toNat) = m * ((c1.x : ZMod p.toNat) - (c.x : ZMod p.toNat)) - (c1.y : ZMod p.toNat)

theorem slopePoint_isThirdPoint {p num den : Int} {c1 c2 c : Point} (hp : 0 < p)
    (h : slopePoint p (cmod p num) (cmod p den) c1 c2 = .sum c) :
    ∃ m inv : ZMod p.toNat, IsThirdPoint p num den c1 c2 c m inv := by
  obtain ⟨-, hn⟩ | ⟨⟨h2, -⟩, inv, -, -, hinv, hs⟩ := slopePoint_cases hp (cmod p num) (cmod p den) c1 c2
  · cases h.symm.trans hn
  · cases h.symm.trans hs
    have hone : (den : ZMod p.toNat) * (inv : ZMod p.toNat) = 1 := by
      have := (emod_eq_emod_iff_cast hp (cmod p den * inv) 1).mp (by rw [hinv, Int.emod_eq_of_lt (by omega) (by omega)])
      rwa [Int.cast_mul, cast_cmod hp, Int.cast_one] at this
    refine ⟨num * inv, inv, hone, ?_, ?_, ?_⟩
    · linear_combination (num : ZMod p.toNat) * hone
    · simp only [thirdPoint, cast_cmod hp, Int.cast_sub, Int.cast_mul]
    · simp only [thirdPoint, cast_cmod hp, Int.cast_sub, Int.cast_mul]

/-! ### The sum does not depend on the order of the points (R135) -/

/-- A line has one slope, so its third point is the same from either of two points with different x. -/
theorem IsThirdPoint.unique {p : Int} {c1 c2 c d : Point} {m m' inv inv' : ZMod p.toNat}
    (hc : IsThirdPoint p (c2.y - c1.y) (c2.x - c1.x) c1 c2 c m inv)
    (hd : IsThirdPoint p (c1.y - c2.y) (c1.x - c2.x) c2 c1 d m' inv') :
    (c.x : ZMod p.toNat) = (d.x : ZMod p.toNat) ∧ (c.y : ZMod p.toNat) = (d.y : ZMod p.toNat) := by
  obtain ⟨hone, hslope, hx, hy⟩ := hc
  obtain ⟨-, hslope', hx', hy'⟩ := hd
  push_cast at hone hslope hslope'
  have hm : m = m' := by linear_combination inv * (hslope + hslope') - (m - m') * hone
  subst hm
  have hxx : (c.x : ZMod p.toNat) = (d.x : ZMod p.toNat) := by linear_combination hx - hx'
  exact ⟨hxx, by linear_combination hy - hy' - hslope - m * hxx⟩

/-- The third point of the chord does not depend on which of its points comes first. -/
theorem slopePoint_chord_comm {p : Int} (hp : 0 < p) (c1 c2 : Point) :
    slopePoint p (cmod p (c2.y - c1.y)) (cmod p (c2.x - c1.x)) c1 c2 =
      slopePoint p (cmod p (c1.y - c2.y)) (cmod p (c1.x - c2.x)) c2 c1 := by
  have hgcd : Int.gcd p (cmod p (c1.x - c2.x)) = Int.gcd p (cmod p (c2.x - c1.x)) := by
    rw [gcd_cmod hp, gcd_cmod hp, ← Int.neg_sub, Int.gcd_neg]
  have hswap := slopePoint_cases hp (cmod p (c1.y - c2.y)) (cmod p (c1.x - c2.x)) c2 c1
  rw [hgcd] at hswap
  obtain ⟨hno, hn⟩ | ⟨hyes, _, -, -, -, hs⟩ :=
    slopePoint_cases hp (cmod p (c2.y - c1.y)) (cmod p (c2.x - c1.x)) c1 c2
  · obtain ⟨-, hn'⟩ | ⟨hyes, -⟩ := hswap
    · rw [hn, hn']
    · exact absurd hyes hno
  · obtain ⟨hno, -⟩ | ⟨-, _, -, -, -, hs'⟩ := hswap
    · exact absurd hyes hno
    · obtain ⟨_, _, hthird⟩ := slopePoint_isThirdPoint hp hs
      obtain ⟨_, _, hthird'⟩ := slopePoint_isThirdPoint hp hs'
      obtain ⟨hx, hy⟩ := hthird.unique hthird'
      rw [hs, hs', canonical_ext (slopePoint_canonical hp hs) (slopePoint_canonical hp hs') hx hy]

/-- `padd_core` is symmetric in its points. -/
theorem paddCore_comm {p : Int} (hp : 0 < p) (a : Int) (c1 c2 : Point) : paddCore p a c1 c2 = paddCore p a c2 c1 := by
  by_cases hx : c1.x = c2.x
  · by_cases hy : c1.y = c2.y
    · have heq : c1 = c2 := Point.mk.injEq .. ▸ ⟨hx, hy⟩
      rw [heq]
    · rw [paddCore_of_opposite p a hx hy, paddCore_of_opposite p a hx.symm (Ne.symm hy)]
  · rw [paddCore, paddCore, if_neg hx, if_neg (Ne.symm hx)]
    exact slopePoint_chord_comm hp c1 c2

/-! ### The sum is on the curve of its points (R135) -/

/-- (x, y) is on the curve `y² = x³ + a·x + b`, over any ring. -/
def OnCurve {R : Type} [CommRing R] (a b x y : R) : Prop := y * y = x * x * x + a * x + b

/-- The chord: the cubic of the curve less the square of the line has the roots x1, x2 and `m² - x1 - x2`. -/
theorem OnCurve.chord {R : Type} [CommRing R] {a b x1 y1 x2 y2 x3 y3 m inv : R} (h1 : OnCurve a b x1 y1)
    (h2 : OnCurve a b x2 y2) (hinv : (x2 - x1) * inv = 1) (hm : m * (x2 - x1) = y2 - y1) (hx : x3 = m * m - x1 - x2)
    (hy : y3 = m * (x1 - x3) - y1) : OnCurve a b x3 y3 := by
  unfold OnCurve at *
  have key : (x2 - x1) * (y3 * y3) = (x2 - x1) * (x3 * x3 * x3 + a * x3 + b) := by
    subst hy hx
    linear_combination (x2 - x1) * h1 +
      (m * m - x1 - x2 - x1) * (h2 - h1 + (m * (x2 - x1) + y1 + y2) * hm)
  exact (IsUnit.of_mul_eq_one inv hinv).mul_left_cancel key

/-- The tangent: x1 is a double root, since the slope makes the derivative 0 there. -/
theorem OnCurve.tangent {R : Type} [CommRing R] {a b x1 y1 x3 y3 m : R} (h1 : OnCurve a b x1 y1)
    (hm : m * (2 * y1) = 3 * x1 * x1 + a) (hx : x3 = m * m - x1 - x1) (hy : y3 = m * (x1 - x3) - y1) :
    OnCurve a b x3 y3 := by
  unfold OnCurve at *
  subst hy hx
  linear_combination h1 + (m * m - 3 * x1) * hm

theorem paddCore_onCurve {p a b : Int} {c1 c2 c : Point} (hp : 0 < p)
    (h1 : OnCurve (a : ZMod p.toNat) b c1.x c1.y) (h2 : OnCurve (a : ZMod p.toNat) b c2.x c2.y)
    (h : paddCore p a c1 c2 = .sum c) : OnCurve (a : ZMod p.toNat) b c.x c.y := by
  have hxy : c1.x = c2.x → c1.y = c2.y := fun hx => by
    by_contra hy
    cases h.symm.trans (paddCore_of_opposite p a hx hy)
  rw [paddCore_of_slope p a hxy] at h
  obtain ⟨m, inv, hone, hslope, hx3, hy3⟩ := slopePoint_isThirdPoint hp h
  by_cases hx : c1.x = c2.x
  · rw [slopeDen, slopeNum, if_pos hx, if_pos hx] at hslope
    rw [← hx] at hx3
    push_cast at hslope
    exact h1.tangent hslope hx3 hy3
  · rw [slopeDen, if_neg hx] at hone
    rw [slopeDen, slopeNum, if_neg hx, if_neg hx] at hslope
    push_cast at hone hslope
    exact h1.chord h2 hone hslope hx3 hy3

theorem emod_eq_iff_onCurve {p : Int} (hp : 0 < p) (a b x y : Int) :
    (y * y) % p = (x * x * x + a * x + b) % p ↔ OnCurve (a : ZMod p.toNat) b x y := by
  rw [emod_eq_emod_iff_cast hp, OnCurve]
  push_cast
  rfl

/-! ### PADD by its checks (R131) -/

theorem padd_of_nonpos {s : Ecmau W} (hp : s.opP ≤ 0) : CompletesBare s s.padd .badModulus := by
  have h : s.padd = s.complete .badModulus := if_pos hp
  exact h ▸ complete_completes s .badModulus

theorem padd_of_not_canonical {s : Ecmau W} (hp : 0 < s.opP)
    (hc : ¬(canonical s.opP s.opPoint1 = true ∧ canonical s.opP s.opPoint2 = true)) :
    CompletesBare s s.padd .nonCanon := by
  obtain ⟨hle, -⟩ | ⟨-, -, h⟩ | ⟨-, h1, h2, -⟩ := padd_cases s
  · omega
  · exact h ▸ complete_completes s .nonCanon
  · exact absurd ⟨h1, h2⟩ hc

theorem padd_of_canonical {s : Ecmau W} (hp : 0 < s.opP)
    (hc : canonical s.opP s.opPoint1 = true ∧ canonical s.opP s.opPoint2 = true) :
    s.padd = s.completePadd (paddCore s.opP s.opA s.opPoint1 s.opPoint2) := by
  obtain ⟨hle, -⟩ | ⟨-, hf, -⟩ | ⟨-, -, -, h⟩ := padd_cases s
  · omega
  · simp [hc.1, hc.2] at hf
  · exact h

/-- PADD of two canonical points that are not opposite ends with NO_INVERSE, or writes their third point, whole. -/
theorem padd_slope_cases {s : Ecmau W} (hp : 0 < s.opP)
    (hc : canonical s.opP s.opPoint1 = true ∧ canonical s.opP s.opPoint2 = true)
    (hxy : s.opPoint1.x = s.opPoint2.x → s.opPoint1.y = s.opPoint2.y) :
    (¬(2 ≤ s.opP ∧ Int.gcd s.opP (cmod s.opP (slopeDen s.opPoint1 s.opPoint2)) = 1) ∧
      CompletesBare s s.padd .noInverse) ∨
    ((2 ≤ s.opP ∧ Int.gcd s.opP (cmod s.opP (slopeDen s.opPoint1 s.opPoint2)) = 1) ∧
      ∃ (rx ry : Word W) (inv : Int), Completes s s.padd .ok { s.regs with rx := rx, ry := ry } s.tabA s.tabB ∧
        0 ≤ inv ∧ inv < s.opP ∧ (cmod s.opP (slopeDen s.opPoint1 s.opPoint2) * inv) % s.opP = 1 ∧
        entryPoint (rx, ry) = thirdPoint s.opP
          (cmod s.opP (cmod s.opP (slopeNum s.opA s.opPoint1 s.opPoint2) * inv)) s.opPoint1 s.opPoint2) := by
  rw [padd_of_canonical hp hc, paddCore_of_slope _ _ hxy]
  obtain ⟨hno, h⟩ | ⟨hyes, inv, h0, hlt, hinv, h⟩ :=
    slopePoint_cases hp (cmod s.opP (slopeNum s.opA s.opPoint1 s.opPoint2))
      (cmod s.opP (slopeDen s.opPoint1 s.opPoint2)) s.opPoint1 s.opPoint2
  · exact .inl ⟨hno, h ▸ complete_completes s .noInverse⟩
  · rw [h]
    exact .inr ⟨hyes, _, _, inv, complete_regs_completes s _ .ok, h0, hlt, hinv,
      entryPoint_toEntry (sval_lt_two_pow s.regs.p).le (slopePoint_canonical hp h)⟩

/-- A completion of PADD with OK writes the sum of the points, whole. -/
theorem padd_of_code_ok {s : Ecmau W} (h : s.padd.code = .ok) :
    0 < s.opP ∧ paddCore s.opP s.opA s.opPoint1 s.opPoint2 = .sum (entryPoint (s.padd.regs.rx, s.padd.regs.ry)) := by
  obtain ⟨-, hs⟩ | ⟨-, -, hs⟩ | ⟨hp, -, -, hs⟩ := padd_cases s
  · cases (hs ▸ h : (s.complete .badModulus).code = .ok)
  · cases (hs ▸ h : (s.complete .nonCanon).code = .ok)
  · refine ⟨hp, ?_⟩
    rw [hs] at h ⊢
    cases hr : paddCore s.opP s.opA s.opPoint1 s.opPoint2 with
    | sum c => exact congrArg _ (entryPoint_toEntry (sval_lt_two_pow s.regs.p).le (paddCore_canonical hp hr)).symm
    | identity => cases hr ▸ h
    | noInverse => cases hr ▸ h

/-- The ECMAU with the two operand points exchanged. -/
def Ecmau.swapPoints (s : Ecmau W) : Ecmau W :=
  { s with regs := { s.regs with px := s.regs.qx, py := s.regs.qy, qx := s.regs.px, qy := s.regs.py } }

/-- PADD of the points exchanged ends as it does without, but for the operands (R135). -/
theorem padd_swapPoints (s : Ecmau W) : s.swapPoints.padd = s.padd.swapPoints := by
  have hP : s.swapPoints.opP = s.opP := rfl
  have hA : s.swapPoints.opA = s.opA := rfl
  have h1 : s.swapPoints.opPoint1 = s.opPoint2 := rfl
  have h2 : s.swapPoints.opPoint2 = s.opPoint1 := rfl
  unfold Ecmau.padd
  rw [hP, hA, h1, h2, Bool.and_comm]
  split
  · rfl
  · next hp =>
    split
    · rfl
    · rw [paddCore_comm (not_le.mp hp)]
      cases paddCore s.opP s.opA s.opPoint1 s.opPoint2 <;> rfl

theorem exec_padd (s : Ecmau W) : exec .padd s.pack = .next s.padd.pack := rfl

theorem opP_eq_toInt (s : Ecmau W) : s.opP = s.regs.p.toInt := sval_eq_toInt _

theorem opA_eq_toInt (s : Ecmau W) : s.opA = s.regs.a.toInt := sval_eq_toInt _

theorem opPoint1_eq_toInt (s : Ecmau W) : s.opPoint1 = { x := s.regs.px.toInt, y := s.regs.py.toInt } := by
  simp only [Ecmau.opPoint1, sval_eq_toInt]

theorem opPoint2_eq_toInt (s : Ecmau W) : s.opPoint2 = { x := s.regs.qx.toInt, y := s.regs.qy.toInt } := by
  simp only [Ecmau.opPoint2, sval_eq_toInt]

end Sys2Proof.Machine
end

section
open Sys2Proof Sys2Proof.Machine

/-- Settles O30: each clause is one of the outcomes of PADD, with its operands read as `toInt` and its residues as `%`. -/
theorem paddComputesTheGroupLaw : Obligations.PaddComputesTheGroupLaw := by
  refine ⟨fun W => encode_eq_ofNat_commandNumber W .padd, fun W s => ?_⟩
  intro p a px py qx qy canon num den
  have hP : s.opP = p := opP_eq_toInt s
  have h1 : s.opPoint1 = ⟨px, py⟩ := opPoint1_eq_toInt s
  have h2 : s.opPoint2 = ⟨qx, qy⟩ := opPoint2_eq_toInt s
  have hcanon : (canonical s.opP s.opPoint1 = true ∧ canonical s.opP s.opPoint2 = true) ↔ canon := by
    rw [canonical_iff, canonical_iff, hP, h1, h2, and_assoc]
  have hden (hp : 0 < p) : cmod s.opP (slopeDen s.opPoint1 s.opPoint2) = den := by
    rw [hP, h1, h2, cmod_eq_emod hp, slopeDen, apply_ite (· % p)]
  have hnum (hp : 0 < p) : cmod s.opP (slopeNum s.opA s.opPoint1 s.opPoint2) = num := by
    rw [hP, h1, h2, cmod_eq_emod hp, slopeNum, apply_ite (· % p), opA_eq_toInt]
  have hcases (hp : 0 < p) (hc : canon) (hxy : px = qx → py = qy) :=
    padd_slope_cases (hP ▸ hp) (hcanon.mpr hc) (by rwa [h1, h2])
  refine ⟨fun hp => ?_, fun hp hc => ?_, fun hp hc hx hy => ?_, fun hp hc hxy hno => ?_, fun hp hc hxy hyes => ?_⟩
  · exact ⟨_, exec_padd s, padd_of_nonpos (hP.trans_le hp)⟩
  · exact ⟨_, exec_padd s, padd_of_not_canonical (hP ▸ hp) (hcanon.not.mpr hc)⟩
  · refine ⟨_, exec_padd s, ?_⟩
    rw [padd_of_canonical (hP ▸ hp) (hcanon.mpr hc), h1, h2, paddCore_of_opposite _ _ hx hy]
    exact complete_completes s .identity
  · obtain ⟨-, hcompl⟩ | ⟨hyes, -⟩ := hcases hp hc hxy
    · exact ⟨_, exec_padd s, hcompl⟩
    · exact absurd (by rwa [hden hp, hP] at hyes) hno
  · obtain ⟨hno, -⟩ | ⟨-, rx, ry, inv, hcompl, h0, hlt, hinv, hsum⟩ := hcases hp hc hxy
    · exact absurd hyes (by rwa [hden hp, hP] at hno)
    · rw [hden hp, hP] at hinv
      rw [hnum hp, hP, h1, h2] at hsum
      simp only [entryPoint, thirdPoint, cmod_eq_emod hp, Point.mk.injEq] at hsum
      obtain ⟨hx, hy⟩ := hsum
      refine ⟨_, rx, ry, exec_padd s, hcompl, inv, h0, hP ▸ hlt, hinv, hx, hy.trans ?_⟩
      rw [← hx, uval]

/-- Settles O31: in each case 2·py is not prime to p, or p is 1, so the tangent has no slope. -/
theorem doublingWithoutInverse : Obligations.DoublingWithoutInverse := by
  intro W s hp hx hy hx0 hxp hy0 hyp hcase
  have hP := opP_eq_toInt s
  have hpos : 0 < s.opP := hP ▸ hp
  have h12 : s.opPoint1 = s.opPoint2 := by rw [Ecmau.opPoint1, hx, hy]; rfl
  have hc1 : canonical s.opP s.opPoint1 = true := by
    rw [canonical_iff, hP, opPoint1_eq_toInt]
    exact ⟨⟨hx0, hxp⟩, hy0, hyp⟩
  have hden : slopeDen s.opPoint1 s.opPoint2 = 2 * s.regs.py.toInt := by
    rw [slopeDen, h12, if_pos rfl, ← h12, opPoint1_eq_toInt]
  have hno : ¬(2 ≤ s.regs.p.toInt ∧ Int.gcd s.regs.p.toInt (2 * s.regs.py.toInt) = 1) := by
    rintro ⟨h2, hg⟩
    obtain hzero | hp1 | hp2 | hne := hcase
    · rw [hzero, show (0 : Word W).toInt = 0 from BitVec.toInt_zero, mul_zero, Int.gcd_zero_right] at hg
      omega
    · omega
    · rw [hp2, Int.gcd_mul_right_right] at hg
      omega
    · exact hne hg
  obtain ⟨-, hcompl⟩ | ⟨hyes, -⟩ := padd_slope_cases hpos ⟨hc1, h12 ▸ hc1⟩ fun _ => congrArg _ h12
  · exact ⟨_, exec_padd s, hcompl⟩
  · exact absurd (by rwa [gcd_cmod hpos, hden, hP] at hyes) hno

/-- Settles O32: the two runs end in states that differ in the exchanged operands alone (`padd_swapPoints`). -/
theorem paddCommutes : Obligations.PaddCommutes := by
  intro W s
  have hu : exec .padd s.swapPoints.pack = .next s.padd.swapPoints.pack := by rw [exec_padd, padd_swapPoints]
  exact ⟨s.padd, s.padd.swapPoints, exec_padd s, hu, rfl, rfl, rfl⟩

/-- Settles O33: modulo p the sum is on the chord or tangent and the curve (`paddCore_onCurve`). -/
theorem paddStaysOnTheCurve : Obligations.PaddStaysOnTheCurve := by
  intro W s b p onCurve hpt1 hpt2
  refine ⟨_, exec_padd s, fun hok => ?_⟩
  obtain ⟨hpos, hsum⟩ := padd_of_code_ok hok
  rw [opP_eq_toInt] at hpos
  rw [opP_eq_toInt, opA_eq_toInt, opPoint1_eq_toInt, opPoint2_eq_toInt] at hsum
  exact (emod_eq_iff_onCurve hpos ..).mpr (paddCore_onCurve hpos ((emod_eq_iff_onCurve hpos ..).mp hpt1)
    ((emod_eq_iff_onCurve hpos ..).mp hpt2) hsum)

end

section
/-! The build loop (42_table.md R152 to R154): one pass by the sum of the running point and the generator, and the end of a
build by the working values at which a pass ends it. -/

namespace Sys2Proof.Machine

variable {nTab : Nat} {p a : Int} {g : Point}

/-! ### One pass -/

/-- A pass goes on where the sum is a point and both bounds allow it (R152, R154). -/
theorem buildPass_of_sum {w : BuildWork} {c : Point} (hcap : w.order + 1 ≤ 2 * p + 1) (hfit : w.order + 1 ≤ nTab)
    (hc : paddCore p a w.cur g = .sum c) :
    buildPass nTab p a g w = .more { cur := c, order := w.order + 1, entries := w.entries ++ [c] } := by
  simp only [buildPass, if_neg (not_lt.mpr hcap), hc, if_neg (not_lt.mpr hfit)]

/-- The four ways in which a pass ends the build: by the cap, by the two results of the addition that are no point, and by
the storage bound (R152, R154). -/
theorem buildPass_ended_iff {w : BuildWork} {e : BuildEnd} :
    buildPass nTab p a g w = .ended e ↔
      (2 * p + 1 < w.order + 1 ∧ .failed .divergence = e) ∨
      (w.order + 1 ≤ 2 * p + 1 ∧ paddCore p a w.cur g = .noInverse ∧ .failed .noInverse = e) ∨
      (w.order + 1 ≤ 2 * p + 1 ∧ paddCore p a w.cur g = .identity ∧ .closed (w.order + 1) w.entries = e) ∨
      (w.order + 1 ≤ 2 * p + 1 ∧ (∃ c, paddCore p a w.cur g = .sum c) ∧ nTab < w.order + 1 ∧
        .failed .tableOverflow = e) := by
  by_cases hcap : 2 * p + 1 < w.order + 1
  · simp [buildPass, hcap, not_le.mpr hcap]
  · cases hr : paddCore p a w.cur g with
    | noInverse => simp [buildPass, hcap, hr, not_lt.mp hcap]
    | identity => simp [buildPass, hcap, hr, not_lt.mp hcap]
    | sum c =>
      by_cases hfit : (nTab : Int) < w.order + 1 <;> simp [buildPass, hcap, hr, hfit, not_lt.mp hcap]

/-! ### The loop by its passes -/

theorem finishBuild_of_more {w w' : BuildWork} (h : buildPass nTab p a g w = .more w') :
    finishBuild nTab p a g w = finishBuild nTab p a g w' := by
  obtain ⟨-, hfit, -, hw'⟩ := buildPass_more h
  have ho : w'.order = w.order + 1 := by rw [hw']
  rw [← buildLoop_eq_finishBuild nTab p a g (nTab + 1 - w.order).toNat w' (by omega)]
  simp only [finishBuild, buildLoop, h]

theorem finishBuild_of_ended {w : BuildWork} {e : BuildEnd} (h : buildPass nTab p a g w = .ended e) :
    finishBuild nTab p a g w = e := by
  simp only [finishBuild, buildLoop, h]

/-- The build ends by a pass on working values that the invariant of its loop holds of. -/
theorem BuildWorkOk.ends {w : BuildWork} (hw : BuildWorkOk nTab p a g w) :
    ∃ w', BuildWorkOk nTab p a g w' ∧ buildPass nTab p a g w' = .ended (finishBuild nTab p a g w) := by
  -- the passes left: each one that goes on raises `order`, and never above N_TAB
  induction hm : (nTab + 1 - w.order).toNat using Nat.strong_induction_on generalizing w with
  | _ m ih =>
    cases hpass : buildPass nTab p a g w with
    | ended e => exact ⟨w, hw, hpass.trans (congrArg _ (finishBuild_of_ended hpass).symm)⟩
    | more w' =>
      obtain ⟨-, hfit, -, hw'⟩ := buildPass_more hpass
      have ho : w'.order = w.order + 1 := by rw [hw']
      rw [finishBuild_of_more hpass]
      exact ih _ (by omega) (buildPass_ok hw hpass) rfl

/-! ### The working values by the multiples of the generator -/

/-- The invariant of the loop leaves no choice: the number of entries determines the working values. -/
theorem BuildWorkOk.ext {w w' : BuildWork} (hw : BuildWorkOk nTab p a g w) (hw' : BuildWorkOk nTab p a g w')
    (ho : w.order = w'.order) : w = w' := by
  have hcur : w.cur = w'.cur := Option.some.inj (hw.running.symm.trans (ho ▸ hw'.running))
  have hlen : w.entries.length = w'.entries.length := by have := hw.listed; have := hw'.listed; omega
  have hentries : w.entries = w'.entries := by
    refine List.ext_getElem? fun j => ?_
    by_cases hj : j < w.entries.length
    · exact (hw.multiples (j + 1) (by omega) hj).trans (hw'.multiples (j + 1) (by omega) (hlen ▸ hj)).symm
    · rw [List.getElem?_eq_none (by omega), List.getElem?_eq_none (by omega)]
  cases w
  cases w'
  cases hcur
  cases ho
  cases hentries
  rfl

/-- The build comes to every multiple of the generator that both bounds allow (R152, R154). -/
theorem build_reaches (hp : 0 < p) {k : Nat} (hk : 1 ≤ k) (hfit : k ≤ nTab) (hcap : (k : Int) ≤ 2 * p + 1) {c : Point}
    (hc : multiple p a g k = some c) :
    ∃ w, BuildWorkOk nTab p a g w ∧ w.order = k ∧ w.cur = c ∧ build nTab p a g = finishBuild nTab p a g w := by
  induction k, hk using Nat.le_induction generalizing c with
  | base => exact ⟨startBuild g, startBuild_ok hfit hp, rfl, Option.some.inj hc, rfl⟩
  | succ k hk ih =>
    obtain ⟨b, hb, hadd⟩ := multiple_pred hk hc
    obtain ⟨w, hw, ho, rfl, hbuild⟩ := ih (by omega) (by omega) hb
    have hpass := buildPass_of_sum (nTab := nTab) (w := w) (by omega) (by omega) hadd
    exact ⟨_, buildPass_ok hw hpass, by simp [ho], rfl, hbuild.trans (finishBuild_of_more hpass)⟩

/-- Every stage of the working values that the invariant of the loop allows is one the build comes to. -/
theorem BuildWorkOk.build_eq {w : BuildWork} (hp : 0 < p) (hw : BuildWorkOk nTab p a g w) :
    build nTab p a g = finishBuild nTab p a g w := by
  have hpos := hw.positive
  have hfit := hw.fits
  have hcap := hw.capped
  obtain ⟨w', hw', ho, -, hbuild⟩ :=
    build_reaches (nTab := nTab) hp (k := w.order.toNat) (by omega) (by omega) (by omega) hw.running
  rw [hbuild, hw'.ext hw (by omega)]

/-- A build ends with `e` exactly where some pass on working values as the invariant says ends it so. -/
theorem build_eq_iff (hn : 1 ≤ nTab) (hp : 0 < p) {e : BuildEnd} :
    build nTab p a g = e ↔ ∃ w, BuildWorkOk nTab p a g w ∧ buildPass nTab p a g w = .ended e := by
  constructor
  · rintro rfl
    exact (startBuild_ok hn hp).ends
  · rintro ⟨w, hw, hpass⟩
    rw [hw.build_eq hp, finishBuild_of_ended hpass]

/-! ### Which end a build has (R152, R153, R154) -/

section
variable (hn : 1 ≤ nTab) (hp : 0 < p)
include hn hp

/-- A build closes at n where n·G is the identity, with the multiples before it. -/
theorem build_closed_iff {n : Int} {es : List Point} :
    build nTab p a g = .closed n es ↔
      2 ≤ n ∧ n ≤ nTab + 1 ∧ n ≤ 2 * p + 1 ∧ (es.length : Int) = n - 1 ∧
      (∀ k : Nat, 1 ≤ k → k ≤ es.length → ∃ c, es[k - 1]? = some c ∧ multiple p a g k = some c) ∧
      ∃ c, multiple p a g es.length = some c ∧ paddCore p a c g = .identity := by
  simp only [build_eq_iff hn hp, buildPass_ended_iff, reduceCtorEq, and_false, false_or, or_false, BuildEnd.closed.injEq]
  constructor
  · rintro ⟨w, hw, hcap, hid, rfl, rfl⟩
    have hpos := hw.positive
    have hfit := hw.fits
    have hlen := hw.listed
    have ho : w.order.toNat = w.entries.length := by omega
    refine ⟨by omega, by omega, hcap, by omega, fun k h1 hk => ?_, w.cur, ho ▸ hw.running, hid⟩
    have hm := hw.multiples k h1 hk
    rw [List.getElem?_eq_getElem (by omega)] at hm
    exact ⟨_, List.getElem?_eq_getElem (by omega), hm.symm⟩
  · rintro ⟨h2, hfit, hcap, hlen, hes, c, hc, hid⟩
    have ho : (n - 1).toNat = es.length := by omega
    have hw : BuildWorkOk nTab p a g { cur := c, order := n - 1, entries := es } := by
      refine ⟨Int.le_sub_one_of_lt h2, by linarith, by linarith, hlen, fun k h1 hk => ?_, ho ▸ hc⟩
      obtain ⟨d, hd, hm⟩ := hes k h1 hk
      exact hd.trans hm.symm
    exact ⟨_, hw, by rwa [Int.sub_add_cancel], hid, Int.sub_add_cancel n 1, rfl⟩

/-- A build ends with NO_INVERSE where the addition to a multiple within the bounds does. -/
theorem build_noInverse_iff :
    build nTab p a g = .failed .noInverse ↔
      ∃ (k : Nat) (c : Point), 1 ≤ k ∧ k ≤ nTab ∧ (k : Int) ≤ 2 * p ∧ multiple p a g k = some c ∧
        paddCore p a c g = .noInverse := by
  simp only [build_eq_iff hn hp, buildPass_ended_iff, reduceCtorEq, BuildEnd.failed.injEq, and_false, and_true, false_or,
    or_false]
  constructor
  · rintro ⟨w, hw, hcap, hno⟩
    have hpos := hw.positive
    have hfit := hw.fits
    exact ⟨w.order.toNat, w.cur, by omega, by omega, by omega, hw.running, hno⟩
  · rintro ⟨k, c, h1, hfit, hcap, hc, hno⟩
    obtain ⟨w, hw, ho, rfl, -⟩ := build_reaches hp h1 hfit (by omega) hc
    exact ⟨w, hw, by omega, hno⟩

/-- A build ends with TABLE_OVERFLOW where the multiple after the last entry is a point and the cap is not below it. -/
theorem build_tableOverflow_iff :
    build nTab p a g = .failed .tableOverflow ↔
      (nTab : Int) ≤ 2 * p ∧ ∃ c, multiple p a g (nTab + 1) = some c := by
  simp only [build_eq_iff hn hp, buildPass_ended_iff, reduceCtorEq, BuildEnd.failed.injEq, and_false, and_true, false_or]
  constructor
  · rintro ⟨w, hw, hcap, ⟨c, hc⟩, hfull⟩
    have hfit := hw.fits
    have ho : nTab = w.order.toNat := by omega
    refine ⟨by omega, c, ?_⟩
    rw [multiple_succ p a g hn, ho, hw.running]
    simp only [hc]
  · rintro ⟨hcap, c, hc⟩
    obtain ⟨b, hb, hadd⟩ := multiple_pred hn hc
    obtain ⟨w, hw, ho, rfl, -⟩ := build_reaches hp hn le_rfl (by omega) hb
    exact ⟨w, hw, by omega, ⟨c, hadd⟩, by omega⟩

/-- A build ends with DIVERGENCE where the multiple at the cap is a point that the table can hold. -/
theorem build_divergence_iff :
    build nTab p a g = .failed .divergence ↔
      2 * p + 1 ≤ nTab ∧ ∃ c, multiple p a g (2 * p + 1).toNat = some c := by
  simp only [build_eq_iff hn hp, buildPass_ended_iff, reduceCtorEq, BuildEnd.failed.injEq, and_false, and_true, or_false]
  constructor
  · rintro ⟨w, hw, hcap⟩
    have hle := hw.capped
    have hfit := hw.fits
    have ho : w.order = 2 * p + 1 := by omega
    exact ⟨by omega, w.cur, ho ▸ hw.running⟩
  · rintro ⟨hfit, c, hc⟩
    obtain ⟨w, hw, ho, -, -⟩ := build_reaches (nTab := nTab) hp (by omega) (by omega) (by omega) hc
    exact ⟨w, hw, by omega⟩

end

end Sys2Proof.Machine
end

section
open Sys2Proof Sys2Proof.Machine

/-- Settles O39: a pass that goes on leaves the rest of the loop to do (`finishBuild_of_more`), any other ends it. -/
theorem buildIsItsLoop : Obligations.BuildIsItsLoop := by
  refine ⟨fun nTab p a g => rfl, fun nTab p a g w => ?_⟩
  by_cases hcap : w.order + 1 > 2 * p + 1
  · rw [if_pos hcap]
    exact finishBuild_of_ended (buildPass_ended_iff.mpr (.inl ⟨hcap, rfl⟩))
  · rw [if_neg hcap]
    have hle := not_lt.mp hcap
    cases hr : paddCore p a w.cur g with
    | noInverse => exact finishBuild_of_ended (buildPass_ended_iff.mpr (.inr (.inl ⟨hle, hr, rfl⟩)))
    | identity => exact finishBuild_of_ended (buildPass_ended_iff.mpr (.inr (.inr (.inl ⟨hle, hr, rfl⟩))))
    | sum c =>
      by_cases hfit : w.order + 1 > nTab
      · exact (finishBuild_of_ended (buildPass_ended_iff.mpr (.inr (.inr (.inr ⟨hle, ⟨c, hr⟩, hfit, rfl⟩))))).trans
          (if_pos hfit).symm
      · exact (finishBuild_of_more (buildPass_of_sum hle (not_lt.mp hfit) hr)).trans (if_neg hfit).symm

/-- Settles O40, end by end: each is that of a pass on working values that hold the multiples so far (`build_eq_iff`), and
every multiple within the bounds is reached (`build_reaches`). -/
theorem buildEndsByTheMultiples : Obligations.BuildEndsByTheMultiples := by
  intro nTab p a g hn hp
  exact ⟨fun n es => build_closed_iff hn hp, build_noInverse_iff hn hp, build_tableOverflow_iff hn hp,
    build_divergence_iff hn hp, fun c hc => by simpa using finishBuild_failed hc⟩

end

section
/-! TBUILD.t from its issue to its completion, TLOOKUP.t, and what changes a table (42_table.md R150 to R162, 10_state.md
R41, R42). -/

namespace Sys2Proof.Machine

variable {W : Nat}

/-! ### TBUILD.t by its checks and the end of its build (R150, R155, R156) -/

theorem exec_tbuildOf (t : TableSel) (s : Ecmau W) : exec (tbuildOf t) s.pack = .next (s.tbuild t).pack := by
  cases t <;> rfl

theorem tbuildOf_ne_otherTable (t : TableSel) : tbuildOf t ≠ tbuildOf (otherTable t) := by cases t <;> decide

theorem tbuild_of_nonpos {s : Ecmau W} (hp : s.opP ≤ 0) (t : TableSel) : CompletesBare s (s.tbuild t) .badModulus := by
  have h : s.tbuild t = s.complete .badModulus := if_pos hp
  exact h ▸ complete_completes s .badModulus

theorem tbuild_of_not_canonical {s : Ecmau W} (hp : 0 < s.opP) (hg : ¬canonical s.opP s.opPoint1 = true)
    (t : TableSel) : CompletesBare s (s.tbuild t) .nonCanon := by
  have h : s.tbuild t = s.complete .nonCanon := by
    rw [Ecmau.tbuild, if_neg (not_le.mpr hp), if_pos (by simpa using hg), Ecmau.raise_eq]
  exact h ▸ complete_completes s .nonCanon

theorem tbuild_of_canonical {s : Ecmau W} (hp : 0 < s.opP) (hg : canonical s.opP s.opPoint1 = true) (t : TableSel) :
    s.tbuild t = s.completeBuild t (finishBuild s.cfg.nTab s.opP s.opA s.opPoint1 s.buildWork) := by
  rw [Ecmau.tbuild, if_neg (not_le.mpr hp), if_neg (by simp [hg])]

/-- TBUILD.t either writes nothing and ends with one of five codes, or completes a build that closed. -/
theorem tbuild_bare_or_closed (s : Ecmau W) (t : TableSel) :
    (∃ c ∈ [ResultCode.badModulus, .nonCanon, .noInverse, .divergence, .tableOverflow], s.tbuild t = s.complete c) ∨
    (0 < s.opP ∧ canonical s.opP s.opPoint1 = true ∧ ∃ n es,
      finishBuild s.cfg.nTab s.opP s.opA s.opPoint1 s.buildWork = .closed n es ∧
      s.tbuild t = s.completeBuild t (.closed n es)) := by
  obtain ⟨-, h⟩ | ⟨-, -, h⟩ | ⟨-, -, c, hf, h⟩ | hclosed := tbuild_cases s t
  · exact .inl ⟨_, by decide, h⟩
  · exact .inl ⟨_, by decide, h⟩
  · refine .inl ⟨c, ?_, h⟩
    obtain rfl | rfl | rfl := finishBuild_failed hf <;> decide
  · exact .inr hclosed

/-- The completion of a build that closed: table t is written, its generator from PX and PY, and nothing else is (R155). -/
theorem completeBuild_closed (s : Ecmau W) (t : TableSel) (n : Int) (es : List Point) :
    let u := s.completeBuild t (.closed n es)
    Completes s u .ok s.regs u.tabA u.tabB ∧ u.table (otherTable t) = s.table (otherTable t) ∧
      u.table t =
        { valid := true, order := bitsW n, gx := s.regs.px, gy := s.regs.py, entries := es.map Point.toEntry,
          epoch := (s.table t).epoch } := by
  refine ⟨complete_table_completes s t _ .ok, by simp [Ecmau.completeBuild], ?_⟩
  rw [← bitsW_sval s.regs.px, ← bitsW_sval s.regs.py, Ecmau.completeBuild, Ecmau.complete_table,
    Ecmau.setTable_table_self]
  rfl

/-- The stage of the working values does not matter to the end of the build (10_state.md R43; log 7). -/
theorem WorkOk.finishBuild_eq_build {s : Ecmau W} (h : WorkOk s) (hp : 0 < s.opP) :
    finishBuild s.cfg.nTab s.opP s.opA s.opPoint1 s.buildWork = build s.cfg.nTab s.opP s.opA s.opPoint1 := by
  unfold Ecmau.buildWork
  split
  · rfl
  · rfl
  · next w hw =>
    simp only [WorkOk, hw] at h
    obtain ⟨-, -, -, hok⟩ := h
    exact (hok.build_eq hp).symm

/-- The cap is a value of W bits (R154). -/
theorem two_mul_opP_lt {s : Ecmau W} (h : 0 < s.opP) : 2 * s.opP + 1 < 2 ^ W := by
  have hlt : s.opP < 2 ^ (W - 1) := sval_upper s.regs.p
  obtain rfl | hW := Nat.eq_zero_or_pos W
  · norm_num at hlt
    omega
  · rw [two_pow_succ_pred hW]
    omega

/-! ### TLOOKUP.t (R160, R162) -/

theorem exec_tlookupOf (t : TableSel) (s : Ecmau W) : exec (tlookupOf t) s.pack = .next (s.tlookup t).pack := by
  cases t <;> rfl

theorem opK_eq_toInt (s : Ecmau W) : s.opK = s.regs.k.toInt := sval_eq_toInt _

/-- TLOOKUP.t in range writes the entry K of table t (R160). -/
theorem tlookup_in_range {s : Ecmau W} {t : TableSel} (hv : (s.table t).valid = true) (h1 : 1 ≤ s.opK)
    (hn : s.opK ≤ uval (s.table t).order - 1) :
    Completes s (s.tlookup t) .ok { s.regs with
      rx := (tableEntry t (s.table t) s.opK.toNat).1, ry := (tableEntry t (s.table t) s.opK.toNat).2 } s.tabA s.tabB := by
  obtain ⟨hf, -⟩ | ⟨-, hk, -⟩ | ⟨-, -, -, h⟩ := tlookup_cases s t
  · cases hv.symm.trans hf
  · exact absurd ⟨h1, hn⟩ hk
  · exact h ▸ complete_regs_completes s _ .ok

/-- A listed entry is the one that the table holds at its index (R14). -/
theorem tableEntry_of_listed {t : TableSel} {tab : Table W} {k : Nat} (hk : 1 ≤ k) {e : Word W × Word W}
    (he : tab.entries[k - 1]? = some e) : tableEntry t tab k = e := by
  obtain ⟨j, rfl⟩ : ∃ j, k = j + 1 := ⟨k - 1, by omega⟩
  rw [Nat.add_sub_cancel] at he
  simp [tableEntry, List.getD, he]

/-- The entries of a valid table are the multiples of its generator, by the chain of R47 (R162). -/
theorem TableOk.multiple_eq {s : Ecmau W} {t : TableSel} (h : TableOk s t) (hv : (s.table t).valid = true) {k : Nat}
    (h1 : 1 ≤ k) (hn : (k : Int) ≤ uval (s.table t).order - 1) :
    multiple s.opP s.opA (entryPoint ((s.table t).gx, (s.table t).gy)) k =
      some (entryPoint (tableEntry t (s.table t) k)) := by
  induction k, h1 using Nat.le_induction with
  | base => rw [h.first hv]; rfl
  | succ k h1 ih =>
    have hadd := h.chain hv (k + 1) (by omega) hn
    rw [Nat.add_sub_cancel, ← h.first hv] at hadd
    rw [multiple_succ _ _ _ h1, ih (by omega)]
    simp only [hadd]

/-! ### What changes a table (R155, 10_state.md R41, R42) -/

/-- TBUILD.t, issued, invalidates table t (R151). -/
theorem issue_table_eq (s : Ecmau W) (v : Word W) (t : TableSel) :
    (s.issue v).table t = if decode v = .ok (tbuildOf t) then (s.table t).invalidate else s.table t := by
  rw [issue_eq]
  cases t <;> rfl

/-- A host write leaves a table as it was, or invalidates it: by a soft reset, by the issue of its TBUILD, or as a stored
write to P, A or B. -/
theorem regWrite_table_cases (s : Ecmau W) (i : RegIndex) (v : Word W) (t : TableSel) :
    (s.regWrite i v).table t = s.table t ∨
    ((s.regWrite i v).table t = (s.table t).invalidate ∧
      ((i = 0x03 ∧ v.getLsbD 1 = true) ∨ (s.busy = false ∧ i = 0x05 ∧ decode v = .ok (tbuildOf t)) ∨
        (s.busy = false ∧ (i = 0x10 ∨ i = 0x11 ∨ i = 0x12)))) := by
  obtain hw | ⟨hi, hw⟩ | ⟨-, hw⟩ | ⟨hi, hb, hw⟩ | ⟨-, regs, -, -, hw⟩ | ⟨hb, hi, regs, hw⟩ := regWrite_cases s i v <;>
    rw [hw]
  · exact .inl (s.dropWrite_table t)
  · obtain ⟨hv, hc⟩ | ⟨-, hc⟩ := writeCtrl_cases s v <;> rw [hc]
    · exact .inr ⟨s.toReset_table t, .inl ⟨hi, hv⟩⟩
    · exact .inl (s.table_with_ie _ t)
  · exact .inl (s.ackStatus_table v t)
  · rw [issue_table_eq]
    split
    · next hd => exact .inr ⟨rfl, .inr (.inl ⟨hb, hi, hd⟩)⟩
    · exact .inl rfl
  · exact .inl (s.table_with_regs regs t)
  · exact .inr ⟨storeCurve_table s regs t, .inr (.inr ⟨hb, hi⟩)⟩

/-- The unit's completion step changes a table only where its TBUILD completes with OK (R155, R156). -/
theorem unitTurn_table_cases {s u : Ecmau W} (h : unitTurn s.pack = .next u.pack) (t : TableSel) :
    u.table t = s.table t ∨ (s.command = some (.ok (tbuildOf t)) ∧ u.code = .ok) := by
  obtain ⟨-, hs⟩ | ⟨_, _, -, -, hs⟩ | ⟨v, i, _, hi, hd, hs, -, he⟩ := unitTurn_cases s <;> rw [hs] at h <;> cases h
  · exact .inl rfl
  · exact .inl (s.complete_table .illegal t)
  · by_cases hc : u.code = .ok
    · by_cases hit : i = tbuildOf t
      · exact .inr ⟨by simp [Ecmau.command, hi, hd, hit], hc⟩
      · exact .inl (he.table hit)
    · exact .inl ((he.bare_of_code_ne_ok hc).2 t)

/-- A step that completes a command is the unit's completion step, the schedule moved on (43_control.md R186). -/
theorem unitTurn_of_unitCompletes {s u : Ecmau W} (h : step s.pack = .next u.pack) (hc : s.unitCompletes = true) :
    unitTurn s.turned.pack = .next u.pack := by
  obtain ⟨-, hn, -⟩ | ⟨-, hn, -⟩ | ⟨-, -, hu⟩ | ⟨_, _, -, hn, -⟩ := step_cases h
  · cases hc.symm.trans hn
  · cases hc.symm.trans hn
  · exact hu
  · cases hc.symm.trans hn

/-- A step leaves a table as it was, completes its TBUILD with OK, or invalidates it for one of the causes of R41, R42 and
reset. -/
theorem step_table_cases {s u : Ecmau W} (h : step s.pack = .next u.pack) (t : TableSel) :
    u.table t = s.table t ∨
    (s.unitCompletes = true ∧ s.command = some (.ok (tbuildOf t)) ∧ u.code = .ok) ∨
    (u.table t = (s.table t).invalidate ∧
      ((∃ v, s.issues v ∧ decode v = .ok (tbuildOf t)) ∨ s.writesCurve ∨ s.resets)) := by
  cases stepEnds_of_step h with
  | hidden _ ts w hu => exact .inl (by cases t <;> rw [hu] <;> rfl)
  | completion hc =>
    obtain hsame | ⟨hcmd, hok⟩ := unitTurn_table_cases (unitTurn_of_unitCompletes h hc) t
    · exact .inl (hsame.trans (s.table_with_turns _ t))
    · exact .inr (.inl ⟨hc, hcmd, hok⟩)
  | read _ ts es l hu => exact .inl (by cases t <;> rw [hu] <;> rfl)
  | write _ i v hw ts es hu =>
    have hsched : ({ s with turns := ts, events := es } : Ecmau W).table t = s.table t := by cases t <;> rfl
    rw [hu, ← hsched]
    obtain hsame | ⟨hinv, hcause⟩ := regWrite_table_cases ({ s with turns := ts, events := es } : Ecmau W) i v t
    · exact .inl hsame
    · refine .inr (.inr ⟨hinv, ?_⟩)
      obtain ⟨rfl, hv⟩ | ⟨hb, rfl, hd⟩ | ⟨hb, hi⟩ := hcause
      · exact .inr (.inr (resets_of_write hw hv))
      · exact .inl ⟨v, ⟨hb, hw⟩, hd⟩
      · exact .inr (.inl ⟨hb, i, v, hw, hi⟩)
  | reset _ hr ts es hu => exact .inr (.inr ⟨by cases t <;> rw [hu] <;> rfl, .inr (.inr hr)⟩)

end Sys2Proof.Machine
end

section
open Sys2Proof Sys2Proof.Machine

/-- Settles O35: the issue invalidates table t (`issue_table_eq`), the invariant keeps it so while TBUILD.t is in flight, and
no command but its TBUILD changes the other table. -/
theorem tbuildInvalidatesAtIssue : Obligations.TbuildInvalidatesAtIssue := by
  refine ⟨fun W s t hW hb => ?_, fun W s t hinv hc => ?_, fun W s t => ?_⟩
  · have hd := decode_encode hW (tbuildOf t)
    have hissue : s.regWrite 0x05 (encode W (tbuildOf t)) = s.issue (encode W (tbuildOf t)) := writeCmd_idle hb _
    have htab : (s.issue (encode W (tbuildOf t))).table t = (s.table t).invalidate := by rw [issue_table_eq, if_pos hd]
    have hother : (s.issue (encode W (tbuildOf t))).table (otherTable t) = s.table (otherTable t) := by
      rw [issue_table_eq, hd, if_neg fun h => tbuildOf_ne_otherTable t (Except.ok.inj h)]
    simp only [hissue, htab]
    exact ⟨s.issue_busy _, (issue_command s _).trans (congrArg some hd), rfl, rfl, rfl, rfl, rfl, hother, s.issue_regs _⟩
  · have hv := hinv.building t hc
    obtain ⟨ho, hgx, hgy, -⟩ := (hinv.tables t).invalid hv
    have hb : s.busy = true := by
      obtain ⟨v, hi, -⟩ := Option.map_eq_some_iff.mp hc
      rw [hinv.busy, hi]
      rfl
    exact ⟨hv, ho, hgx, hgy, fun r => writeReg_of_busy (reg := .cmd) (by decide) hb _⟩
  · obtain ⟨u, hu, hends⟩ := exec_ends (tbuildOf t) s
    exact ⟨u, hu, hends.table (tbuildOf_ne_otherTable t)⟩

/-- Settles O36, check by check. -/
theorem tbuildChecks : Obligations.TbuildChecks := by
  intro W s t
  rw [← opP_eq_toInt]
  refine ⟨fun hp => ⟨_, exec_tbuildOf t s, tbuild_of_nonpos hp t⟩, fun hp hg =>
    ⟨_, exec_tbuildOf t s, tbuild_of_not_canonical hp (fun h => hg ?_) t⟩⟩
  rw [canonical_iff, opPoint1_eq_toInt, and_assoc] at h
  exact h

/-- Settles O37: a build that closes leaves the multiples (`buildLoop_closed`, `entryPoint_tableEntry`), and any other
completion leaves table t as the invariant has it while TBUILD.t is in flight. -/
theorem tbuildFillsItsTable : Obligations.TbuildFillsItsTable := by
  intro W s t hinv hc
  refine ⟨_, exec_tbuildOf t s, ?_⟩
  obtain ⟨c, hmem, h⟩ | ⟨hp, hg, n, es, hb, h⟩ := tbuild_bare_or_closed s t <;> rw [h]
  · have hv := hinv.building t hc
    obtain ⟨ho, hgx, hgy, he⟩ := (hinv.tables t).invalid hv
    refine ⟨rfl, s.complete_table c _, complete_completes s c, fun hok => ?_, fun _ => ?_⟩
    · rw [Ecmau.complete_code] at hok
      exact absurd (hok ▸ hmem) (by decide)
    · rw [s.complete_table c t]
      exact ⟨hv, ho, hgx, hgy, he, hmem⟩
  · obtain ⟨w, hw, rfl, rfl, -⟩ := buildLoop_closed (hinv.work.buildWork_ok hinv.params hp) hb
    obtain ⟨hcompl, hother, htab⟩ := completeBuild_closed s t (w.order + 1) w.entries
    refine ⟨hcompl.regs, hother, hcompl, fun _ => ?_, fun hne => absurd hcompl.code hne⟩
    have hpos := hw.positive
    have hfit := hw.fits
    have hlen := hw.listed
    have hlt := (nTab_bounds hinv.params).2
    have horder : ((s.completeBuild t (.closed (w.order + 1) w.entries)).table t).order.toNat = w.entries.length + 1 := by
      have hu : ((bitsW (w.order + 1) : Word W).toNat : Int) = w.order + 1 := uval_bitsW (by omega) (by omega)
      rw [htab]
      exact Int.ofNat.inj (hu.trans (hlen ▸ rfl))
    have hentries : ((s.completeBuild t (.closed (w.order + 1) w.entries)).table t).entries =
        w.entries.map Point.toEntry := by rw [htab]
    have hlength := congrArg List.length hentries
    rw [List.length_map] at hlength
    rw [← opP_eq_toInt, ← opA_eq_toInt, ← opPoint1_eq_toInt]
    exact ⟨by rw [htab], by omega, by omega, by rw [htab], by rw [htab], by omega, fun k h1 hk =>
      entryPoint_tableEntry hw hp (sval_lt_two_pow s.regs.p).le hg t hentries h1 (by omega)⟩

/-- Settles O38: the build comes to k·G (`build_reaches`) and the next pass closes it, whatever the stage of the working
values (`WorkOk.finishBuild_eq_build`). -/
theorem tbuildClosesItsSubgroup : Obligations.TbuildClosesItsSubgroup := by
  intro W s t k c hwork _ p g hp hx0 hxp hy0 hyp h1 hfit hcap hc hid
  have hP : s.opP = p := opP_eq_toInt s
  have hA : s.opA = s.regs.a.toInt := opA_eq_toInt s
  have hG : s.opPoint1 = g := opPoint1_eq_toInt s
  have hg : canonical s.opP s.opPoint1 = true := by
    rw [canonical_iff, hP, hG]
    exact ⟨⟨hx0, hxp⟩, hy0, hyp⟩
  obtain ⟨w, hw, ho, rfl, hbuild⟩ := build_reaches hp h1 hfit (by omega) hc
  have hlen := hw.listed
  have hclosed : build s.cfg.nTab p s.regs.a.toInt g = .closed (w.order + 1) w.entries :=
    hbuild.trans (finishBuild_of_ended (buildPass_ended_iff.mpr (.inr (.inr (.inl ⟨by omega, hid, rfl⟩)))))
  obtain ⟨hcompl, hother, htab⟩ := completeBuild_closed s t (w.order + 1) w.entries
  have hlt : 2 * p + 1 < 2 ^ W := hP ▸ two_mul_opP_lt (hP ▸ hp)
  have hn : (bitsW (w.order + 1) : Word W).toNat = k + 1 := by
    have hu : ((bitsW (w.order + 1) : Word W).toNat : Int) = w.order + 1 := uval_bitsW (by omega) (by omega)
    omega
  refine ⟨_, exec_tbuildOf t s, ?_⟩
  rw [tbuild_of_canonical (hP ▸ hp) hg, hwork.finishBuild_eq_build (hP ▸ hp), hP, hA, hG, hclosed]
  refine ⟨hcompl, hother, ?_⟩
  rw [htab]
  exact ⟨rfl, hn, rfl, rfl, by rw [List.length_map]; omega⟩

/-- Settles O41: the three ends of TLOOKUP.t (`tlookup_cases`). -/
theorem tlookupReadsItsTable : Obligations.TlookupReadsItsTable := by
  refine ⟨fun W => ⟨encode_eq_ofNat_commandNumber W .tlookupA, encode_eq_ofNat_commandNumber W .tlookupB⟩, ?_⟩
  intro W s t n k
  have hK : s.opK = k := opK_eq_toInt s
  have hexec := exec_tlookupOf t s
  refine ⟨fun hv => ⟨_, hexec, ?_⟩, fun hv hk => ⟨_, hexec, ?_⟩, fun hv h1 hn => ?_⟩
  · have h : s.tlookup t = s.complete .tableInvalid := if_pos hv
    exact h ▸ complete_completes s .tableInvalid
  · obtain ⟨hf, -⟩ | ⟨-, -, h⟩ | ⟨-, h1, hn, -⟩ := tlookup_cases s t
    · cases hv.symm.trans hf
    · exact h ▸ complete_completes s .range
    · exact absurd ⟨hK ▸ h1, hK ▸ hn⟩ hk
  · have hcompl := tlookup_in_range hv (hK.symm ▸ h1) (hK.symm ▸ hn)
    rw [hK] at hcompl
    exact ⟨_, _, hexec, hcompl, rfl, fun x hx => tableEntry_of_listed (by omega) hx⟩

/-- Settles O42: TLOOKUP.t writes the entry K, and the entries are the multiples of the generator
(`TableOk.multiple_eq`). -/
theorem lookupIsScalarMultiplication : Obligations.LookupIsScalarMultiplication := by
  intro W s t hinv hv h1 hn
  rw [← opK_eq_toInt] at h1 hn
  have hcompl := tlookup_in_range hv h1 hn
  have hle : ((s.opK.toNat : Nat) : Int) ≤ uval (s.table t).order - 1 := by rwa [Int.toNat_of_nonneg (by omega)]
  refine ⟨_, exec_tlookupOf t s, hcompl.code, ?_⟩
  rw [hcompl.regs, ← opP_eq_toInt, ← opA_eq_toInt, ← opK_eq_toInt]
  exact (hinv.tables t).multiple_eq hv (by omega) hle

/-- Settles O51, by what a step does to a table (`step_table_cases`): an invalidated table is not valid. -/
theorem tablesChangeByTbuildOnly : Obligations.TablesChangeByTbuildOnly := by
  intro W s u t h
  obtain hsame | ⟨hc, hcmd, hok⟩ | ⟨hinv, hcause⟩ := step_table_cases h t
  · exact ⟨fun hne => absurd hsame hne, fun h0 h1 => by rw [hsame, h0] at h1; cases h1⟩
  · exact ⟨fun _ => .inl ⟨hc, hcmd⟩, fun _ _ => ⟨hc, hcmd, hok⟩⟩
  · exact ⟨fun _ => .inr hcause, fun _ h1 => by rw [hinv] at h1; cases h1⟩

end

section
/-! The step by whose turn it is (43_control.md R186), and a completion as the host sees it (R183). -/

namespace Sys2Proof.Machine

variable {W : Nat}

/-! ### Whose turn it is -/

section
variable {s : Ecmau W} {rest : List Turn}

theorem step_of_host_turn (h : s.turns = .host :: rest) : step s.pack = packOutcome (hostTurn (s.withTurns rest)) := by
  simp only [step, h]

theorem step_of_work_turn (h : s.turns = .work :: rest) : step s.pack = .next (s.withTurns rest).workTurn.pack := by
  simp only [step, h]

theorem step_of_complete_turn (h : s.turns = .complete :: rest) : step s.pack = unitTurn (s.withTurns rest).pack := by
  simp only [step, h]

/-- With no turn listed the unit completes the command in flight (log 6). -/
theorem step_of_no_turn_inflight (h : s.turns = []) {v : Word W} (hi : s.inflight = some v) :
    step s.pack = unitTurn s.pack := by
  simp only [step, h, hi, Option.isSome_some, if_true]

/-- With no turn listed and nothing in flight the host acts (log 6). -/
theorem step_of_no_turn_idle (h : s.turns = []) (hi : s.inflight = none) :
    step s.pack = packOutcome (hostTurn s) := by
  simp only [step, h, hi, Option.isSome_none, Bool.false_eq_true, if_false]

end

/-! ### What each agent does in its turn -/

theorem hostTurn_of_event {s : Ecmau W} {e : Event W} {es : List (Event W)} (h : s.events = e :: es) :
    hostTurn s = hostEvent e { s with events := es } := by
  simp only [hostTurn, h]

theorem hostTurn_of_no_event {s : Ecmau W} (h : s.events = []) : hostTurn s = .next s := by
  simp only [hostTurn, h]

theorem unitTurn_of_none {s : Ecmau W} (h : s.inflight = none) : unitTurn s.pack = .next s.pack := by
  simp only [unitTurn, Ecmau.command, h, Option.map_none]

theorem command_of_inflight {s : Ecmau W} {v : Word W} (h : s.inflight = some v) : s.command = some (decode v) := by
  rw [Ecmau.command, h, Option.map_some]

/-- The host's turn on its first event, in full. -/
theorem step_host_event {s : Ecmau W} {rest : List Turn} {e : Event W} {es : List (Event W)}
    (h : s.turns = .host :: rest) (he : s.events = e :: es) :
    step s.pack = packOutcome (hostEvent e { s with turns := rest, events := es }) :=
  (step_of_host_turn h).trans (congrArg packOutcome (hostTurn_of_event (s := s.withTurns rest) he))

/-- A legal word in flight, once the unit acts, completes by its command's meaning (R183). -/
theorem unitTurn_of_legal_word {s : Ecmau W} {v : Word W} {i : Instr} (hi : s.inflight = some v)
    (hd : decode v = .ok i) : unitTurn s.pack = exec i s.pack :=
  unitTurn_of_legal ((command_of_inflight hi).trans (congrArg some hd))

/-- An illegal word in flight, once the unit acts, completes with ILLEGAL alone (R182). -/
theorem unitTurn_of_illegal_word {s : Ecmau W} {v : Word W} {e : Illegal} (hi : s.inflight = some v)
    (hd : decode v = .error e) :
    ∃ t : Ecmau W, unitTurn s.pack = .next t.pack ∧ CompletesBare s t .illegal ∧ t.err = true :=
  ⟨_, unitTurn_of_illegal ((command_of_inflight hi).trans (congrArg some hd)), complete_completes s .illegal,
    Bool.or_true _⟩

/-- A number of the opcode table is that of the command it is read as (R82). -/
theorem decodeTableWord_eq_some {nbits w : Nat} {i : Instr} (h : decodeTableWord nbits w = some i) :
    w % 2 ^ nbits = commandNumber i := by
  unfold decodeTableWord at h
  simp only at h
  split at h
  · cases h
  · next hlt =>
    split at h
    · next j hd =>
      cases h
      rw [← (decode_eq_ok_iff _ _).mp hd, BitVec.toNat_ofNat, Nat.mod_eq_of_lt (not_le.mp hlt)]
    · cases h

/-! ### Completion (R183, 60_exceptions.md R201, R210) -/

/-- A completion asserts the interrupt line where CTRL.IE enables it (R210). -/
theorem Completes.irq {s t : Ecmau W} {c : ResultCode} {regs : DataRegs W} {tabA tabB : Table W}
    (h : Completes s t c regs tabA tabB) : t.irq = s.ie := by
  rw [Ecmau.irq, h.ie, h.done, Bool.and_true]

theorem ExecEnds.completesBare {i : Instr} {s t : Ecmau W} (h : ExecEnds i s t) (hc : t.code ≠ .ok) :
    CompletesBare s t t.code := by
  obtain ⟨_, _, _, hcompl⟩ := h.completes
  obtain ⟨hregs, htab⟩ := h.bare_of_code_ne_ok hc
  exact { hcompl with regs := hregs, tabA := htab .A, tabB := htab .B }

end Sys2Proof.Machine
end

section
/-! The stage of the working values does not matter to a completion (43_control.md R180, 10_state.md R43; log 7): MINV
and TBUILD alone read it, and from every stage their loops come to one end. -/

namespace Sys2Proof.Machine

variable {W : Nat}

/-- A factor prime to n cancels from equal residues. -/
theorem cmod_eq_of_mul_emod_eq {n x a b : Int} (hn : 0 < n) (hg : Int.gcd n x = 1) (h : a * x % n = b * x % n) :
    cmod n a = cmod n b := by
  have hab : a ≡ b [ZMOD n / Int.gcd n x] := Int.ModEq.cancel_right_div_gcd hn h
  rw [hg, Nat.cast_one, Int.ediv_one] at hab
  rw [cmod_eq_emod hn, cmod_eq_emod hn]
  exact hab

/-- From every stage the loop of MINV ends with the same value, for there is at most one inverse (R104). -/
theorem MinvWorkOk.finishMinv_eq {n x : Int} {w w' : MinvWork} (hw : MinvWorkOk n x w) (hw' : MinvWorkOk n x w') :
    finishMinv n w = finishMinv n w' := by
  have hn : 0 < n := (hw.nonneg.trans_lt hw.below).trans_le hw.bounded
  obtain ⟨u, hu, ⟨h1, hf⟩ | ⟨h0, hf⟩⟩ := minvLoop_ends hw (Nat.lt_succ_self _) <;>
    obtain ⟨u', hu', ⟨h1', hf'⟩ | ⟨h0', hf'⟩⟩ := minvLoop_ends hw' (Nat.lt_succ_self _)
  · obtain ⟨-, hg, hinv⟩ := hu.inverse h1
    obtain ⟨-, -, hinv'⟩ := hu'.inverse h1'
    exact hf.trans ((congrArg some (cmod_eq_of_mul_emod_eq hn hg (hinv.trans hinv'.symm))).trans hf'.symm)
  · obtain ⟨hn2, hg, -⟩ := hu.inverse h1
    exact absurd ⟨hn2, hg⟩ (hu'.no_inverse h0')
  · obtain ⟨hn2, hg, -⟩ := hu'.inverse h1'
    exact absurd ⟨hn2, hg⟩ (hu.no_inverse h0)
  · exact hf.trans hf'.symm

/-- A scalar command uses its value at N alone, and only where N is positive (40_modular.md R100). -/
theorem scalar_eq_of_value_eq {s : Ecmau W} {f g : Int → Option Int} (h : 0 < s.opN → f s.opN = g s.opN) :
    s.scalar f = s.scalar g := by
  unfold Ecmau.scalar
  split
  · rfl
  · next hn => rw [h (not_le.mp hn)]

/-- The end of a build is completed without the working values it was reached from. -/
theorem completeBuild_with_work (s : Ecmau W) (w : Work) (t : TableSel) (e : BuildEnd) :
    ({ s with work := w } : Ecmau W).completeBuild t e = s.completeBuild t e := by
  cases e with
  | closed n es => cases t <;> rfl
  | failed c => rfl

section
variable {s : Ecmau W} {w : Work} (hs : WorkOk s) (hw : WorkOk ({ s with work := w } : Ecmau W))
include hs hw

theorem scalar_minv_with_work :
    ({ s with work := w } : Ecmau W).scalar (({ s with work := w } : Ecmau W).scalarValue .minv) =
      s.scalar (s.scalarValue .minv) :=
  scalar_eq_of_value_eq (s := s) fun hn => (hw.minvWork_ok hn).finishMinv_eq (hs.minvWork_ok hn)

theorem tbuild_with_work (t : TableSel) : ({ s with work := w } : Ecmau W).tbuild t = s.tbuild t := by
  unfold Ecmau.tbuild
  refine ite_congr rfl (fun _ => rfl) fun hp => ite_congr rfl (fun _ => rfl) fun _ => ?_
  have hp : 0 < s.opP := not_le.mp hp
  rw [completeBuild_with_work]
  exact congrArg (s.completeBuild t) ((hw.finishBuild_eq_build hp).trans (hs.finishBuild_eq_build hp).symm)

/-- Every command completes alike from any two stages of the working values. -/
theorem exec_with_work (i : Instr) : exec i ({ s with work := w } : Ecmau W).pack = exec i s.pack := by
  have next {u v : Ecmau W} (h : u = v) :
      (.next u.pack : Host.Outcome State Fault Refusal) = .next v.pack := h ▸ rfl
  cases i with
  | minv => exact next (scalar_minv_with_work hs hw)
  | tbuildA => exact next (tbuild_with_work hs hw .A)
  | tbuildB => exact next (tbuild_with_work hs hw .B)
  | nop | mod | madd | mmul | padd | tlookupA | tlookupB => rfl

end

end Sys2Proof.Machine
end

section
open Sys2Proof Sys2Proof.Machine

/-- Settles O19, by what the end of a command can be (`exec_ends`). -/
theorem everyCommandCompletes : Obligations.EveryCommandCompletes := by
  intro i W s
  obtain ⟨t, hexec, hends⟩ := exec_ends i s
  obtain ⟨regs, tabA, tabB, hc⟩ := hends.completes
  exact ⟨t, hexec, ⟨t.code, regs, tabA, tabB, hc⟩, hends.completesBare, fun hie => hc.irq.trans hie⟩

/-- Settles O47: a work turn leaves another stage of the working values (`workTurn_eq`), which the invariant allows
(`workTurn_inv`), and the stage does not matter to the completion (`exec_with_work`). -/
theorem workTurnsDoNotChangeTheResult : Obligations.WorkTurnsDoNotChangeTheResult := by
  intro W s i hinv _
  have hok := (workTurn_inv hinv).work
  obtain ⟨w, hw⟩ := workTurn_eq s
  rw [hw] at hok ⊢
  obtain ⟨t, hexec, -⟩ := exec_ends i s
  exact ⟨t, hexec, (exec_with_work hinv.work hok i).trans hexec⟩

/-- Settles O21: of the numbers of the table only that of NOP has OP 0 (`decode_error_iff`). -/
theorem nopCompletes : Obligations.NopCompletes := by
  refine ⟨fun W => encode_eq_ofNat_commandNumber W .nop, fun W s => ?_, fun W v hop hne => ?_⟩
  · exact ⟨_, rfl, complete_completes s .ok, Bool.or_false _, rfl⟩
  · have hv : v.toNat ≠ 0 := fun h => hne (BitVec.eq_of_toNat_eq h)
    rw [decode_error_iff]
    simp only [List.mem_cons, List.not_mem_nil, or_false]
    omega

/-- Settles O43: the unit's turn is exec of the decoded command (`unitTurn_of_legal_word`), and the word that
`withFetchWord` issues is the number of its command, which decodes to it at every width. -/
theorem stepRunsTheDecodedCommand : Obligations.StepRunsTheDecodedCommand := by
  refine ⟨fun W s v i hi hd => ⟨fun h => ?_, fun rest h => ?_⟩, fun s i nbits w hW hw => ?_⟩
  · exact (step_of_no_turn_inflight h hi).trans (unitTurn_of_legal_word hi hd)
  · exact (step_of_complete_turn h).trans (unitTurn_of_legal_word (s := s.withTurns rest) hi hd)
  · have hd : decode (BitVec.ofNat s.width (w % 2 ^ nbits)) = .ok i := by
      rw [decodeTableWord_eq_some hw, ← encode_eq_ofNat hW, decode_encode hW]
    have hi := s.unit.issue_inflight (BitVec.ofNat s.width (w % 2 ^ nbits))
    refine ⟨?_, _, rfl, (command_of_inflight hi).trans (congrArg some hd), s.unit.issue_regs _,
      s.unit.issue_events _⟩
    exact (step_of_no_turn_inflight (s := (s.unit.issue _).withTurns []) rfl hi).trans (unitTurn_of_legal_word hi hd)

/-- Settles O44: whichever way the unit comes to act, it completes the word with ILLEGAL alone
(`unitTurn_of_illegal_word`). -/
theorem stepCompletesIllegalWords : Obligations.StepCompletesIllegalWords := by
  intro W s v e hi hd
  refine ⟨fun h => ?_, fun rest h => ?_⟩
  · rw [step_of_no_turn_inflight h hi]
    exact unitTurn_of_illegal_word hi hd
  · rw [step_of_complete_turn h]
    exact unitTurn_of_illegal_word (s := s.withTurns rest) hi hd

/-- Settles O45, turn by turn: each clause is what the agent whose turn it is does. -/
theorem stepTakesTurns : Obligations.StepTakesTurns := by
  intro W s rest
  refine ⟨fun h e es he => step_host_event h he, fun h i v es he => step_host_event h he,
    fun h i es he => step_host_event h he, fun h he => ?_, fun h hi e es he => ?_, fun h hi he => ?_, fun h hi => ?_,
    step_of_work_turn⟩
  · exact (step_of_host_turn h).trans (congrArg packOutcome (hostTurn_of_no_event (s := s.withTurns rest) he))
  · rw [step_of_no_turn_idle h hi, hostTurn_of_event he]
  · rw [step_of_no_turn_idle h hi, hostTurn_of_no_event he, packOutcome_next]
  · exact (step_of_complete_turn h).trans (unitTurn_of_none (s := s.withTurns rest) hi)

end

section
/-! What stops the machine (20_memory.md R61, R63, 60_exceptions.md R203; log 5): the unit's turns and the register
accesses never do, and a bus access does where it reaches no register. -/

namespace Sys2Proof.Machine

variable {W : Nat}

/-- The unit's turn always answers a next state: an error completes its command (60_exceptions.md R203). -/
theorem unitTurn_next (s : Ecmau W) : ∃ t : Ecmau W, unitTurn s.pack = .next t.pack := by
  obtain ⟨-, h⟩ | ⟨_, _, -, -, h⟩ | ⟨_, _, t, -, -, h, -⟩ := unitTurn_cases s
  · exact ⟨_, h⟩
  · exact ⟨_, h⟩
  · exact ⟨t, h⟩

/-- An event that is a bus access of `len` bytes at `addr`, a read or a write (R63). -/
def IsBusAccess (e : Event W) (addr len : Nat) : Prop :=
  e = .busRead addr len ∨ ∃ bytes : List Byte, bytes.length = len ∧ e = .busWrite addr bytes

/-- What holds of the read and of every write of the same bytes holds of the bus access. -/
theorem IsBusAccess.of_read_write {e : Event W} {addr len : Nat} {P : Event W → Prop} (ha : IsBusAccess e addr len)
    (h : P (.busRead addr len) ∧ ∀ bytes : List Byte, bytes.length = len → P (.busWrite addr bytes)) : P e := by
  obtain ⟨hread, hwrite⟩ := h
  obtain rfl | ⟨bytes, hlen, rfl⟩ := ha
  · exact hread
  · exact hwrite bytes hlen

/-- A bus access that reaches a register answers a next state (R63). -/
theorem IsBusAccess.next_of_reg {e : Event W} {addr len : Nat} (ha : IsBusAccess e addr len) {s : Ecmau W} {i : RegIndex}
    (hi : busTarget s.cfg addr len = .reg i) : ∃ t, hostEvent e s = .next t := by
  refine ha.of_read_write (P := fun e => ∃ t, hostEvent e s = .next t) ⟨?_, ?_⟩
  · exact ⟨s.answerBusRead i, by simp only [hostEvent, hi]⟩
  · rintro bytes rfl
    exact ⟨s.regWrite i (wordOfBytes W s.cfg.bus bytes), by simp only [hostEvent, hi]⟩

/-- A bus access answers a next state, or it reaches no register and stops the machine (R61, R63). -/
theorem IsBusAccess.next_or_stops {e : Event W} {addr len : Nat} (ha : IsBusAccess e addr len) (s : Ecmau W) :
    (∃ t, hostEvent e s = .next t) ∨
    ((∀ i, busTarget s.cfg addr len ≠ .reg i) ∧
      (hostEvent e s = .fault .busError ∨ hostEvent e s = .refused .outsideWindow)) := by
  cases ht : busTarget s.cfg addr len with
  | reg i => exact .inl (ha.next_of_reg ht)
  | busError =>
    exact .inr ⟨nofun, .inl (ha.of_read_write (P := fun e => hostEvent e s = .fault .busError)
      (hostEvent_of_busError ht))⟩
  | outside =>
    exact .inr ⟨nofun, .inr (ha.of_read_write (P := fun e => hostEvent e s = .refused .outsideWindow)
      (hostEvent_of_outside ht))⟩

/-- Every event is a bus access or answers a next state (R60). -/
theorem isBusAccess_or_next (e : Event W) (s : Ecmau W) :
    (∃ addr len, IsBusAccess e addr len) ∨ ∃ t, hostEvent e s = .next t := by
  cases e with
  | busRead addr len => exact .inl ⟨addr, len, .inl rfl⟩
  | busWrite addr bytes => exact .inl ⟨addr, bytes.length, .inr ⟨bytes, rfl, rfl⟩⟩
  | regRead i => exact .inr ⟨_, rfl⟩
  | regWrite i v => exact .inr ⟨_, rfl⟩
  | hardReset => exact .inr ⟨_, rfl⟩

/-- The host's turn answers a next state where it has no event, and otherwise it is that event's. -/
theorem hostTurn_next_or_event (s : Ecmau W) :
    (∃ t, hostTurn s = .next t) ∨
    ∃ e es, s.events = e :: es ∧ hostTurn s = hostEvent e { s with events := es } := by
  cases he : s.events with
  | nil => exact .inl ⟨s, hostTurn_of_no_event he⟩
  | cons e es => exact .inr ⟨e, es, rfl, hostTurn_of_event he⟩

/-- A step is the host's turn, or the unit's and then it answers a next state (43_control.md R186). -/
theorem step_next_or_hostTurn (s : Ecmau W) :
    (∃ t : Ecmau W, step s.pack = .next t.pack) ∨
    (s.hostActs = true ∧ step s.pack = packOutcome (hostTurn s.turned)) := by
  cases hts : s.turns with
  | nil =>
    cases hi : s.inflight with
    | none =>
      have hs : s = s.turned := by rw [Ecmau.turned, Ecmau.withTurns, hts, List.tail_nil, ← hts]
      refine .inr ⟨by simp only [Ecmau.hostActs, hts, hi, Option.isNone_none], ?_⟩
      rw [← hs]
      exact step_of_no_turn_idle hts hi
    | some v =>
      obtain ⟨t, h⟩ := unitTurn_next s
      exact .inl ⟨t, (step_of_no_turn_inflight hts hi).trans h⟩
  | cons a rest =>
    have hrest : s.turned = s.withTurns rest := by rw [Ecmau.turned, hts, List.tail_cons]
    cases a with
    | host => exact .inr ⟨by simp only [Ecmau.hostActs, hts], hrest ▸ step_of_host_turn hts⟩
    | work => exact .inl ⟨_, step_of_work_turn hts⟩
    | complete =>
      obtain ⟨t, h⟩ := unitTurn_next (s.withTurns rest)
      exact .inl ⟨t, (step_of_complete_turn hts).trans h⟩

/-- A step answers a next state, or it is a bus access of the host that reaches no register, and stops (log 5). -/
theorem step_next_or_stops (s : Ecmau W) :
    (∃ t : Ecmau W, step s.pack = .next t.pack) ∨
    ∃ e addr len, s.actingEvent = some e ∧ IsBusAccess e addr len ∧ (∀ i, busTarget s.cfg addr len ≠ .reg i) ∧
      (step s.pack = .fault .busError ∨ step s.pack = .refused .outsideWindow) := by
  obtain h | ⟨hacts, hstep⟩ := step_next_or_hostTurn s
  · exact .inl h
  obtain ⟨t, h⟩ | ⟨e, es, he, h⟩ := hostTurn_next_or_event s.turned
  · exact .inl ⟨t, by rw [hstep, h, packOutcome_next]⟩
  rw [hstep, h]
  have hacting : s.actingEvent = some e := by
    have he : s.events = e :: es := he
    rw [Ecmau.actingEvent, if_pos hacts, he, List.head?_cons]
  obtain ⟨addr, len, ha⟩ | ⟨t, ht⟩ := isBusAccess_or_next e { s.turned with events := es }
  · obtain ⟨t, ht⟩ | ⟨hreg, hstop⟩ := ha.next_or_stops { s.turned with events := es }
    · exact .inl ⟨t, congrArg packOutcome ht⟩
    · exact .inr ⟨e, addr, len, hacting, ha, hreg, hstop.imp (congrArg packOutcome) (congrArg packOutcome)⟩
  · exact .inl ⟨t, congrArg packOutcome ht⟩

end Sys2Proof.Machine
end

section
open Sys2Proof Sys2Proof.Machine

/-- Settles O52: a step that stops is a bus access that reaches no register (`step_next_or_stops`), and one of a whole
register at its own offset would reach it (`busTarget_own`). -/
theorem onlyBusAccessesStop : Obligations.OnlyBusAccessesStop := by
  intro W s hcfg n
  obtain h | ⟨e, addr, len, hacting, ha, hreg, hstop⟩ := step_next_or_stops s
  · exact .inl h
  · refine .inr ⟨addr, len, ?_, ?_, hstop⟩
    · rw [hacting]
      exact ha.imp (congrArg some) fun ⟨bytes, hlen, he⟩ => ⟨bytes, hlen, congrArg some he⟩
    · rintro ⟨i, rfl, rfl⟩
      exact hreg i (busTarget_own s.cfg (registerBytes_pos hcfg).1 i)

end

section
/-! The interrupt level (60_exceptions.md R210), and what each write that bears on it leaves of it. -/

namespace Sys2Proof.Machine

variable {W : Nat}

theorem irq_eq_true_iff (s : Ecmau W) : s.irq = true ↔ s.ie = true ∧ s.done = true := Bool.and_eq_true_iff

theorem irq_of_done_eq_false {s : Ecmau W} (h : s.done = false) : s.irq = false := by
  rw [Ecmau.irq, h, Bool.and_false]

/-- A write to STATUS clears the interrupt where it clears DONE, and leaves it where it does not (10_state.md R36). -/
theorem ackStatus_irq (s : Ecmau W) (v : Word W) : (s.ackStatus v).irq = (s.irq && !v.getLsbD 1) :=
  (Bool.and_assoc s.ie s.done _).symm

/-- A write to CTRL that is no soft reset puts the interrupt under its bit 0 and keeps DONE (10_state.md R27). -/
theorem writeCtrl_of_no_reset (s : Ecmau W) {v : Word W} (hv : v.getLsbD 1 = false) :
    (s.writeCtrl v).irq = (v.getLsbD 0 && s.done) ∧ (s.writeCtrl v).done = s.done := by
  obtain ⟨hv', -⟩ | ⟨-, h⟩ := writeCtrl_cases s v
  · cases hv.symm.trans hv'
  · exact h ▸ ⟨rfl, rfl⟩

end Sys2Proof.Machine
end

section
open Sys2Proof Sys2Proof.Machine

/-- Settles O17, by what the writes to STATUS, CMD and CTRL each leave of the level. -/
theorem interruptLevel : Obligations.InterruptLevel := by
  intro W s
  have status (v : Word W) : s.regWrite 0x04 v = s.ackStatus v := rfl
  have cmd (v : Word W) : s.regWrite 0x05 v = s.writeCmd v := rfl
  have ctrl (v : Word W) : s.regWrite 0x03 v = s.writeCtrl v := rfl
  refine ⟨irq_eq_true_iff s, fun v hv => ?_, fun v hv => ?_, fun v hb => ?_, fun v hv h0 => ?_, fun v hv h0 hd => ?_⟩
  · rw [status, ackStatus_irq, hv, Bool.not_true, Bool.and_false]
  · rw [status, ackStatus_irq, hv, Bool.not_false, Bool.and_true]
  · rw [cmd, writeCmd_idle hb]
    exact irq_of_done_eq_false (s.issue_done v)
  · obtain ⟨hirq, hdone⟩ := writeCtrl_of_no_reset s hv
    rw [h0, Bool.false_and] at hirq
    exact ⟨(congrArg Ecmau.irq (ctrl v)).trans hirq, hdone⟩
  · rw [ctrl, (writeCtrl_of_no_reset s hv).1, h0, hd, Bool.and_self]

end

section
/-! The reset state (70_reset_and_hazards.md R230 to R232): what its registers read, that a soft reset reaches it, and what
each command completes with on its operands. -/

namespace Sys2Proof.Machine

variable {W : Nat}

/-! ### What the registers read after reset (R230) -/

/-- After reset every register but the three constants reads 0. -/
theorem reset_readReg_eq_zero (c : Config) {reg : Reg} (h : 0x03 ≤ (regIndex reg).val) :
    (Ecmau.reset W c).readReg reg = 0 := by
  cases reg with
  | id | width | tabdepth => exact absurd h (by decide)
  | ctrl => exact ctrlWord_eq _
  | status =>
    have fields : 0#1 ++ 0#1 ++ 0#4 ++ 0#4 ++ 0#1 ++ 0#1 ++ 0#1 ++ 0#1 = 0#14 := by decide
    exact (congrArg (BitVec.setWidth W) fields).trans (BitVec.setWidth_zero W 14)
  | cmd | n | x | y | r | p | a | b | px | py | qx | qy | rx | ry | k | orderA | gxA | gyA | orderB | gxB | gyB => rfl

theorem reset_regRead_eq_zero (c : Config) {i : RegIndex} (h : 0x03 ≤ i.val) : (Ecmau.reset W c).regRead i = 0 := by
  cases hr : regAt i with
  | none => exact regRead_of_unmapped hr _
  | some reg =>
    obtain rfl := regAt_eq_some hr
    rw [regRead_regIndex, reset_readReg_eq_zero c h]

/-- From every state a reset makes every register read what it reads in the state of R230: the epochs of the tables
(log 9) and what the reset keeps of the host (log 11) are in no register. -/
theorem toReset_regRead (s : Ecmau W) (i : RegIndex) : s.toReset.regRead i = (Ecmau.reset W s.cfg).regRead i := by
  cases hr : regAt i with
  | none => rw [regRead_of_unmapped hr, regRead_of_unmapped hr]
  | some reg =>
    obtain rfl := regAt_eq_some hr
    rw [regRead_regIndex, regRead_regIndex]
    cases reg <;> rfl

/-- A write to CTRL with bit 1 set is a reset, whatever its other bits (10_state.md R28). -/
theorem regWrite_ctrl_of_reset (s : Ecmau W) {v : Word W} (hv : v.getLsbD 1 = true) :
    s.regWrite 0x03 v = s.toReset := by
  have hw : s.regWrite 0x03 v = s.writeCtrl v := rfl
  obtain ⟨-, h⟩ | ⟨hv', -⟩ := writeCtrl_cases s v
  · exact hw.trans h
  · cases hv.symm.trans hv'

/-! ### The first command after reset (R232) -/

/-- The code of each command where the data registers are 0 and no table is valid: N and P are no modulus, and TLOOKUP
reads no register before it tests its table. -/
def codeAfterReset : Instr → ResultCode
  | .nop => .ok
  | .mod | .madd | .mmul | .minv | .padd | .tbuildA | .tbuildB => .badModulus
  | .tlookupA | .tlookupB => .tableInvalid

theorem tlookup_of_not_valid {s : Ecmau W} {t : TableSel} (h : (s.table t).valid = false) :
    CompletesBare s (s.tlookup t) .tableInvalid := by
  have ht : s.tlookup t = s.complete .tableInvalid := if_pos h
  exact ht ▸ complete_completes s .tableInvalid

/-- The completion of a command on the data registers and tables of R230. -/
theorem exec_code_of_reset_operands {s : Ecmau W} (hregs : s.regs = DataRegs.reset W)
    (hvalid : ∀ t, (s.table t).valid = false) (i : Instr) :
    ∃ t : Ecmau W, exec i s.pack = .next t.pack ∧ t.code = codeAfterReset i := by
  have hn : s.regs.n.toInt ≤ 0 := by rw [hregs]; exact BitVec.toInt_zero.le
  have hp : s.opP ≤ 0 := by rw [opP_eq_toInt, hregs]; exact BitVec.toInt_zero.le
  cases i with
  | nop => exact ⟨_, rfl, rfl⟩
  | mod | madd | mmul | minv => exact ⟨_, exec_scalar (by decide) s, (scalar_of_nonpos hn _).code⟩
  | padd => exact ⟨_, exec_padd s, (padd_of_nonpos hp).code⟩
  | tbuildA => exact ⟨_, exec_tbuildOf .A s, (tbuild_of_nonpos hp .A).code⟩
  | tbuildB => exact ⟨_, exec_tbuildOf .B s, (tbuild_of_nonpos hp .B).code⟩
  | tlookupA => exact ⟨_, exec_tlookupOf .A s, (tlookup_of_not_valid (hvalid .A)).code⟩
  | tlookupB => exact ⟨_, exec_tlookupOf .B s, (tlookup_of_not_valid (hvalid .B)).code⟩

theorem decodeTableWord_commandNumber (i : Instr) : decodeTableWord 32 (commandNumber i) = some i := by
  cases i <;> decide

/-- No table is valid while the first command after reset is in flight: its issue validates none. -/
theorem reset_issue_table_valid (c : Config) (v : Word W) (t : TableSel) :
    (((Ecmau.reset W c).issue v).table t).valid = false := by
  obtain ⟨h, -⟩ | h := issue_table_cases (Ecmau.reset W c) v t <;> rw [h]
  · cases t <;> rfl
  · rfl

/-- The first command after reset completes in the very next step (O43), on the data registers of reset, which its issue
keeps, and with no table valid. -/
theorem step_first_command (c : Config) (hW : 32 ≤ W) (i : Instr) :
    ∃ t : Ecmau W, step ((Ecmau.reset W c).pack.withFetchWord 32 (commandNumber i)) = .next t.pack ∧
      t.code = codeAfterReset i := by
  let v : Word W := BitVec.ofNat W (commandNumber i % 2 ^ 32)
  obtain ⟨hstep, -⟩ :=
    stepRunsTheDecodedCommand.2 (Ecmau.reset W c).pack i 32 _ hW (decodeTableWord_commandNumber i)
  obtain ⟨t, hexec, hcode⟩ := exec_code_of_reset_operands (s := ((Ecmau.reset W c).issue v).withTurns [])
    ((Ecmau.reset W c).issue_regs v) (reset_issue_table_valid c v) i
  exact ⟨t, hstep.trans hexec, hcode⟩

end Sys2Proof.Machine
end

section
open Sys2Proof Sys2Proof.Machine

/-- Settles O54: both resets are `toReset`, whose every register reads as in the state of R230 (`toReset_regRead`), and
which leaves nothing in flight for the unit's next turn. -/
theorem resetsReachTheResetState : Obligations.ResetsReachTheResetState := by
  intro W s v hv
  rw [regWrite_ctrl_of_reset s hv]
  have hvalid (t : TableSel) : (s.toReset.table t).valid = false := by rw [s.toReset_table t, Table.invalidate_valid]
  exact ⟨rfl, toReset_regRead s, irq_of_done_eq_false s.toReset_done, s.toReset_inflight, s.toReset_work,
    s.toReset_regs, s.toReset_cfg, hvalid, unitTurn_of_none s.toReset_inflight, s.toReset_events, s.toReset_turns⟩

/-- Settles O53: the fields are those that `Ecmau.reset` names; the constants read their numbers (`bitsW_natCast`) and every
other register 0 (`reset_regRead_eq_zero`). -/
theorem resetState : Obligations.ResetState := by
  refine ⟨fun W c => ?_, rfl⟩
  exact ⟨rfl, rfl, rfl, rfl, rfl, rfl, rfl, rfl, rfl, rfl, rfl, rfl, rfl, rfl, rfl, bitsW_natCast W,
    bitsW_natCast c.nTab, fun _ hi => reset_regRead_eq_zero c hi⟩

/-- Settles O55: the words are the numbers of their commands, and each command's code is known (`step_first_command`). -/
theorem commandsAfterReset : Obligations.CommandsAfterReset := by
  intro W c hW first
  have row (is : List Instr) (code : ResultCode) (h : ∀ i ∈ is, codeAfterReset i = code) :
      ∀ w ∈ is.map commandNumber, ∃ t : Ecmau W, first w = .next t.pack ∧ t.code = code :=
    List.forall_mem_map.mpr fun i hi => h i hi ▸ step_first_command c hW i
  exact ⟨step_first_command c hW .nop, row [.mod, .madd, .mmul, .minv, .padd, .tbuildA, .tbuildB] .badModulus (by decide),
    row [.tlookupA, .tlookupB] .tableInvalid (by decide), rfl, rfl⟩

end
